-- ==== Sys2Proof/Word.lean ====
section
/-! DEFINITION. The word types of the block and the small closed sets its command words choose from
(spec/00_scope.md R10, R11; spec/30_encoding.md R101, R104). -/

namespace Sys2Proof

/-- A word register's value, a coordinate, a scalar: an unsigned 256-bit integer (R11, R21). -/
abbrev Word := BitVec 256

/-- What one bus transaction carries, and a command word (R61, R100). -/
abbrev Bus := BitVec 32

/-- One byte of an HMAC message (R8, R260). -/
abbrev Byte := BitVec 8

/-- The unsigned integer a word stands for: no quantity of the block is signed (R13). -/
abbrev Word.int (v : Word) : Int := (v.toNat : Int)

/-- `v[0]`, the parity of a value (R29). -/
abbrev Word.parity (v : Word) : Bool := v.getLsbD 0

/-- The two moduli an M bit chooses between (R101): `p` is M = 0, `n` is M = 1. -/
inductive Modulus where
  | p
  | n
deriving DecidableEq, Repr

/-- The four flags of FLAGS, in bit order (R29, R104). -/
inductive Flag where
  | eq
  | lt
  | odd
  | inf
deriving DecidableEq, Repr

/-- A word-register number W0..W15 (R102, class w): every 4-bit field value names one. -/
abbrev WReg := Fin 16

/-- A point-register number P0..P7 (R102, class p). -/
abbrev PReg := Fin 8

end Sys2Proof
end

