-- ==== Sys2Proof/Config.lean ====
section
/-! DEFINITION. What the spec leaves to the platform and the implementation (spec/00_scope.md R8, R10; spec/10_state.md R44):
opaque constants, of which no proof can see a value. The curve constants and the constant ROM are fixed by the spec and
stand in Machine/Constants.lean. LAT, the third open parameter, has no place in a model without time (R361; log entry 8). -/

namespace Sys2Proof

/-- HMAC : Bytes32 -> Bytes -> Bytes32, the external HMAC-SHA-256 service (R8). A 32-byte string is held as the 256-bit value
it is the big-endian form of. The spec gives the function no definition and calls it a model parameter (D30): it is opaque. -/
opaque Config.hmac : Word → List Byte → Word

/-- BASE, the platform's bus address of the 4 KiB window (R60; D10): open, so opaque. -/
opaque Config.base : Nat

end Sys2Proof
end

