-- ==== Sys2Proof/Syntax.lean ====
section
/-! DEFINITION. The commands of the block as syntax: one constructor per row of spec/opcode_table.json (spec/30_encoding.md R105,
operand order of R111). Register operands are exactly the values their field class admits (R102); an immediate whose legal
values no mask can say (LDC's index, PRECOMP's width) and NINIT's RD are as wide as the field, and WellFormed.lean checks them. -/

namespace Sys2Proof

inductive Instr where
  -- sequencer (R130 to R134)
  | nop
  | mov (rd rs : WReg)
  | ldc (rd : WReg) (idx : BitVec 8)
  | cmp (ra rb : WReg)
  | zeroize
  -- modular_adder_subtractor (R150 to R155)
  | madd (m : Modulus) (rd ra rb : WReg)
  | msub (m : Modulus) (rd ra rb : WReg)
  | mneg (m : Modulus) (rd ra : WReg)
  | mcneg (m : Modulus) (rd ra : WReg) (flag : Flag) (inv : Bool)
  | mred (m : Modulus) (rd ra : WReg)
  | mredw (m : Modulus) (rd rhi rlo : WReg)
  -- montgomery_multiplier (R170 to R175)
  | montmul (m : Modulus) (rd ra rb : WReg)
  | tomont (m : Modulus) (rd ra : WReg)
  | frommont (m : Modulus) (rd ra : WReg)
  | mmul (m : Modulus) (rd ra rb : WReg)
  | msqr (m : Modulus) (rd ra : WReg)
  | mpow (m : Modulus) (rd rbase rexp : WReg)
  -- field_inverter (R190, R191)
  | minv (m : Modulus) (rd ra : WReg)
  | msqrt (rd ra : WReg)
  -- point engines (R201 to R211)
  | pinf (pd : PReg)
  | pgen (pd : PReg)
  | pmov (pd ps : PReg)
  | plda (pd : PReg) (wx wy : WReg)
  | plift (pd : PReg) (wx : WReg) (odd : Bool)
  | pneg (pd ps : PReg)
  | padd (pd pa pb : PReg)
  | pdbl (pd pa : PReg)
  | peq (pa pb : PReg)
  | ptst (ps : PReg)
  | paff (wx wy : WReg) (ps : PReg)
  -- scalar_multiplier_windowed and dual_scalar_multiplier (R242 to R245)
  | precomp (width : BitVec 8)
  | pmulg (pd : PReg) (wk : WReg)
  | pmul (pd pq : PReg) (wk : WReg)
  | pmul2 (pd : PReg) (wk wl : WReg) (pq : PReg)
  -- ecdsa_nonce_generator (R261, R262)
  | ninit (extra : Bool) (we wd wh : WReg)
  | ngen (wk : WReg)
deriving DecidableEq, Repr

end Sys2Proof
end

