-- ==== Sys2Proof/Machine/Constants.lean ====
section
/-! DEFINITION. The curve constants (spec/00_scope.md R4), the constant ROM (spec/10_state.md R28), the Montgomery constants
(spec/42_montgomery_multiplier.md R176) and the ID register's value (R30). The digits of N, GX and GY are the spec's own
general-knowledge entries (R3, K1); the model takes them as R4 and R28 print them. -/

namespace Sys2Proof.Machine

/-- P = 2^256 - 2^32 - 977, the field prime (R4). -/
def fieldP : Nat := 0xFFFFFFFFFFFFFFFFFFFFFFFFFFFFFFFFFFFFFFFFFFFFFFFFFFFFFFFEFFFFFC2F

/-- N, the group order (R4). -/
def orderN : Nat := 0xFFFFFFFFFFFFFFFFFFFFFFFFFFFFFFFEBAAEDCE6AF48A03BBFD25E8CD0364141

/-- GX (R4). -/
def genX : Nat := 0x79BE667EF9DCBBAC55A06295CE870B07029BFCDB2DCE28D959F2815B16F81798

/-- GY (R4). -/
def genY : Nat := 0x483ADA7726A3C4655DA4FBFC0E1108A8FD17B448A68554199C47D08FFB10D4B8

/-- `m(M)` (R11). -/
def modulus : Modulus → Nat
  | .p => fieldP
  | .n => orderN

/-- R = 2^256, the Montgomery radix for both moduli (R176). -/
def montR : Nat := 2 ^ 256

/-- R^-1 modulo P and modulo N (R176). -/
def montRinv : Modulus → Nat
  | .p => 0xC9BD1905155383999C46C2C295F2B761BCB223FEDC24A059D838091D0868192A
  | .n => 0xD9E8890D6494EF93897F30C127CFAB5D3BBBD4567FA50C3C80FD22938097C016

/-- The 12 entries of the constant ROM, in index order (R28). -/
def constRom : List Word :=
  [ 0,                                                                     -- 0 ZERO
    1,                                                                     -- 1 ONE
    0xFFFFFFFFFFFFFFFFFFFFFFFFFFFFFFFFFFFFFFFFFFFFFFFFFFFFFFFEFFFFFC2F,    -- 2 P
    0xFFFFFFFFFFFFFFFFFFFFFFFFFFFFFFFEBAAEDCE6AF48A03BBFD25E8CD0364141,    -- 3 N
    0x79BE667EF9DCBBAC55A06295CE870B07029BFCDB2DCE28D959F2815B16F81798,    -- 4 GX
    0x483ADA7726A3C4655DA4FBFC0E1108A8FD17B448A68554199C47D08FFB10D4B8,    -- 5 GY
    7,                                                                     -- 6 B
    0x7FFFFFFFFFFFFFFFFFFFFFFFFFFFFFFF5D576E7357A4501DDFE92F46681B20A0,    -- 7 HALF_N
    0x1000003D1,                                                           -- 8 RP
    0x14551231950B75FC4402DA1732FC9BEBF,                                   -- 9 RN
    0x1000007A2000E90A1,                                                   -- 10 R2P
    0x9D671CD581C69BC5E697F5E45BCD07C6741496C20E7CF878896CF21467D7D140 ]   -- 11 R2N

/-- The value of the ID register: 0x5EC1 names the block, 0x0007 the interface version (R30). -/
def idValue : Bus := 0x5EC10007

/-- ⌈256/w⌉, the number of windows of a table of width w (R240). -/
def windowCount (w : Nat) : Nat := (256 + w - 1) / w

/-- The bus address the platform gives an offset of the window (R60): BASE + off. -/
def busAddress (off : BitVec 12) : Nat := Config.base + off.toNat

/-- The offset a platform bus address selects, if it lies in the window (R60). -/
def windowOffset (addr : Nat) : Option (BitVec 12) :=
  if Config.base ≤ addr ∧ addr - Config.base < 4096 then some (BitVec.ofNat 12 (addr - Config.base)) else none

end Sys2Proof.Machine
end

