-- ==== Sys2Proof/Machine/Arith.lean ====
section
/-! DEFINITION. Modular arithmetic on exact integers, narrowed once at the end (spec/00_scope.md R11, R13;
spec/41_modular_add_sub.md R156). -/

namespace Sys2Proof.Machine

/-- `x mod m`, the least non-negative residue, as a word (R11); m ≤ 2^256. -/
def residue (m : Nat) (x : Int) : Word := BitVec.ofNat 256 (x % (m : Int)).toNat

/-- `x mod P`, as an exact integer. -/
def modP (x : Int) : Int := x % (fieldP : Int)

/-- The square-and-multiply loop of `powMod` over the `fuel` low bits of the exponent. -/
def powLoop (m : Nat) : Nat → Nat → Nat → Nat
  | 0, _, _ => 1 % m
  | fuel + 1, a, e =>
    let rest := powLoop m fuel (a * a % m) (e / 2)
    if e % 2 = 1 then a * rest % m else rest

/-- `a^e mod m` for an exponent below 2^256, with x^0 = 1 for every x (R11). All 256 exponent bits are processed (R175). -/
def powMod (m a e : Nat) : Nat := powLoop m 256 a e

/-- `inv_m(a) = a^(m - 2) mod m` for a in [1, m) and m prime (R11, R190). -/
def invMod (m a : Nat) : Nat := powMod m a (m - 2)

/-- `a^((P + 1) / 4) mod P`, the square-root candidate for P ≡ 3 (mod 4) (R191). -/
def sqrtCandidate (a : Nat) : Nat := powMod fieldP a ((fieldP + 1) / 4)

/-- The 32-byte big-endian encoding of a word: byte 0 is v[255:248] (R11). -/
def be32 (v : Word) : List Byte := (List.range 32).map fun i => v.extractLsb' (8 * (31 - i)) 8

end Sys2Proof.Machine
end

