-- ==== Sys2Proof/WellFormed.lean ====
section
/-! DEFINITION. The checks on a command that its operand types do not make: the three "extra_legality" notes of
spec/opcode_table.json (spec/30_encoding.md R104, R106 items 5 and 6, R108). -/

namespace Sys2Proof

/-- LDC's index selects one of the 12 entries of the constant ROM (R104, R108). -/
def legalConstIndex (idx : BitVec 8) : Bool := idx.toNat < 12

/-- PRECOMP's width is 0, 4 or 8 (R104, R108). -/
def legalWidth (w : BitVec 8) : Bool := w == 0 || w == 4 || w == 8

/-- NINIT's RD is 0 when E = 0 (R106 item 6). -/
def legalExtra (extra : Bool) (we : WReg) : Bool := extra || we == 0

/-- The command word of `i` is legal (R106). -/
def Instr.wellFormed : Instr → Bool
  | .ldc _ idx => legalConstIndex idx
  | .precomp w => legalWidth w
  | .ninit e we _ _ => legalExtra e we
  | .nop => true
  | .mov _ _ => true
  | .cmp _ _ => true
  | .zeroize => true
  | .madd _ _ _ _ => true
  | .msub _ _ _ _ => true
  | .mneg _ _ _ => true
  | .mcneg _ _ _ _ _ => true
  | .mred _ _ _ => true
  | .mredw _ _ _ _ => true
  | .montmul _ _ _ _ => true
  | .tomont _ _ _ => true
  | .frommont _ _ _ => true
  | .mmul _ _ _ _ => true
  | .msqr _ _ _ => true
  | .mpow _ _ _ _ => true
  | .minv _ _ _ => true
  | .msqrt _ _ => true
  | .pinf _ => true
  | .pgen _ => true
  | .pmov _ _ => true
  | .plda _ _ _ => true
  | .plift _ _ _ => true
  | .pneg _ _ => true
  | .padd _ _ _ => true
  | .pdbl _ _ => true
  | .peq _ _ => true
  | .ptst _ => true
  | .paff _ _ _ => true
  | .pmulg _ _ => true
  | .pmul _ _ _ => true
  | .pmul2 _ _ _ _ => true
  | .ngen _ => true

end Sys2Proof
end

