-- ==== Sys2Proof/Decode.lean ====
section
/-! DEFINITION. Command words: the fields of R101, the opcode map of R105 as a table, legality (R106), the decoder (total on
32-bit words, rejecting by name) and the encoder (spec/30_encoding.md). A command is one 32-bit number written to CMD, never a
byte string (R68, R100), so the decoder reads one `Bus` word. -/

namespace Sys2Proof

/-- The fields of a command word (R101), most significant first. -/
structure Fields where
  opc : BitVec 8
  m   : BitVec 1
  rsv : BitVec 3
  rd  : BitVec 4
  rs1 : BitVec 4
  rs2 : BitVec 4
  imm : BitVec 8
deriving DecidableEq, Repr

/-- The fields of a word (R101). -/
def Fields.split (w : Bus) : Fields where
  opc := w.extractLsb' 24 8
  m   := w.extractLsb' 23 1
  rsv := w.extractLsb' 20 3
  rd  := w.extractLsb' 16 4
  rs1 := w.extractLsb' 12 4
  rs2 := w.extractLsb' 8 4
  imm := w.extractLsb' 0 8

/-- The word with these fields: `OOOOOOOO M RRR DDDD SSSS TTTT IIIIIIII` (R101). -/
def Fields.join (f : Fields) : Bus := f.opc ++ f.m ++ f.rsv ++ f.rd ++ f.rs1 ++ f.rs2 ++ f.imm

/-- The 36 commands, by the mnemonic of R105. -/
inductive Op where
  | nop | mov | ldc | cmp | zeroize
  | madd | msub | mneg | mcneg | mred | mredw
  | montmul | tomont | frommont | mmul | msqr | mpow
  | minv | msqrt
  | pinf | pgen | pmov | plda | plift | pneg | padd | pdbl | peq | ptst | paff
  | precomp | pmulg | pmul | pmul2
  | ninit | ngen
deriving DecidableEq, Repr

/-- What a register field of a command holds (R102): `-`, w or p. -/
inductive FieldClass where
  | unused
  | w
  | p
deriving DecidableEq, Repr

/-- What IMM8 holds (R104). -/
inductive ImmClass where
  | unused
  | constIndex
  | condition
  | parity
  | width
  | pointReg
  | extra
deriving DecidableEq, Repr

/-- One row of the opcode map (R105). -/
structure Row where
  op     : Op
  opc    : BitVec 8
  takesM : Bool
  rd     : FieldClass
  rs1    : FieldClass
  rs2    : FieldClass
  imm    : ImmClass
deriving DecidableEq, Repr

/-- R105, opcodes 0x00 to 0x0F. -/
def rowsSequencer : List Row :=
  [ ⟨.nop,      0x00, false, .unused, .unused, .unused, .unused⟩,
    ⟨.mov,      0x01, false, .w,      .w,      .unused, .unused⟩,
    ⟨.ldc,      0x02, false, .w,      .unused, .unused, .constIndex⟩,
    ⟨.cmp,      0x03, false, .unused, .w,      .w,      .unused⟩,
    ⟨.zeroize,  0x0F, false, .unused, .unused, .unused, .unused⟩ ]

/-- R105, opcodes 0x10 to 0x15. -/
def rowsAddSub : List Row :=
  [ ⟨.madd,     0x10, true,  .w,      .w,      .w,      .unused⟩,
    ⟨.msub,     0x11, true,  .w,      .w,      .w,      .unused⟩,
    ⟨.mneg,     0x12, true,  .w,      .w,      .unused, .unused⟩,
    ⟨.mcneg,    0x13, true,  .w,      .w,      .unused, .condition⟩,
    ⟨.mred,     0x14, true,  .w,      .w,      .unused, .unused⟩,
    ⟨.mredw,    0x15, true,  .w,      .w,      .w,      .unused⟩ ]

/-- R105, opcodes 0x20 to 0x31. -/
def rowsMultiplier : List Row :=
  [ ⟨.montmul,  0x20, true,  .w,      .w,      .w,      .unused⟩,
    ⟨.tomont,   0x21, true,  .w,      .w,      .unused, .unused⟩,
    ⟨.frommont, 0x22, true,  .w,      .w,      .unused, .unused⟩,
    ⟨.mmul,     0x23, true,  .w,      .w,      .w,      .unused⟩,
    ⟨.msqr,     0x24, true,  .w,      .w,      .unused, .unused⟩,
    ⟨.mpow,     0x25, true,  .w,      .w,      .w,      .unused⟩,
    ⟨.minv,     0x30, true,  .w,      .w,      .unused, .unused⟩,
    ⟨.msqrt,    0x31, false, .w,      .w,      .unused, .unused⟩ ]

/-- R105, opcodes 0x40 to 0x4A. -/
def rowsPoint : List Row :=
  [ ⟨.pinf,     0x40, false, .p,      .unused, .unused, .unused⟩,
    ⟨.pgen,     0x41, false, .p,      .unused, .unused, .unused⟩,
    ⟨.pmov,     0x42, false, .p,      .p,      .unused, .unused⟩,
    ⟨.plda,     0x43, false, .p,      .w,      .w,      .unused⟩,
    ⟨.plift,    0x44, false, .p,      .w,      .unused, .parity⟩,
    ⟨.pneg,     0x45, false, .p,      .p,      .unused, .unused⟩,
    ⟨.padd,     0x46, false, .p,      .p,      .p,      .unused⟩,
    ⟨.pdbl,     0x47, false, .p,      .p,      .unused, .unused⟩,
    ⟨.peq,      0x48, false, .unused, .p,      .p,      .unused⟩,
    ⟨.ptst,     0x49, false, .unused, .p,      .unused, .unused⟩,
    ⟨.paff,     0x4A, false, .w,      .p,      .w,      .unused⟩ ]

/-- R105, opcodes 0x50 to 0x61. -/
def rowsScalarNonce : List Row :=
  [ ⟨.precomp,  0x50, false, .unused, .unused, .unused, .width⟩,
    ⟨.pmulg,    0x51, false, .p,      .w,      .unused, .unused⟩,
    ⟨.pmul,     0x52, false, .p,      .p,      .w,      .unused⟩,
    ⟨.pmul2,    0x53, false, .p,      .w,      .w,      .pointReg⟩,
    ⟨.ninit,    0x60, false, .w,      .w,      .w,      .extra⟩,
    ⟨.ngen,     0x61, false, .w,      .unused, .unused, .unused⟩ ]

/-- The opcode map (R105). Every opcode not listed is unassigned (R107). -/
def opcodeMap : List Row :=
  rowsSequencer ++ rowsAddSub ++ rowsMultiplier ++ rowsPoint ++ rowsScalarNonce

/-- The row of an opcode, if it is assigned. -/
def rowOf (opc : BitVec 8) : Option Row := opcodeMap.find? fun r => r.opc == opc

/-- Why a command word is illegal, by the item of R106 it fails. Every one of them is ILLEGAL_CMD. -/
inductive Reject where
  | unassignedOpcode   -- item 1, R107
  | reservedBits       -- item 2
  | modulusBit         -- item 3
  | unusedField        -- item 4, class "-"
  | pointRegister      -- item 4, class p
  | immediate          -- item 5, R108
  | extraRegister      -- item 6
deriving DecidableEq, Repr

/-- R106 item 4 for one register field. -/
def fieldReject (c : FieldClass) (v : BitVec 4) : Option Reject :=
  match c with
  | .unused => if v = 0 then none else some .unusedField
  | .w => none
  | .p => if v.toNat < 8 then none else some .pointRegister

/-- The legal values of IMM8 (R104, R106 item 5, R108). -/
def immLegal (c : ImmClass) (v : BitVec 8) : Bool :=
  match c with
  | .unused => v == 0
  | .constIndex => v.toNat < 12
  | .condition => v.toNat < 8
  | .parity => v.toNat < 2
  | .width => v == 0 || v == 4 || v == 8
  | .pointReg => v.toNat < 8
  | .extra => v.toNat < 2

/-- The first item of R106 that the fields fail for a row, if any. -/
def rowReject (r : Row) (f : Fields) : Option Reject :=
  if f.rsv ≠ 0 then some .reservedBits
  else if r.takesM = false ∧ f.m ≠ 0 then some .modulusBit
  else match fieldReject r.rd f.rd with
    | some e => some e
    | none => match fieldReject r.rs1 f.rs1 with
      | some e => some e
      | none => match fieldReject r.rs2 f.rs2 with
        | some e => some e
        | none =>
          if immLegal r.imm f.imm = false then some .immediate
          else if r.imm = .extra ∧ f.imm = 0 ∧ f.rd ≠ 0 then some .extraRegister
          else none

/-- M as a modulus: 0 = P, 1 = N (R101). -/
def modulusOfBit (b : BitVec 1) : Modulus := if b = 0 then .p else .n

/-- A modulus as the M bit (R101). -/
def bitOfModulus : Modulus → BitVec 1
  | .p => 0
  | .n => 1

/-- A w field as a register number. -/
def wregOfBits (b : BitVec 4) : WReg := b.toFin

/-- A register number as a w field. -/
def bitsOfWreg (r : WReg) : BitVec 4 := BitVec.ofFin r

/-- The low three bits of a legal p field, or of PMUL2's IMM8, as a point-register number. -/
def pregOfBits {n : Nat} (b : BitVec n) : PReg := (b.extractLsb' 0 3).toFin

/-- A point-register number as three bits. -/
def bitsOfPreg (r : PReg) : BitVec 3 := BitVec.ofFin r

/-- A point-register number as a p field: bit 3 is 0 (R102). -/
def pfieldOfPreg (r : PReg) : BitVec 4 := 0#1 ++ bitsOfPreg r

/-- IMM8[1:0] as MCNEG's flag select: 0 EQ, 1 LT, 2 ODD, 3 INF (R104). -/
def flagOfBits (b : BitVec 2) : Flag :=
  if b = 0 then .eq else if b = 1 then .lt else if b = 2 then .odd else .inf

/-- A flag as MCNEG's flag select (R104). -/
def bitsOfFlag : Flag → BitVec 2
  | .eq => 0
  | .lt => 1
  | .odd => 2
  | .inf => 3

/-- One bit of IMM8 that stands alone: PLIFT's parity, NINIT's E. -/
def immOfBool (b : Bool) : BitVec 8 := if b then 1 else 0

/-- The command a legal word's fields name, operand by operand (R111's field column). -/
def buildInstr (op : Op) (f : Fields) : Instr :=
  let m := modulusOfBit f.m
  let wd := wregOfBits f.rd
  let w1 := wregOfBits f.rs1
  let w2 := wregOfBits f.rs2
  let pd := pregOfBits f.rd
  let p1 := pregOfBits f.rs1
  let p2 := pregOfBits f.rs2
  match op with
  | .nop => .nop
  | .mov => .mov wd w1
  | .ldc => .ldc wd f.imm
  | .cmp => .cmp w1 w2
  | .zeroize => .zeroize
  | .madd => .madd m wd w1 w2
  | .msub => .msub m wd w1 w2
  | .mneg => .mneg m wd w1
  | .mcneg => .mcneg m wd w1 (flagOfBits (f.imm.extractLsb' 0 2)) (f.imm.getLsbD 2)
  | .mred => .mred m wd w1
  | .mredw => .mredw m wd w1 w2
  | .montmul => .montmul m wd w1 w2
  | .tomont => .tomont m wd w1
  | .frommont => .frommont m wd w1
  | .mmul => .mmul m wd w1 w2
  | .msqr => .msqr m wd w1
  | .mpow => .mpow m wd w1 w2
  | .minv => .minv m wd w1
  | .msqrt => .msqrt wd w1
  | .pinf => .pinf pd
  | .pgen => .pgen pd
  | .pmov => .pmov pd p1
  | .plda => .plda pd w1 w2
  | .plift => .plift pd w1 (f.imm.getLsbD 0)
  | .pneg => .pneg pd p1
  | .padd => .padd pd p1 p2
  | .pdbl => .pdbl pd p1
  | .peq => .peq p1 p2
  | .ptst => .ptst p1
  | .paff => .paff wd w2 p1
  | .precomp => .precomp f.imm
  | .pmulg => .pmulg pd w1
  | .pmul => .pmul pd p1 w2
  | .pmul2 => .pmul2 pd w1 w2 (pregOfBits f.imm)
  | .ninit => .ninit (f.imm.getLsbD 0) wd w1 w2
  | .ngen => .ngen wd

/-- Decoding by fields: legality first, then the command (R106, R109). -/
def decodeFields (f : Fields) : Except Reject Instr :=
  match rowOf f.opc with
  | none => .error .unassignedOpcode
  | some r =>
    match rowReject r f with
    | some e => .error e
    | none => .ok (buildInstr r.op f)

/-- The decoder: every 32-bit word is a command or is rejected by name (R106 to R110). -/
def decode (w : Bus) : Except Reject Instr := decodeFields (Fields.split w)

/-- The fields of a command (R101, R105, R111). -/
def encodeFields : Instr → Fields
  | .nop => ⟨0x00, 0, 0, 0, 0, 0, 0⟩
  | .mov rd rs => ⟨0x01, 0, 0, bitsOfWreg rd, bitsOfWreg rs, 0, 0⟩
  | .ldc rd idx => ⟨0x02, 0, 0, bitsOfWreg rd, 0, 0, idx⟩
  | .cmp ra rb => ⟨0x03, 0, 0, 0, bitsOfWreg ra, bitsOfWreg rb, 0⟩
  | .zeroize => ⟨0x0F, 0, 0, 0, 0, 0, 0⟩
  | .madd m rd ra rb => ⟨0x10, bitOfModulus m, 0, bitsOfWreg rd, bitsOfWreg ra, bitsOfWreg rb, 0⟩
  | .msub m rd ra rb => ⟨0x11, bitOfModulus m, 0, bitsOfWreg rd, bitsOfWreg ra, bitsOfWreg rb, 0⟩
  | .mneg m rd ra => ⟨0x12, bitOfModulus m, 0, bitsOfWreg rd, bitsOfWreg ra, 0, 0⟩
  | .mcneg m rd ra fl inv =>
      ⟨0x13, bitOfModulus m, 0, bitsOfWreg rd, bitsOfWreg ra, 0, 0#5 ++ BitVec.ofBool inv ++ bitsOfFlag fl⟩
  | .mred m rd ra => ⟨0x14, bitOfModulus m, 0, bitsOfWreg rd, bitsOfWreg ra, 0, 0⟩
  | .mredw m rd rh rl => ⟨0x15, bitOfModulus m, 0, bitsOfWreg rd, bitsOfWreg rh, bitsOfWreg rl, 0⟩
  | .montmul m rd ra rb => ⟨0x20, bitOfModulus m, 0, bitsOfWreg rd, bitsOfWreg ra, bitsOfWreg rb, 0⟩
  | .tomont m rd ra => ⟨0x21, bitOfModulus m, 0, bitsOfWreg rd, bitsOfWreg ra, 0, 0⟩
  | .frommont m rd ra => ⟨0x22, bitOfModulus m, 0, bitsOfWreg rd, bitsOfWreg ra, 0, 0⟩
  | .mmul m rd ra rb => ⟨0x23, bitOfModulus m, 0, bitsOfWreg rd, bitsOfWreg ra, bitsOfWreg rb, 0⟩
  | .msqr m rd ra => ⟨0x24, bitOfModulus m, 0, bitsOfWreg rd, bitsOfWreg ra, 0, 0⟩
  | .mpow m rd rb re => ⟨0x25, bitOfModulus m, 0, bitsOfWreg rd, bitsOfWreg rb, bitsOfWreg re, 0⟩
  | .minv m rd ra => ⟨0x30, bitOfModulus m, 0, bitsOfWreg rd, bitsOfWreg ra, 0, 0⟩
  | .msqrt rd ra => ⟨0x31, 0, 0, bitsOfWreg rd, bitsOfWreg ra, 0, 0⟩
  | .pinf pd => ⟨0x40, 0, 0, pfieldOfPreg pd, 0, 0, 0⟩
  | .pgen pd => ⟨0x41, 0, 0, pfieldOfPreg pd, 0, 0, 0⟩
  | .pmov pd ps => ⟨0x42, 0, 0, pfieldOfPreg pd, pfieldOfPreg ps, 0, 0⟩
  | .plda pd wx wy => ⟨0x43, 0, 0, pfieldOfPreg pd, bitsOfWreg wx, bitsOfWreg wy, 0⟩
  | .plift pd wx odd => ⟨0x44, 0, 0, pfieldOfPreg pd, bitsOfWreg wx, 0, immOfBool odd⟩
  | .pneg pd ps => ⟨0x45, 0, 0, pfieldOfPreg pd, pfieldOfPreg ps, 0, 0⟩
  | .padd pd pa pb => ⟨0x46, 0, 0, pfieldOfPreg pd, pfieldOfPreg pa, pfieldOfPreg pb, 0⟩
  | .pdbl pd pa => ⟨0x47, 0, 0, pfieldOfPreg pd, pfieldOfPreg pa, 0, 0⟩
  | .peq pa pb => ⟨0x48, 0, 0, 0, pfieldOfPreg pa, pfieldOfPreg pb, 0⟩
  | .ptst ps => ⟨0x49, 0, 0, 0, pfieldOfPreg ps, 0, 0⟩
  | .paff wx wy ps => ⟨0x4A, 0, 0, bitsOfWreg wx, pfieldOfPreg ps, bitsOfWreg wy, 0⟩
  | .precomp w => ⟨0x50, 0, 0, 0, 0, 0, w⟩
  | .pmulg pd wk => ⟨0x51, 0, 0, pfieldOfPreg pd, bitsOfWreg wk, 0, 0⟩
  | .pmul pd pq wk => ⟨0x52, 0, 0, pfieldOfPreg pd, pfieldOfPreg pq, bitsOfWreg wk, 0⟩
  | .pmul2 pd wk wl pq => ⟨0x53, 0, 0, pfieldOfPreg pd, bitsOfWreg wk, bitsOfWreg wl, 0#5 ++ bitsOfPreg pq⟩
  | .ninit e we wd wh => ⟨0x60, 0, 0, bitsOfWreg we, bitsOfWreg wd, bitsOfWreg wh, immOfBool e⟩
  | .ngen wk => ⟨0x61, 0, 0, bitsOfWreg wk, 0, 0, 0⟩

/-- The word of a command. -/
def encode (i : Instr) : Bus := (encodeFields i).join

/-- The host's question: the instruction this decoder reads from the `nbits` low bits of `w` (the bits above are 0), laid out as
the hardware receives it, one 32-bit number. -/
def decodeTableWord (nbits w : Nat) : Option Instr :=
  match decode (BitVec.ofNat 32 (w % 2 ^ nbits)) with
  | .ok i => some i
  | .error _ => none

end Sys2Proof
end

