-- ==== Sys2Proof/Machine/State.lean ====
section
/-! DEFINITION. The state of the block (spec/10_state.md R20 to R47), the events of its environment (spec/20_memory.md R61, R80;
spec/70_reset_and_hazards.md R340), and how a step can stop. State is flat plain data. -/

namespace Sys2Proof.Machine

/-- A point register: Jacobian X, Y, Z (R23, R24). -/
structure Triple where
  x : Word
  y : Word
  z : Word
deriving DecidableEq, Repr

/-- The error codes of STATUS.ERRCODE (60_exceptions R300). Codes 0x0B to 0xFF are never produced. -/
inductive ErrCode where
  | noError
  | illegalCmd
  | fieldOverflow
  | scalarOverflow
  | invalidFieldElement
  | invalidPoint
  | pointAtInfinity
  | invalidPrivateKey
  | nonceState
  | busyViolation
  | cmdOverrun
deriving DecidableEq, Repr

/-- TBL_W, the window width of the G table: 0, 4 or 8 (R40). -/
inductive TblWidth where
  | none
  | w4
  | w8
deriving DecidableEq, Repr

/-- The shape of one bus transaction: its byte offset in the window, how many bytes wide it is, and its byte strobes
(20_memory R61, R62). -/
structure BusAccess where
  off    : BitVec 12
  size   : Nat
  strobe : BitVec 4
deriving DecidableEq, Repr

/-- What can happen to the block next: a host transaction, a turn of the engine, a pulse of rst_n (00_scope R9, 20_memory R80,
70_reset R340, 60_exceptions R306). -/
inductive Event where
  | read (a : BusAccess)
  | write (a : BusAccess) (v : Bus)
  | engine
  | hardReset
deriving DecidableEq, Repr

/-- Why a transaction is answered ERROR. -/
inductive BusError where
  | shape      -- not exactly 32 bits at a multiple of 4 (20_memory R62)
  | unmapped   -- an offset the register map does not list (R63)
deriving DecidableEq, Repr

/-- The block's answer to one transaction (20_memory R61): OKAY with read data, OKAY to a write, or ERROR. -/
inductive BusResp where
  | data (v : Bus)
  | ack
  | error (why : BusError)
deriving DecidableEq, Repr

/-- One HMAC request of which the environment fixes the answer; `none` is a request the hmac agent never answers
(00_scope R8, 70_reset R363; log 3). -/
structure HmacEntry where
  key    : Word
  msg    : List Byte
  answer : Option Word
deriving DecidableEq, Repr

/-- The architectural state of R20, then the model's own fields (logs 1, 3, 4 and 13). STATUS.BUSY is computed from
`pending` (R33); ID is a constant (R30). -/
structure State where
  w        : Vector Word 16
  p        : Vector Triple 8
  eq       : Bool
  lt       : Bool
  odd      : Bool
  inf      : Bool
  ie       : Bool
  done     : Bool
  err      : Bool
  errcode  : ErrCode
  errcmd   : Bus
  cmdcnt   : Bus
  lastcmd  : Bus
  tblValid : Bool
  tblW     : TblWidth
  tbl      : List (List Nat)
  ngK      : Word
  ngV      : Word
  ngReady  : Bool
  ngFirst  : Bool
  pending  : Option Bus
  ngWork   : Option (Word × Word)
  events   : List Event
  hmac     : List HmacEntry
  resp     : Option BusResp
deriving DecidableEq, Repr

/-- Why the machine stops. Both are the bus ERROR that 60_exceptions R303 tells a model to treat as a fault of the host agent;
the block itself is unchanged (20_memory R61). -/
inductive Fault where
  /-- Raised by a host read or write that is not exactly 32 bits wide, full-strobe, at a multiple of 4 (R62). Safe: the host
  stops where a real host would see a failed transaction and go on. -/
  | busShape (off : BitVec 12)
  /-- Raised by a host read or write of an offset that the register map of R64 does not list (R63). Safe, as above. -/
  | busUnmapped (off : BitVec 12)
deriving DecidableEq, Repr

/-- Why the model gives no meaning. No meaning of this model refuses. -/
inductive Refusal where
  /-- Raised by exec for a command without a meaning; none is left. Safe: the model stops where the hardware goes on. -/
  | notModelled (mnemonic : String)
deriving DecidableEq, Repr

/-- (0, 0, 0), what reset and ZEROIZE write to a point register (R25). -/
def zeroTriple : Triple := ⟨0, 0, 0⟩

/-- The machine right after a hard reset (R47), with nothing placed in its environment (logs 1, 3 and 13). -/
def State.reset : State where
  w        := Vector.replicate 16 0
  p        := Vector.replicate 8 zeroTriple
  eq       := false
  lt       := false
  odd      := false
  inf      := false
  ie       := false
  done     := false
  err      := false
  errcode  := .noError
  errcmd   := 0
  cmdcnt   := 0
  lastcmd  := 0
  tblValid := false
  tblW     := .none
  tbl      := []
  ngK      := 0
  ngV      := 0
  ngReady  := false
  ngFirst  := false
  pending  := none
  ngWork   := none
  events   := []
  hmac     := []
  resp     := none

end Sys2Proof.Machine
end

