-- ==== Sys2Proof/Machine/Curve.lean ====
section
/-! DEFINITION. The curve group in Jacobian coordinates (spec/10_state.md R24 to R26; spec/44_point_engines.md R212, R213;
spec/45_scalar_multipliers.md R241). Values are exact integers, each line modulo P. -/

namespace Sys2Proof.Machine

/-- ID = (1, 1, 0), the identity as commands write it (R25). -/
def idTriple : Triple := ⟨1, 1, 0⟩

/-- G = (GX, GY, 1) (R202). -/
def genTriple : Triple := ⟨BitVec.ofNat 256 genX, BitVec.ofNat 256 genY, 1⟩

/-- A triple of residues modulo P from exact integers. -/
def tripleOf (x y z : Int) : Triple := ⟨residue fieldP x, residue fieldP y, residue fieldP z⟩

/-- `valid(X, Y, Z)` (R26): the identity, or canonical coordinates on y² = x³ + 7 in Jacobian form. -/
def validTriple (t : Triple) : Bool :=
  if t.z = 0 then true
  else
    let x := t.x.int
    let y := t.y.int
    let z := t.z.int
    decide (t.x.toNat < fieldP) && decide (t.y.toNat < fieldP) && decide (t.z.toNat < fieldP)
      && decide (modP (y * y - (x * x * x + 7 * (z * z * z * z * z * z))) = 0)

/-- JDBL (R212), dbl-2009-l for a = 0. -/
def jdbl (t : Triple) : Triple :=
  if t.z = 0 then idTriple
  else
    let x1 := t.x.int
    let y1 := t.y.int
    let z1 := t.z.int
    let a := modP (x1 * x1)
    let b := modP (y1 * y1)
    let c := modP (b * b)
    let d := modP (2 * ((x1 + b) * (x1 + b) - a - c))
    let e := modP (3 * a)
    let f := modP (e * e)
    let x3 := modP (f - 2 * d)
    let y3 := modP (e * (d - x3) - 8 * c)
    let z3 := modP (2 * y1 * z1)
    if z3 = 0 then idTriple else tripleOf x3 y3 z3

/-- JADD (R213), add-2007-bl with explicit branch selection. DEDUCED: two identities give ID (log 20). -/
def jadd (t u : Triple) : Triple :=
  if t.z = 0 then (if u.z = 0 then idTriple else u)
  else if u.z = 0 then t
  else
    let x1 := t.x.int
    let y1 := t.y.int
    let z1 := t.z.int
    let x2 := u.x.int
    let y2 := u.y.int
    let z2 := u.z.int
    let z1z1 := modP (z1 * z1)
    let z2z2 := modP (z2 * z2)
    let u1 := modP (x1 * z2z2)
    let u2 := modP (x2 * z1z1)
    let s1 := modP (y1 * z2 * z2z2)
    let s2 := modP (y2 * z1 * z1z1)
    let h := modP (u2 - u1)
    let r := modP (2 * (s2 - s1))
    if h = 0 then (if r = 0 then jdbl t else idTriple)
    else
      let i := modP (2 * h * (2 * h))
      let j := modP (h * i)
      let v := modP (u1 * i)
      let x3 := modP (r * r - j - 2 * v)
      let y3 := modP (r * (v - x3) - 2 * s1 * j)
      let z3 := modP (((z1 + z2) * (z1 + z2) - z1z1 - z2z2) * h)
      tripleOf x3 y3 z3

/-- x of `aff(X, Y, Z)`, Z ≠ 0: X · inv_P(Z)^2 mod P (R14, R211). -/
def affX (t : Triple) : Word :=
  let zi := (invMod fieldP t.z.toNat : Int)
  residue fieldP (t.x.int * (zi * zi))

/-- y of `aff(X, Y, Z)`, Z ≠ 0: Y · inv_P(Z)^3 mod P (R14, R211). -/
def affY (t : Triple) : Word :=
  let zi := (invMod fieldP t.z.toNat : Int)
  residue fieldP (t.y.int * (zi * zi * zi))

/-- NORM (R241). -/
def normTriple (t : Triple) : Triple := if t.z = 0 then idTriple else ⟨affX t, affY t, 1⟩

/-- Double-and-add over the `bits` low bits of k, most significant first. -/
def mulLoop (q : Triple) : Nat → Nat → Triple
  | 0, _ => idTriple
  | bits + 1, k =>
    let half := jdbl (mulLoop q bits (k / 2))
    if k % 2 = 1 then jadd half q else half

/-- k·Q for a 256-bit k (R14). The method is free, since every result is normalised (R241; log 10). -/
def scalarMul (k : Word) (q : Triple) : Triple := mulLoop q 256 k.toNat

/-- Group equality of two triples, by the Jacobian weights, identities first (R209). -/
def sameElement (t u : Triple) : Bool :=
  if t.z = 0 ∨ u.z = 0 then decide (t.z = 0) && decide (u.z = 0)
  else
    let z1 := t.z.int
    let z2 := u.z.int
    decide (modP (t.x.int * (z2 * z2) - u.x.int * (z1 * z1)) = 0)
      && decide (modP (t.y.int * (z2 * z2 * z2) - u.y.int * (z1 * z1 * z1)) = 0)

end Sys2Proof.Machine
end

