-- ==== Sys2Proof/Machine/Operands.lean ====
section
/-! DEFINITION. How a command reads an operand: the classes raw, canon, scalar, point and rawpoint (spec/30_encoding.md R103;
spec/60_exceptions.md R302), and its immediates (R104). A failed check is the error code the class names. -/

namespace Sys2Proof.Machine

/-- W[r] (R12), class raw. -/
def getW (s : State) (r : WReg) : Word := s.w.get r

/-- P[r] (R12), class rawpoint. -/
def getP (s : State) (r : PReg) : Triple := s.p.get r

/-- OVF(M): FIELD_OVERFLOW for P, SCALAR_OVERFLOW for N (R103). -/
def overflowCode : Modulus → ErrCode
  | .p => .fieldOverflow
  | .n => .scalarOverflow

/-- Class canon: the value must be below m(M). -/
def readCanon (s : State) (m : Modulus) (r : WReg) : Except ErrCode Word :=
  if (getW s r).toNat < modulus m then .ok (getW s r) else .error (overflowCode m)

/-- Class scalar: canon with m = N. -/
def readScalar (s : State) (r : WReg) : Except ErrCode Word :=
  if (getW s r).toNat < orderN then .ok (getW s r) else .error .scalarOverflow

/-- Class point: the triple must satisfy `valid` (R26). -/
def readPoint (s : State) (r : PReg) : Except ErrCode Triple :=
  if validTriple (getP s r) then .ok (getP s r) else .error .invalidPoint

/-- PLDA's and PLIFT's coordinate: a value ≥ P is INVALID_POINT (R204, R205). -/
def readCoord (s : State) (r : WReg) : Except ErrCode Word :=
  if (getW s r).toNat < fieldP then .ok (getW s r) else .error .invalidPoint

/-- NINIT's private key: d must be in [1, N) (R261). -/
def readPrivateKey (s : State) (r : WReg) : Except ErrCode Word :=
  if getW s r = 0 ∨ orderN ≤ (getW s r).toNat then .error .invalidPrivateKey else .ok (getW s r)

/-- CONST[idx] (R28, R132); an index that selects no constant makes the word illegal (R108). -/
def readConst (idx : BitVec 8) : Except ErrCode Word :=
  match constRom[idx.toNat]? with
  | some v => .ok v
  | none => .error .illegalCmd

/-- PRECOMP's width (R104): any value but 0, 4 and 8 makes the word illegal (R108). -/
def readWidth (w : BitVec 8) : Except ErrCode TblWidth :=
  if w = 0 then .ok .none else if w = 4 then .ok .w4 else if w = 8 then .ok .w8 else .error .illegalCmd

end Sys2Proof.Machine
end

