-- ==== Sys2Proof/Machine/Flags.lean ====
section
/-! DEFINITION. FLAGS (spec/10_state.md R29; spec/20_memory.md R65): the register as a word, the flag MCNEG selects, and what each
command family writes. -/

namespace Sys2Proof.Machine

/-- FLAGS as the host reads it: EQ, LT, ODD, INF in bits 0 to 3 (R65). -/
def flagsWord (s : State) : Bus :=
  0#28 ++ BitVec.ofBool s.inf ++ BitVec.ofBool s.odd ++ BitVec.ofBool s.lt ++ BitVec.ofBool s.eq

/-- The flag a command reads: only MCNEG does (R29, R153). -/
def flagOf (s : State) : Flag → Bool
  | .eq => s.eq
  | .lt => s.lt
  | .odd => s.odd
  | .inf => s.inf

/-- CMP: EQ, LT and ODD of two unsigned integers; INF is unchanged (R133). -/
def setCmpFlags (s : State) (a b : Word) : State :=
  { s with eq := decide (a = b), lt := decide (a.toNat < b.toNat), odd := a.parity }

/-- MSQRT with a root r: EQ and ODD (R191). -/
def setRootFlags (s : State) (r : Word) : State := { s with eq := true, odd := r.parity }

/-- EQ alone (R191 without a root, R209). -/
def setEq (s : State) (b : Bool) : State := { s with eq := b }

/-- ODD alone (R211). -/
def setOdd (s : State) (b : Bool) : State := { s with odd := b }

/-- INF alone (R201 to R210, R243 to R245). -/
def setInf (s : State) (b : Bool) : State := { s with inf := b }

/-- All four flags to 0 (R134). -/
def clearFlags (s : State) : State := { s with eq := false, lt := false, odd := false, inf := false }

end Sys2Proof.Machine
end

