-- ==== Sys2Proof/Machine/Ops.lean ====
section
/-! DEFINITION. The named operations over State: register writes, the error record, the issue and completion steps, and the two
ways a command completes (spec/10_state.md R34 to R46; spec/60_exceptions.md R301, R307; spec/70_reset_and_hazards.md R340, R341). -/

namespace Sys2Proof.Machine

/-- W[r] <- v (R12). -/
def setW (s : State) (r : WReg) (v : Word) : State := { s with w := s.w.set r.val v r.isLt }

/-- P[r] <- t, the whole triple (R12, R23). -/
def setP (s : State) (r : PReg) (t : Triple) : State := { s with p := s.p.set r.val t r.isLt }

/-- P[r] <- t; FLAGS.INF <- (t.Z == 0): how the point engines and scalar multipliers write a result (R207, R208, R243). -/
def setPInf (s : State) (r : PReg) (t : Triple) : State := setInf (setP s r t) (decide (t.z = 0))

/-- record_error(c, word) (R35): the first error since the last clear is kept. -/
def recordError (c : ErrCode) (word : Bus) (s : State) : State :=
  if s.err then s else { s with err := true, errcode := c, errcmd := word }

/-- The bookkeeping of the completion step (R45): PENDING none, DONE 1, CMDCNT + 1 modulo 2^32. BUSY falls with PENDING (R33). -/
def complete (s : State) : State :=
  { s with pending := none, ngWork := none, done := true, cmdcnt := s.cmdcnt + 1 }

/-- A command that ends well: its writes are in `s` (R45). -/
def finish (s : State) : Host.Outcome State Fault Refusal := .next (complete s)

/-- A command that raises an error (R301, R307), the block's exception entry: none of its writes, the error record, the
completion bookkeeping. There is no handler, no mode and no return (R307, R308): the host clears the record by STATUS. -/
def raise (c : ErrCode) (word : Bus) (s : State) : Host.Outcome State Fault Refusal :=
  .next (complete (recordError c word s))

/-- A command that goes on waiting: the step changes nothing, BUSY stays 1 (R45, R363). -/
def wait (s : State) : Host.Outcome State Fault Refusal := .next s

/-- The completion step of command `i` with the outcome of its rule: every write at once, or the error (R45, R301). The command
word that ERRCMD records is `i`'s own (R36). -/
def commit (i : Instr) (s : State) (r : Except ErrCode State) : Host.Outcome State Fault Refusal :=
  match r with
  | .ok t => finish t
  | .error c => raise c (encode i) s

/-- The issue step of word c (R46). It does not decode c. -/
def issue (c : Bus) (s : State) : State :=
  { s with lastcmd := c, pending := some c, done := false, ngWork := none }

/-- Every piece of the block's state at its R47 value; the environment's fields stay (R340, R341, R343). -/
def resetBlock (s : State) : State :=
  { State.reset with events := s.events, hmac := s.hmac, resp := s.resp }

/-- An HMAC request: the answer the environment fixed for it, or else the function of R8. `none` is an answer that never
comes (R363). -/
def hmacAnswer (s : State) (key : Word) (msg : List Byte) : Option Word :=
  match s.hmac.find? fun e => decide (e.key = key ∧ e.msg = msg) with
  | some e => e.answer
  | none => some (Config.hmac key msg)

/-- The width TBL_W stands for. -/
def widthNat : TblWidth → Nat
  | .none => 0
  | .w4 => 4
  | .w8 => 8

/-- The entries of the G table of width w: row i, column j - 1 holds j·2^(w·i), the multiple of G that T_i[j] is (R40, R240).
The stored form is not architectural (log 9). -/
def tableEntries (w : TblWidth) : List (List Nat) :=
  match w with
  | .none => []
  | _ =>
    (List.range (windowCount (widthNat w))).map fun i =>
      (List.range (2 ^ widthNat w - 1)).map fun j => (j + 1) * 2 ^ (widthNat w * i)

/-- The group element a table entry stands for. -/
def tableElement (k : Nat) : Triple := normTriple (scalarMul (BitVec.ofNat 256 k) genTriple)

/-- BUILD(w), or dropping the table for width 0 (R240, R242). -/
def setTable (w : TblWidth) (s : State) : State :=
  { s with tblValid := decide (w ≠ .none), tblW := w, tbl := tableEntries w }

/-- irq (R320). -/
def irq (s : State) : Bool := s.ie && (s.done || s.err)

/-- STATUS.BUSY (R33). -/
def busy (s : State) : Bool := s.pending.isSome

end Sys2Proof.Machine
end

