-- ==== Sys2Proof/Machine/Bus.lean ====
section
/-! DEFINITION. The register window as the host's bus sees it (spec/20_memory.md R60 to R71; spec/10_state.md R30 to R39): which
register an offset selects, reads without side effects, writes, and the discipline while a command is in flight. -/

namespace Sys2Proof.Machine

/-- A coordinate of a point register, in slot order (R67). -/
inductive Coord where
  | x
  | y
  | z
deriving DecidableEq, Repr

/-- The 32-bit registers of the map (R64); `j` numbers the eight words of a 256-bit value, most significant first (R66). -/
inductive Reg where
  | id
  | ctrl
  | status
  | flags
  | cmd
  | cmdcnt
  | lastcmd
  | errcmd
  | w (i : WReg) (j : Fin 8)
  | p (k : PReg) (c : Coord) (j : Fin 8)
deriving DecidableEq, Repr

/-- Word j of W[i] is at 0x100 + 32·i + 4·j (R66). -/
def wOffset (i : WReg) (j : Fin 8) : BitVec 12 := BitVec.ofNat 12 (0x100 + 32 * i.val + 4 * j.val)

/-- Where a coordinate starts in its slot: X at 0, Y at 32, Z at 64 (R67). -/
def coordBase : Coord → Nat
  | .x => 0
  | .y => 32
  | .z => 64

/-- Word j of a coordinate of P[k] is at 0x400 + 128·k + the coordinate's place + 4·j (R67). -/
def pOffset (k : PReg) (c : Coord) (j : Fin 8) : BitVec 12 :=
  BitVec.ofNat 12 (0x400 + 128 * k.val + coordBase c + 4 * j.val)

/-- The offset of a register (R64, R66, R67). -/
def regOffset : Reg → BitVec 12
  | .id => 0x000
  | .ctrl => 0x004
  | .status => 0x008
  | .flags => 0x00C
  | .cmd => 0x010
  | .cmdcnt => 0x014
  | .lastcmd => 0x018
  | .errcmd => 0x01C
  | .w i j => wOffset i j
  | .p k c j => pOffset k c j

/-- The coordinate a slot offset below 96 lies in; 96 to 127 is padding (R67). -/
def coordAt (slot : Nat) : Option Coord :=
  if slot < 32 then some .x else if slot < 64 then some .y else if slot < 96 then some .z else none

/-- The register a multiple of 4 selects, or none for a reserved range or slot padding (R63, R64). -/
def regAt (off : BitVec 12) : Option Reg :=
  let a := off.toNat
  let j : Fin 8 := Fin.ofNat 8 (a / 4)
  if a % 4 ≠ 0 then none
  else if a < 0x020 then
    match a / 4 with
    | 0 => some .id
    | 1 => some .ctrl
    | 2 => some .status
    | 3 => some .flags
    | 4 => some .cmd
    | 5 => some .cmdcnt
    | 6 => some .lastcmd
    | _ => some .errcmd
  else if a < 0x100 then none
  else if a < 0x300 then some (.w (Fin.ofNat 16 ((a - 0x100) / 32)) j)
  else if a < 0x400 then none
  else if a < 0x800 then
    match coordAt (a % 128) with
    | some c => some (.p (Fin.ofNat 8 ((a - 0x400) / 128)) c j)
    | none => none
  else none

/-- Word j of a 256-bit value, bits 255 - 32·j down to 224 - 32·j (R66). -/
def laneOf (v : Word) (j : Fin 8) : Bus := v.extractLsb' (224 - 32 * j.val) 32

/-- `v` with word j replaced and the other 224 bits unchanged (R66). -/
def setLane (v : Word) (j : Fin 8) (x : Bus) : Word :=
  (v &&& ~~~((0xFFFFFFFF : Word) <<< (224 - 32 * j.val))) ||| (x.setWidth 256 <<< (224 - 32 * j.val))

/-- A coordinate of a triple. -/
def coordOf (t : Triple) : Coord → Word
  | .x => t.x
  | .y => t.y
  | .z => t.z

/-- A triple with one coordinate replaced. -/
def setCoord (t : Triple) (c : Coord) (v : Word) : Triple :=
  match c with
  | .x => { t with x := v }
  | .y => { t with y := v }
  | .z => { t with z := v }

/-- The numbers of the error codes (60_exceptions R300). -/
def errBits : ErrCode → BitVec 8
  | .noError => 0x00
  | .illegalCmd => 0x01
  | .fieldOverflow => 0x02
  | .scalarOverflow => 0x03
  | .invalidFieldElement => 0x04
  | .invalidPoint => 0x05
  | .pointAtInfinity => 0x06
  | .invalidPrivateKey => 0x07
  | .nonceState => 0x08
  | .busyViolation => 0x09
  | .cmdOverrun => 0x0A

/-- CTRL as the host reads it: IE in bit 0, SRST and the reserved bits 0 (R31). -/
def ctrlWord (s : State) : Bus := 0#31 ++ BitVec.ofBool s.ie

/-- STATUS as the host reads it (R32): ERRCODE in 23:16, TBL_W in 11:8, NG_READY 4, TBL_VALID 3, ERR 2, DONE 1, BUSY 0; the
reserved bits read 0. -/
def statusWord (s : State) : Bus :=
  0#8 ++ errBits s.errcode ++ 0#4 ++ BitVec.ofNat 4 (widthNat s.tblW) ++ 0#3 ++ BitVec.ofBool s.ngReady
    ++ BitVec.ofBool s.tblValid ++ BitVec.ofBool s.err ++ BitVec.ofBool s.done ++ BitVec.ofBool (busy s)

/-- What a read of a register returns (R64). No read has a side effect (R70); NG_K, NG_V, NG_FIRST and TBL have no address
(46_nonce R264, 10_state R40). -/
def readReg (s : State) : Reg → Bus
  | .id => idValue
  | .ctrl => ctrlWord s
  | .status => statusWord s
  | .flags => flagsWord s
  | .cmd => 0
  | .cmdcnt => s.cmdcnt
  | .lastcmd => s.lastcmd
  | .errcmd => s.errcmd
  | .w i j => laneOf (getW s i) j
  | .p k c j => laneOf (coordOf (getP s k) c) j

/-- A write of CTRL: bit 1 performs a soft reset, whatever bit 0 holds; else bit 0 sets IE (R31, R341). -/
def writeCtrl (v : Bus) (s : State) : State :=
  if v.getLsbD 1 then resetBlock s else { s with ie := v.getLsbD 0 }

/-- A 1 in bit 1 clears DONE (R34). -/
def clearDone (b : Bool) (s : State) : State := if b then { s with done := false } else s

/-- A 1 in bit 2 clears ERR, ERRCODE and ERRCMD (R35): the block's return from an error (60_exceptions R308). -/
def clearErr (b : Bool) (s : State) : State :=
  if b then { s with err := false, errcode := .noError, errcmd := 0 } else s

/-- A write of STATUS: write-1-to-clear DONE and ERR, every other bit ignored (R32). -/
def writeStatus (v : Bus) (s : State) : State := clearErr (v.getLsbD 2) (clearDone (v.getLsbD 1) s)

/-- A write of CMD: issue when idle, else dropped with CMD_OVERRUN (R37, R69). -/
def writeCmd (c : Bus) (s : State) : State :=
  if busy s then recordError .cmdOverrun c s else issue c s

/-- A write of a W or P word at `off`: `store` when idle, else dropped with BUSY_VIOLATION (R69). -/
def writeData (off : BitVec 12) (store : State → State) (s : State) : State :=
  if busy s then recordError .busyViolation (off.setWidth 32) s else store s

/-- What a write of v to a register does (R64); writes to read-only registers are ignored, OKAY. -/
def writeReg (r : Reg) (v : Bus) (s : State) : State :=
  match r with
  | .id => s
  | .ctrl => writeCtrl v s
  | .status => writeStatus v s
  | .flags => s
  | .cmd => writeCmd v s
  | .cmdcnt => s
  | .lastcmd => s
  | .errcmd => s
  | .w i j => writeData (wOffset i j) (fun t => setW t i (setLane (getW t i) j v)) s
  | .p k c j =>
      writeData (pOffset k c j) (fun t => setP t k (setCoord (getP t k) c (setLane (coordOf (getP t k) c) j v))) s

/-- R62: exactly 32 bits wide, at a multiple of 4. -/
def accessShaped (a : BusAccess) : Bool := a.size == 4 && a.off.toNat % 4 == 0

/-- The block's answer to a host read (R61 to R65). -/
def busRead (a : BusAccess) (s : State) : BusResp :=
  if accessShaped a = false then .error .shape
  else match regAt a.off with
    | none => .error .unmapped
    | some r => .data (readReg s r)

/-- The block's answer to a host write, and its state after it (R61 to R71). An ERROR changes nothing; a write with a partial
byte strobe is an ERROR (R62). -/
def busWrite (a : BusAccess) (v : Bus) (s : State) : BusResp × State :=
  if (accessShaped a && a.strobe == 0xF) = false then (.error .shape, s)
  else match regAt a.off with
    | none => (.error .unmapped, s)
    | some r => (.ack, writeReg r v s)

/-- The 32 bits a bus answer carries: an ERROR read returns 0 (R61). -/
def respData : BusResp → Bus
  | .data v => v
  | .ack => 0
  | .error _ => 0

/-- A bus ERROR as the fault of the host agent (60_exceptions R303). -/
def busFault (off : BitVec 12) : BusError → Fault
  | .shape => .busShape off
  | .unmapped => .busUnmapped off

/-- A host transaction's answer reaches the host: OKAY is left in `resp`, ERROR is the host's fault (R303). -/
def answer (off : BitVec 12) (r : BusResp) (s : State) : Host.Outcome State Fault Refusal :=
  match r with
  | .error why => .fault (busFault off why)
  | ok => .next { s with resp := some ok }

/-- One host read (R9, R61). -/
def hostRead (a : BusAccess) (s : State) : Host.Outcome State Fault Refusal := answer a.off (busRead a s) s

/-- One host write (R9, R61). -/
def hostWrite (a : BusAccess) (v : Bus) (s : State) : Host.Outcome State Fault Refusal :=
  answer a.off (busWrite a v s).1 (busWrite a v s).2

/-- The transaction MemRead(off, 4) or MemWrite(off, 4, v) of the rules' pseudocode (R12, R60): 32 bits, all strobes. -/
def word32 (off : BitVec 12) : BusAccess := ⟨off, 4, 0xF⟩

end Sys2Proof.Machine
end

