-- ==== Sys2Proof/Machine/AddSub.lean ====
section
/-! DEFINITION. modular_adder_subtractor: MADD, MSUB, MNEG, MCNEG, MRED, MREDW (spec/41_modular_add_sub.md). -/

namespace Sys2Proof.Machine

/-- MADD (R150): (a + b) mod m. -/
def execMadd (m : Modulus) (rd ra rb : WReg) (s : State) : Host.Outcome State Fault Refusal :=
  commit (.madd m rd ra rb) s (do
    let a ← readCanon s m ra
    let b ← readCanon s m rb
    return setW s rd (residue (modulus m) (a.int + b.int)))

/-- MSUB (R151): (a - b) mod m. -/
def execMsub (m : Modulus) (rd ra rb : WReg) (s : State) : Host.Outcome State Fault Refusal :=
  commit (.msub m rd ra rb) s (do
    let a ← readCanon s m ra
    let b ← readCanon s m rb
    return setW s rd (residue (modulus m) (a.int - b.int)))

/-- MNEG (R152): (m - a) mod m. -/
def execMneg (m : Modulus) (rd ra : WReg) (s : State) : Host.Outcome State Fault Refusal :=
  commit (.mneg m rd ra) s (do
    let a ← readCanon s m ra
    return setW s rd (residue (modulus m) ((modulus m : Int) - a.int)))

/-- MCNEG (R153): negation when the selected flag, inverted by IMM8[2], is 1; RD is always written. -/
def execMcneg (m : Modulus) (rd ra : WReg) (flag : Flag) (inv : Bool) (s : State) :
    Host.Outcome State Fault Refusal :=
  commit (.mcneg m rd ra flag inv) s (do
    let a ← readCanon s m ra
    return setW s rd (if (flagOf s flag ^^ inv) then residue (modulus m) ((modulus m : Int) - a.int) else a))

/-- MRED (R154): a raw 256-bit value modulo m. -/
def execMred (m : Modulus) (rd ra : WReg) (s : State) : Host.Outcome State Fault Refusal :=
  commit (.mred m rd ra) s (.ok (setW s rd (residue (modulus m) (getW s ra).int)))

/-- MREDW (R155): a raw 512-bit value, high word first, modulo m. -/
def execMredw (m : Modulus) (rd rhi rlo : WReg) (s : State) : Host.Outcome State Fault Refusal :=
  commit (.mredw m rd rhi rlo) s
    (.ok (setW s rd (residue (modulus m) ((getW s rhi).int * (montR : Int) + (getW s rlo).int))))

end Sys2Proof.Machine
end

