-- ==== Sys2Proof/Machine/Control.lean ====
section
/-! DEFINITION. The sequencer commands NOP, MOV, LDC, CMP and ZEROIZE (spec/40_control.md). -/

namespace Sys2Proof.Machine

/-- NOP (R130): only the completion bookkeeping. -/
def execNop (s : State) : Host.Outcome State Fault Refusal := commit .nop s (.ok s)

/-- MOV (R131): W[RD] <- W[RS1], unchecked. -/
def execMov (rd rs : WReg) (s : State) : Host.Outcome State Fault Refusal :=
  commit (.mov rd rs) s (.ok (setW s rd (getW s rs)))

/-- LDC (R132): W[RD] <- CONST[IMM8]. -/
def execLdc (rd : WReg) (idx : BitVec 8) (s : State) : Host.Outcome State Fault Refusal :=
  commit (.ldc rd idx) s (do
    let v ← readConst idx
    return setW s rd v)

/-- CMP (R133): EQ, LT and ODD of two raw words as unsigned integers. -/
def execCmp (ra rb : WReg) (s : State) : Host.Outcome State Fault Refusal :=
  commit (.cmp ra rb) s (.ok (setCmpFlags s (getW s ra) (getW s rb)))

/-- What ZEROIZE clears (R134): every word and point register, FLAGS and the nonce state. -/
def zeroizeState (s : State) : State :=
  { clearFlags s with
      w := Vector.replicate 16 0
      p := Vector.replicate 8 zeroTriple
      ngK := 0
      ngV := 0
      ngReady := false
      ngFirst := false }

/-- ZEROIZE (R134): the G table, CTRL, the error record, CMDCNT and LASTCMD stay. -/
def execZeroize (s : State) : Host.Outcome State Fault Refusal := commit .zeroize s (.ok (zeroizeState s))

end Sys2Proof.Machine
end

