-- ==== Sys2Proof/Machine/Inverter.lean ====
section
/-! DEFINITION. field_inverter: MINV, MSQRT (spec/43_field_inverter.md). -/

namespace Sys2Proof.Machine

/-- MINV (R190): a^(m - 2) mod m; the inverse of 0 is INVALID_FIELD_ELEMENT, checked after OVF(M). -/
def execMinv (m : Modulus) (rd ra : WReg) (s : State) : Host.Outcome State Fault Refusal :=
  commit (.minv m rd ra) s (do
    let a ← readCanon s m ra
    if a = 0 then .error .invalidFieldElement
    else return setW s rd (BitVec.ofNat 256 (invMod (modulus m) a.toNat)))

/-- MSQRT (R191): the root a^((P + 1)/4) mod P if it squares to a; with no root only EQ <- 0. -/
def execMsqrt (rd ra : WReg) (s : State) : Host.Outcome State Fault Refusal :=
  commit (.msqrt rd ra) s (do
    let a ← readCanon s .p ra
    let r : Word := BitVec.ofNat 256 (sqrtCandidate a.toNat)
    if modP (r.int * r.int) = a.int then return setRootFlags (setW s rd r) r
    else return setEq s false)

end Sys2Proof.Machine
end

