-- ==== Sys2Proof/Machine/Montgomery.lean ====
section
/-! DEFINITION. montgomery_multiplier: MONTMUL, TOMONT, FROMMONT, MMUL, MSQR, MPOW (spec/42_montgomery_multiplier.md). -/

namespace Sys2Proof.Machine

/-- MONTMUL (R170): a·b·R^-1 mod m. -/
def execMontmul (m : Modulus) (rd ra rb : WReg) (s : State) : Host.Outcome State Fault Refusal :=
  commit (.montmul m rd ra rb) s (do
    let a ← readCanon s m ra
    let b ← readCanon s m rb
    return setW s rd (residue (modulus m) (a.int * b.int * (montRinv m : Int))))

/-- TOMONT (R171): a·R mod m. -/
def execTomont (m : Modulus) (rd ra : WReg) (s : State) : Host.Outcome State Fault Refusal :=
  commit (.tomont m rd ra) s (do
    let a ← readCanon s m ra
    return setW s rd (residue (modulus m) (a.int * (montR : Int))))

/-- FROMMONT (R172): a·R^-1 mod m. -/
def execFrommont (m : Modulus) (rd ra : WReg) (s : State) : Host.Outcome State Fault Refusal :=
  commit (.frommont m rd ra) s (do
    let a ← readCanon s m ra
    return setW s rd (residue (modulus m) (a.int * (montRinv m : Int))))

/-- MMUL (R173): a·b mod m. -/
def execMmul (m : Modulus) (rd ra rb : WReg) (s : State) : Host.Outcome State Fault Refusal :=
  commit (.mmul m rd ra rb) s (do
    let a ← readCanon s m ra
    let b ← readCanon s m rb
    return setW s rd (residue (modulus m) (a.int * b.int)))

/-- MSQR (R174): a·a mod m. -/
def execMsqr (m : Modulus) (rd ra : WReg) (s : State) : Host.Outcome State Fault Refusal :=
  commit (.msqr m rd ra) s (do
    let a ← readCanon s m ra
    return setW s rd (residue (modulus m) (a.int * a.int)))

/-- MPOW (R175): a^e mod m, the exponent raw. -/
def execMpow (m : Modulus) (rd rbase rexp : WReg) (s : State) : Host.Outcome State Fault Refusal :=
  commit (.mpow m rd rbase rexp) s (do
    let a ← readCanon s m rbase
    return setW s rd (BitVec.ofNat 256 (powMod (modulus m) a.toNat (getW s rexp).toNat)))

end Sys2Proof.Machine
end

