-- ==== Sys2Proof/Machine/Nonce.lean ====
section
/-! DEFINITION. ecdsa_nonce_generator: NINIT, NGEN (spec/46_nonce_generator.md), RFC 6979 §3.2 b to h with HMAC calls to the external
agent. `none` is an HMAC call without an answer: the command waits (spec/70_reset_and_hazards.md R363). -/

namespace Sys2Proof.Machine

/-- V = 0x01 repeated 32 times (R261, 3.2 b). -/
def initialV : Word := 0x0101010101010101010101010101010101010101010101010101010101010101

/-- `x || hb || e` of NINIT (R260, R261): the key, the hash reduced modulo N, and the 32 bytes of extra entropy if any. -/
def seedBytes (d h : Word) (e : Option Word) : List Byte :=
  be32 d ++ be32 (residue orderN h.int) ++ (match e with | some v => be32 v | none => [])

/-- NINIT's four HMAC calls (R261, 3.2 d to g): the (K, V) they give. -/
def ninitCalls (s : State) (seed : List Byte) : Option (Word × Word) := do
  let k1 ← hmacAnswer s 0 (be32 initialV ++ [0x00] ++ seed)
  let v1 ← hmacAnswer s k1 (be32 initialV)
  let k2 ← hmacAnswer s k1 (be32 v1 ++ [0x01] ++ seed)
  let v2 ← hmacAnswer s k2 (be32 v1)
  return (k2, v2)

/-- NINIT (R261). With E = 0 a non-zero RD makes the word illegal (R106 item 6). -/
def execNinit (extra : Bool) (we wd wh : WReg) (s : State) : Host.Outcome State Fault Refusal :=
  if extra = false ∧ we ≠ 0 then raise .illegalCmd (encode (.ninit extra we wd wh)) s
  else
    match readPrivateKey s wd with
    | .error c => raise c (encode (.ninit extra we wd wh)) s
    | .ok d =>
      match ninitCalls s (seedBytes d (getW s wh) (if extra then some (getW s we) else none)) with
      | none => wait s
      | some (k, v) => finish { s with ngK := k, ngV := v, ngReady := true, ngFirst := true }

/-- The update after a refused candidate (R262, 3.2 h.3): K = HMAC(K, V || 0x00), V = HMAC(K, V). -/
def refuseCandidate (s : State) (k v : Word) : Option (Word × Word) := do
  let k' ← hmacAnswer s k (be32 v ++ [0x00])
  let v' ← hmacAnswer s k' (be32 v)
  return (k', v')

/-- The (K, V) with which NGEN's loop goes on: where the last engine step left it (log 4), or where R262 starts it. -/
def ngenStart (s : State) : Option (Word × Word) :=
  match s.ngWork with
  | some kv => some kv
  | none => if s.ngFirst then some (s.ngK, s.ngV) else refuseCandidate s s.ngK s.ngV

/-- NGEN (R262). One engine step tries one candidate: in [1, N) it commits, else the loop goes on at the next engine step, with
no bound (log 4). -/
def execNgen (wk : WReg) (s : State) : Host.Outcome State Fault Refusal :=
  if s.ngReady = false then raise .nonceState (encode (.ngen wk)) s
  else
    match ngenStart s with
    | none => wait s
    | some (k, v) =>
      match hmacAnswer s k (be32 v) with
      | none => wait s
      | some c =>
        if c ≠ 0 ∧ c.toNat < orderN then
          finish { setW s wk c with ngK := k, ngV := c, ngFirst := false }
        else
          match refuseCandidate s k c with
          | none => wait s
          | some kv => .next { s with ngWork := some kv }

end Sys2Proof.Machine
end

