-- ==== Sys2Proof/Machine/Points.lean ====
section
/-! DEFINITION. The point engines: PINF, PGEN, PMOV, PLDA, PLIFT, PNEG, PADD, PDBL, PEQ, PTST, PAFF (spec/44_point_engines.md).
Point sources are checked in field order (R200). -/

namespace Sys2Proof.Machine

/-- PINF (R201): P[RD] <- ID; INF <- 1. -/
def execPinf (pd : PReg) (s : State) : Host.Outcome State Fault Refusal :=
  commit (.pinf pd) s (.ok (setInf (setP s pd idTriple) true))

/-- PGEN (R202): P[RD] <- (GX, GY, 1); INF <- 0. -/
def execPgen (pd : PReg) (s : State) : Host.Outcome State Fault Refusal :=
  commit (.pgen pd) s (.ok (setInf (setP s pd genTriple) false))

/-- PMOV (R203): the exact triple, unchecked; no flag. -/
def execPmov (pd ps : PReg) (s : State) : Host.Outcome State Fault Refusal :=
  commit (.pmov pd ps) s (.ok (setP s pd (getP s ps)))

/-- PLDA (R204): an affine point, checked against the curve. -/
def execPlda (pd : PReg) (wx wy : WReg) (s : State) : Host.Outcome State Fault Refusal :=
  commit (.plda pd wx wy) s (do
    let x ← readCoord s wx
    let y ← readCoord s wy
    if modP (y.int * y.int - x.int * x.int * x.int - 7) ≠ 0 then .error .invalidPoint
    else return setInf (setP s pd ⟨x, y, 1⟩) false)

/-- PLIFT (R205): the point with this x whose y has the parity IMM8[0]. -/
def execPlift (pd : PReg) (wx : WReg) (par : Bool) (s : State) : Host.Outcome State Fault Refusal :=
  commit (.plift pd wx par) s (do
    let x ← readCoord s wx
    let c := modP (x.int * x.int * x.int + 7)
    let r : Word := BitVec.ofNat 256 (sqrtCandidate c.toNat)
    if modP (r.int * r.int) ≠ c then .error .invalidPoint
    else
      let y : Word := if r.parity = par then r else residue fieldP ((fieldP : Int) - r.int)
      return setOdd (setInf (setP s pd ⟨x, y, 1⟩) false) y.parity)

/-- PNEG (R206): (X, -Y mod P, Z); the identity becomes ID. -/
def execPneg (pd ps : PReg) (s : State) : Host.Outcome State Fault Refusal :=
  commit (.pneg pd ps) s (do
    let t ← readPoint s ps
    if t.z = 0 then return setInf (setP s pd idTriple) true
    else return setInf (setP s pd ⟨t.x, residue fieldP ((fieldP : Int) - t.y.int), t.z⟩) false)

/-- PADD (R207): JADD of two valid triples. -/
def execPadd (pd pa pb : PReg) (s : State) : Host.Outcome State Fault Refusal :=
  commit (.padd pd pa pb) s (do
    let a ← readPoint s pa
    let b ← readPoint s pb
    return setPInf s pd (jadd a b))

/-- PDBL (R208): JDBL of a valid triple. -/
def execPdbl (pd pa : PReg) (s : State) : Host.Outcome State Fault Refusal :=
  commit (.pdbl pd pa) s (do
    let a ← readPoint s pa
    return setPInf s pd (jdbl a))

/-- PEQ (R209): EQ <- equality as group elements. -/
def execPeq (pa pb : PReg) (s : State) : Host.Outcome State Fault Refusal :=
  commit (.peq pa pb) s (do
    let a ← readPoint s pa
    let b ← readPoint s pb
    return setEq s (sameElement a b))

/-- PTST (R210): INVALID_POINT is the answer "not valid"; else INF <- (Z == 0). -/
def execPtst (ps : PReg) (s : State) : Host.Outcome State Fault Refusal :=
  commit (.ptst ps) s (do
    let t ← readPoint s ps
    return setInf s (decide (t.z = 0)))

/-- PAFF (R211): x, then y, into two word registers (y stays when they are one); ODD <- y[0]; the identity is
POINT_AT_INFINITY. -/
def execPaff (wx wy : WReg) (ps : PReg) (s : State) : Host.Outcome State Fault Refusal :=
  commit (.paff wx wy ps) s (do
    let t ← readPoint s ps
    if t.z = 0 then .error .pointAtInfinity
    else return setOdd (setW (setW s wx (affX t)) wy (affY t)) (affY t).parity)

end Sys2Proof.Machine
end

