-- ==== Sys2Proof/Machine/Scalar.lean ====
section
/-! DEFINITION. scalar_multiplier_windowed and dual_scalar_multiplier: PRECOMP, PMULG, PMUL, PMUL2 (spec/45_scalar_multipliers.md). -/

namespace Sys2Proof.Machine

/-- PRECOMP (R242): build the G table of width 4 or 8, or drop it for width 0. -/
def execPrecomp (width : BitVec 8) (s : State) : Host.Outcome State Fault Refusal :=
  commit (.precomp width) s (do
    let w ← readWidth width
    return setTable w s)

/-- PMULG's lazy build with the default width 8 (R243). -/
def lazyTable (s : State) : State := if s.tblValid then s else setTable .w8 s

/-- PMULG (R243): NORM(k·G). -/
def execPmulg (pd : PReg) (wk : WReg) (s : State) : Host.Outcome State Fault Refusal :=
  commit (.pmulg pd wk) s (do
    let k ← readScalar s wk
    return setPInf (lazyTable s) pd (normTriple (scalarMul k genTriple)))

/-- PMUL (R244): NORM(k·Q), the point checked before the scalar. -/
def execPmul (pd pq : PReg) (wk : WReg) (s : State) : Host.Outcome State Fault Refusal :=
  commit (.pmul pd pq wk) s (do
    let q ← readPoint s pq
    let k ← readScalar s wk
    return setPInf s pd (normTriple (scalarMul k q)))

/-- PMUL2 (R245): NORM(k·G + l·Q), both scalars checked before the point. -/
def execPmul2 (pd : PReg) (wk wl : WReg) (pq : PReg) (s : State) : Host.Outcome State Fault Refusal :=
  commit (.pmul2 pd wk wl pq) s (do
    let k ← readScalar s wk
    let l ← readScalar s wl
    let q ← readPoint s pq
    return setPInf s pd (normTriple (jadd (scalarMul k genTriple) (scalarMul l q))))

/-- One step of R247's fixed-window loop: window i of k selects j = k[w·i + w - 1 : w·i], and T_i[j] (ID for j = 0) is added.
Informative in the spec, and used by no command here: a table of multiples read as R247 reads it. -/
def windowStep (tbl : List (List Nat)) (w : Nat) (k : Word) (acc : Triple) (i : Nat) : Triple :=
  let j := k.toNat / 2 ^ (w * i) % 2 ^ w
  jadd acc (if j = 0 then idTriple else tableElement ((tbl.getD i []).getD (j - 1) 0))

/-- R247's reference method for k·G over a table of width w. -/
def windowedMul (w : TblWidth) (k : Word) : Triple :=
  normTriple ((List.range (windowCount (widthNat w))).foldl (windowStep (tableEntries w) (widthNat w) k) idTriple)

end Sys2Proof.Machine
end

