-- ==== Sys2Proof/Machine/Dispatch.lean ====
section
/-! DEFINITION. One arm per command: Rule_mn of spec/30_encoding.md R109, with the completion step of spec/10_state.md R45. -/

namespace Sys2Proof.Machine

def exec (i : Instr) (s : State) : Host.Outcome State Fault Refusal :=
  match i with
  | .nop => Sys2Proof.Machine.execNop s
  | .mov rd rs => Sys2Proof.Machine.execMov rd rs s
  | .ldc rd idx => Sys2Proof.Machine.execLdc rd idx s
  | .cmp ra rb => Sys2Proof.Machine.execCmp ra rb s
  | .zeroize => Sys2Proof.Machine.execZeroize s
  | .madd m rd ra rb => Sys2Proof.Machine.execMadd m rd ra rb s
  | .msub m rd ra rb => Sys2Proof.Machine.execMsub m rd ra rb s
  | .mneg m rd ra => Sys2Proof.Machine.execMneg m rd ra s
  | .mcneg m rd ra flag inv => Sys2Proof.Machine.execMcneg m rd ra flag inv s
  | .mred m rd ra => Sys2Proof.Machine.execMred m rd ra s
  | .mredw m rd rhi rlo => Sys2Proof.Machine.execMredw m rd rhi rlo s
  | .montmul m rd ra rb => Sys2Proof.Machine.execMontmul m rd ra rb s
  | .tomont m rd ra => Sys2Proof.Machine.execTomont m rd ra s
  | .frommont m rd ra => Sys2Proof.Machine.execFrommont m rd ra s
  | .mmul m rd ra rb => Sys2Proof.Machine.execMmul m rd ra rb s
  | .msqr m rd ra => Sys2Proof.Machine.execMsqr m rd ra s
  | .mpow m rd rbase rexp => Sys2Proof.Machine.execMpow m rd rbase rexp s
  | .minv m rd ra => Sys2Proof.Machine.execMinv m rd ra s
  | .msqrt rd ra => Sys2Proof.Machine.execMsqrt rd ra s
  | .pinf pd => Sys2Proof.Machine.execPinf pd s
  | .pgen pd => Sys2Proof.Machine.execPgen pd s
  | .pmov pd ps => Sys2Proof.Machine.execPmov pd ps s
  | .plda pd wx wy => Sys2Proof.Machine.execPlda pd wx wy s
  | .plift pd wx par => Sys2Proof.Machine.execPlift pd wx par s
  | .pneg pd ps => Sys2Proof.Machine.execPneg pd ps s
  | .padd pd pa pb => Sys2Proof.Machine.execPadd pd pa pb s
  | .pdbl pd pa => Sys2Proof.Machine.execPdbl pd pa s
  | .peq pa pb => Sys2Proof.Machine.execPeq pa pb s
  | .ptst ps => Sys2Proof.Machine.execPtst ps s
  | .paff wx wy ps => Sys2Proof.Machine.execPaff wx wy ps s
  | .precomp width => Sys2Proof.Machine.execPrecomp width s
  | .pmulg pd wk => Sys2Proof.Machine.execPmulg pd wk s
  | .pmul pd pq wk => Sys2Proof.Machine.execPmul pd pq wk s
  | .pmul2 pd wk wl pq => Sys2Proof.Machine.execPmul2 pd wk wl pq s
  | .ninit extra we wd wh => Sys2Proof.Machine.execNinit extra we wd wh s
  | .ngen wk => Sys2Proof.Machine.execNgen wk s

end Sys2Proof.Machine
end

