-- ==== Sys2Proof/Machine/Engine.lean ====
section
/-! DEFINITION. What one step does: the engine's completion step (spec/10_state.md R45; spec/30_encoding.md R109), a host transaction
(spec/20_memory.md R74), or a hard reset (spec/70_reset_and_hazards.md R340), in the order the environment's events say
(spec/60_exceptions.md R306). -/

namespace Sys2Proof.Machine

/-- The engine's turn. A pending command is decoded and performed; an illegal word completes with ILLEGAL_CMD (R106, R109).
With nothing pending the engine has nothing to do. -/
def engineStep (s : State) : Host.Outcome State Fault Refusal :=
  match s.pending with
  | none => .next s
  | some c =>
    match decode c with
    | .error _ => raise .illegalCmd c s
    | .ok i => exec i s

/-- One event of the environment. -/
def eventStep (e : Event) (s : State) : Host.Outcome State Fault Refusal :=
  match e with
  | .read a => hostRead a s
  | .write a v => hostWrite a v s
  | .engine => engineStep s
  | .hardReset => .next (resetBlock s)

/-- The next event, taken off the list; with none left it is the engine's turn, so that a pending command is not delayed for
ever (R361; log 2). -/
def advance (s : State) : Host.Outcome State Fault Refusal :=
  match s.events with
  | [] => engineStep s
  | e :: rest => eventStep e { s with events := rest }

/-- The state in which word c has just been issued (R46) and the engine moves next (log 1). -/
def placeCommand (c : Bus) (s : State) : State := { issue c s with events := .engine :: s.events }

end Sys2Proof.Machine
end

