-- ==== Sys2Proof/Machine/Step.lean ====
section
/-! DEFINITION. The step function, and where the host places a command for the next step. -/

namespace Sys2Proof.Machine

/-- One step of the machine (Machine/Engine.lean says what it does). -/
def step (s : State) : Host.Outcome State Fault Refusal := advance s

/-- `s` with the command whose bits are the `nbits` low bits of `w` issued, the engine to move next: the next step runs it.
The block fetches nothing (70_reset R342): a command comes by a host write to CMD, for which this stands (log 1). -/
def State.withFetchWord (s : State) (nbits w : Nat) : State := placeCommand (BitVec.ofNat 32 (w % 2 ^ nbits)) s

end Sys2Proof.Machine
end

