-- ==== Sys2Proof/Machine/Assembler.lean ====
section
/-! DEFINITION. The assembler's written form of a command and the pseudo-instructions (spec/30_encoding.md R111, R112). No step uses
these: an assembler is host software; they fix what the spec's listings mean. -/

namespace Sys2Proof.Machine

/-- `w0`..`w15`. -/
def asmW (r : WReg) : String := "w" ++ toString r.val

/-- `p0`..`p7`. -/
def asmP (r : PReg) : String := "p" ++ toString r.val

/-- The suffix of a command that takes M: `.P` or `.N`. -/
def asmM : Modulus → String
  | .p => ".P"
  | .n => ".N"

/-- MCNEG's condition name; `!` is IMM8 bit 2. -/
def asmCond (f : Flag) (inv : Bool) : String :=
  (if inv then "!" else "") ++
    match f with
    | .eq => "EQ"
    | .lt => "LT"
    | .odd => "ODD"
    | .inf => "INF"

/-- An immediate, `#n` in decimal. -/
def asmImm (v : BitVec 8) : String := "#" ++ toString v.toNat

/-- The names LDC takes (10_state R28). -/
def constNames : List String :=
  ["ZERO", "ONE", "P", "N", "GX", "GY", "B", "HALF_N", "RP", "RN", "R2P", "R2N"]

/-- LDC's index: the constant's name, or `#n` where it has none. -/
def asmConst (idx : BitVec 8) : String :=
  match constNames[idx.toNat]? with
  | some n => n
  | none => asmImm idx

/-- PLIFT's parity name. -/
def asmParity (odd : Bool) : String := if odd then "ODD" else "EVEN"

/-- A mnemonic with its operands, separated by commas. -/
def asmLine (mnemonic : String) (operands : List String) : String :=
  match operands with
  | [] => mnemonic
  | _ => mnemonic ++ " " ++ String.intercalate ", " operands

/-- The written form of a command, operands in R111's order. -/
def asmOf : Instr → String
  | .nop => "NOP"
  | .mov rd rs => asmLine "MOV" [asmW rd, asmW rs]
  | .ldc rd idx => asmLine "LDC" [asmW rd, asmConst idx]
  | .cmp ra rb => asmLine "CMP" [asmW ra, asmW rb]
  | .zeroize => "ZEROIZE"
  | .madd m rd ra rb => asmLine ("MADD" ++ asmM m) [asmW rd, asmW ra, asmW rb]
  | .msub m rd ra rb => asmLine ("MSUB" ++ asmM m) [asmW rd, asmW ra, asmW rb]
  | .mneg m rd ra => asmLine ("MNEG" ++ asmM m) [asmW rd, asmW ra]
  | .mcneg m rd ra f inv => asmLine ("MCNEG" ++ asmM m) [asmW rd, asmW ra, asmCond f inv]
  | .mred m rd ra => asmLine ("MRED" ++ asmM m) [asmW rd, asmW ra]
  | .mredw m rd rhi rlo => asmLine ("MREDW" ++ asmM m) [asmW rd, asmW rhi, asmW rlo]
  | .montmul m rd ra rb => asmLine ("MONTMUL" ++ asmM m) [asmW rd, asmW ra, asmW rb]
  | .tomont m rd ra => asmLine ("TOMONT" ++ asmM m) [asmW rd, asmW ra]
  | .frommont m rd ra => asmLine ("FROMMONT" ++ asmM m) [asmW rd, asmW ra]
  | .mmul m rd ra rb => asmLine ("MMUL" ++ asmM m) [asmW rd, asmW ra, asmW rb]
  | .msqr m rd ra => asmLine ("MSQR" ++ asmM m) [asmW rd, asmW ra]
  | .mpow m rd rb re => asmLine ("MPOW" ++ asmM m) [asmW rd, asmW rb, asmW re]
  | .minv m rd ra => asmLine ("MINV" ++ asmM m) [asmW rd, asmW ra]
  | .msqrt rd ra => asmLine "MSQRT" [asmW rd, asmW ra]
  | .pinf pd => asmLine "PINF" [asmP pd]
  | .pgen pd => asmLine "PGEN" [asmP pd]
  | .pmov pd ps => asmLine "PMOV" [asmP pd, asmP ps]
  | .plda pd wx wy => asmLine "PLDA" [asmP pd, asmW wx, asmW wy]
  | .plift pd wx odd => asmLine "PLIFT" [asmP pd, asmW wx, asmParity odd]
  | .pneg pd ps => asmLine "PNEG" [asmP pd, asmP ps]
  | .padd pd pa pb => asmLine "PADD" [asmP pd, asmP pa, asmP pb]
  | .pdbl pd pa => asmLine "PDBL" [asmP pd, asmP pa]
  | .peq pa pb => asmLine "PEQ" [asmP pa, asmP pb]
  | .ptst ps => asmLine "PTST" [asmP ps]
  | .paff wx wy ps => asmLine "PAFF" [asmW wx, asmW wy, asmP ps]
  | .precomp w => asmLine "PRECOMP" [asmImm w]
  | .pmulg pd wk => asmLine "PMULG" [asmP pd, asmW wk]
  | .pmul pd pq wk => asmLine "PMUL" [asmP pd, asmP pq, asmW wk]
  | .pmul2 pd wk wl pq => asmLine "PMUL2" [asmP pd, asmW wk, asmW wl, asmP pq]
  | .ninit e we wd wh => asmLine "NINIT" (if e then [asmW wd, asmW wh, asmW we] else [asmW wd, asmW wh])
  | .ngen wk => asmLine "NGEN" [asmW wk]

/-- The pseudo-instructions (R112), with their temporaries as operands. -/
inductive Pseudo where
  | ldz (wd : WReg)
  | ldone (wd : WReg)
  | mdbl (m : Modulus) (wd ws : WReg)
  | mdiv (m : Modulus) (wd wa wb wt : WReg)
  | lows (wd ws wt : WReg)
  | psub (pd pa pb pt : PReg)
  | bits2int (wd ws : WReg)
deriving DecidableEq, Repr

/-- The exact expansions of R112. -/
def expandPseudo : Pseudo → List Instr
  | .ldz wd => [.ldc wd 0]
  | .ldone wd => [.ldc wd 1]
  | .mdbl m wd ws => [.madd m wd ws ws]
  | .mdiv m wd wa wb wt => [.minv m wt wb, .mmul m wd wa wt]
  | .lows wd ws wt => [.ldc wt 7, .cmp wt ws, .mcneg .n wd ws .lt false]
  | .psub pd pa pb pt => [.pneg pt pb, .padd pd pa pt]
  | .bits2int wd ws => [.mred .n wd ws]

end Sys2Proof.Machine
end

