-- ==== Sys2Proof/Safety.lean ====
section
/-! DEFINITION. The terms the statements are written in (Certificates/Slice0/Obligations.lean): the spec's own vocabulary, written from
its rules and not from the operations of Machine/, so that a repair of a meaning leaves the statements as they are. -/

namespace Sys2Proof.Spec

open Sys2Proof.Machine

/-! ### The steps of the three agents (spec/00_scope.md R9) -/

/-- The machine's step when it is the engine's turn. -/
def engineTurn (s : State) : Host.Outcome State Fault Refusal := step { s with events := .engine :: s.events }

/-- The machine's step when the host makes a read transaction. -/
def readTurn (a : BusAccess) (s : State) : Host.Outcome State Fault Refusal :=
  step { s with events := .read a :: s.events }

/-- The machine's step when the host makes a write transaction. -/
def writeTurn (a : BusAccess) (v : Bus) (s : State) : Host.Outcome State Fault Refusal :=
  step { s with events := .write a v :: s.events }

/-- The machine's step when rst_n is pulsed. -/
def resetTurn (s : State) : Host.Outcome State Fault Refusal := step { s with events := .hardReset :: s.events }

/-- The access of `MemRead(off, 4)` and `MemWrite(off, 4, v)`: 32 bits, all byte strobes (R12, spec/20_memory.md R61). -/
def fullWord (off : BitVec 12) : BusAccess := ⟨off, 4, 0xF⟩

/-- `MemRead(off, 4)` answers OKAY with v and changes nothing in the block. -/
def Reads (off : BitVec 12) (s : State) (v : Bus) : Prop :=
  readTurn (fullWord off) s = .next { s with resp := some (.data v) }

/-- `MemWrite(off, 4, v)` answers OKAY and leaves `t`. -/
def Writes (off : BitVec 12) (v : Bus) (s t : State) : Prop :=
  writeTurn (fullWord off) v s = .next { t with resp := some .ack }

/-! ### The completion step (spec/10_state.md R45, R35; spec/60_exceptions.md R301) -/

/-- A completion step whose writes are already in `t`: PENDING none (so BUSY 0), DONE 1, CMDCNT + 1 (R45). -/
def completed (t : State) : State :=
  { t with pending := none, ngWork := none, done := true, cmdcnt := t.cmdcnt + 1 }

/-- record_error (R35). -/
def recorded (c : ErrCode) (word : Bus) (s : State) : State :=
  if s.err = true then s else { s with err := true, errcode := c, errcmd := word }

/-- A completion step with outcome error(c): no write of the command (R45, R301). -/
def failed (c : ErrCode) (word : Bus) (s : State) : State := completed (recorded c word s)

/-- W[r] <- v. -/
def writeW (r : WReg) (v : Word) (s : State) : State := { s with w := s.w.set r.val v r.isLt }

/-- P[r] <- t. -/
def writeP (r : PReg) (t : Triple) (s : State) : State := { s with p := s.p.set r.val t r.isLt }

/-- OVF(M) (spec/30_encoding.md R103). -/
def ovf : Modulus → ErrCode
  | .p => .fieldOverflow
  | .n => .scalarOverflow

/-! ### Command words (spec/30_encoding.md R101 to R108) -/

/-- The word with these fields and RSV = 0 (R101). -/
def cmdWord (opc : BitVec 8) (m : BitVec 1) (rd rs1 rs2 : BitVec 4) (imm : BitVec 8) : Bus :=
  opc ++ m ++ 0#3 ++ rd ++ rs1 ++ rs2 ++ imm

/-- M: 0 is P, 1 is N (R101). -/
def mBit : Modulus → BitVec 1
  | .p => 0
  | .n => 1

/-- The field of a word register (R102). -/
def wField (r : WReg) : BitVec 4 := BitVec.ofFin r

/-- The field of a point register: bit 3 is 0 (R102). -/
def pField (r : PReg) : BitVec 4 := 0#1 ++ (BitVec.ofFin r : BitVec 3)

/-- MCNEG's IMM8: bits 1:0 select EQ, LT, ODD, INF, bit 2 inverts (R104). -/
def condImm (f : Flag) (inv : Bool) : BitVec 8 :=
  0#5 ++ BitVec.ofBool inv ++ (match f with | .eq => 0#2 | .lt => 1#2 | .odd => 2#2 | .inf => 3#2)

/-- The word in flight performs command i (R109). -/
def Performs (word : Bus) (i : Instr) : Prop := ∀ s : State, s.pending = some word → engineTurn s = exec i s

/-- Every word of opcode `opc` other than the listed ones is illegal: it completes with ILLEGAL_CMD and no other effect
(R106). -/
def OtherWordsIllegal (opc : BitVec 8) (listed : Bus → Prop) : Prop :=
  ∀ (c : Bus) (s : State), c.extractLsb' 24 8 = opc → ¬ listed c → s.pending = some c →
    engineTurn s = .next (failed .illegalCmd c s)

/-- Opcode `opc` has exactly these command words, each performing its command; every other word of the opcode is illegal. -/
def CommandWords {α : Type} (opc : BitVec 8) (word : α → Bus) (cmd : α → Instr) : Prop :=
  (∀ x, Performs (word x) (cmd x)) ∧ OtherWordsIllegal opc (fun c => ∃ x, c = word x)

/-- spec/opcode_table.json, (mask, match) of NOP to MSQRT, in its order. -/
def opcodeTableA : List (Bus × Bus) :=
  [ (0xFFFFFFFF, 0x00000000),
    (0xFFF00FFF, 0x01000000),
    (0xFFF0FF00, 0x02000000),
    (0xFFFF00FF, 0x03000000),
    (0xFFFFFFFF, 0x0F000000),
    (0xFF7000FF, 0x10000000),
    (0xFF7000FF, 0x11000000),
    (0xFF700FFF, 0x12000000),
    (0xFF700FF8, 0x13000000),
    (0xFF700FFF, 0x14000000),
    (0xFF7000FF, 0x15000000),
    (0xFF7000FF, 0x20000000),
    (0xFF700FFF, 0x21000000),
    (0xFF700FFF, 0x22000000),
    (0xFF7000FF, 0x23000000),
    (0xFF700FFF, 0x24000000),
    (0xFF7000FF, 0x25000000),
    (0xFF700FFF, 0x30000000),
    (0xFFF00FFF, 0x31000000) ]

/-- spec/opcode_table.json, (mask, match) of PINF to NGEN, in its order. -/
def opcodeTableB : List (Bus × Bus) :=
  [ (0xFFF8FFFF, 0x40000000),
    (0xFFF8FFFF, 0x41000000),
    (0xFFF88FFF, 0x42000000),
    (0xFFF800FF, 0x43000000),
    (0xFFF80FFE, 0x44000000),
    (0xFFF88FFF, 0x45000000),
    (0xFFF888FF, 0x46000000),
    (0xFFF88FFF, 0x47000000),
    (0xFFFF88FF, 0x48000000),
    (0xFFFF8FFF, 0x49000000),
    (0xFFF080FF, 0x4A000000),
    (0xFFFFFF00, 0x50000000),
    (0xFFF80FFF, 0x51000000),
    (0xFFF880FF, 0x52000000),
    (0xFFF800F8, 0x53000000),
    (0xFFF000FE, 0x60000000),
    (0xFFF0FFFF, 0x61000000) ]

/-- The three extra_legality notes of spec/opcode_table.json (LDC, PRECOMP, NINIT), by opcode. -/
def ExtraLegal (c : Bus) : Prop :=
  (c.extractLsb' 24 8 = 0x02 → (c.extractLsb' 0 8).toNat < 12) ∧
  (c.extractLsb' 24 8 = 0x50 → c.extractLsb' 0 8 = 0 ∨ c.extractLsb' 0 8 = 4 ∨ c.extractLsb' 0 8 = 8) ∧
  (c.extractLsb' 24 8 = 0x60 → c.extractLsb' 0 1 = 0 → c.extractLsb' 16 4 = 0)

/-- The word is legal by spec/opcode_table.json. -/
def LegalWord (c : Bus) : Prop :=
  (∃ row ∈ opcodeTableA ++ opcodeTableB, c &&& row.1 = row.2) ∧ ExtraLegal c

/-- The constant ROM, by index (spec/10_state.md R28). -/
def romEntries : List Word :=
  [ 0x0, 0x1, 0xFFFFFFFFFFFFFFFFFFFFFFFFFFFFFFFFFFFFFFFFFFFFFFFFFFFFFFFEFFFFFC2F,
    0xFFFFFFFFFFFFFFFFFFFFFFFFFFFFFFFEBAAEDCE6AF48A03BBFD25E8CD0364141,
    0x79BE667EF9DCBBAC55A06295CE870B07029BFCDB2DCE28D959F2815B16F81798,
    0x483ADA7726A3C4655DA4FBFC0E1108A8FD17B448A68554199C47D08FFB10D4B8, 0x7,
    0x7FFFFFFFFFFFFFFFFFFFFFFFFFFFFFFF5D576E7357A4501DDFE92F46681B20A0, 0x1000003D1,
    0x14551231950B75FC4402DA1732FC9BEBF, 0x1000007A2000E90A1,
    0x9D671CD581C69BC5E697F5E45BCD07C6741496C20E7CF878896CF21467D7D140 ]

/-- Commands issued one after another, each completed before the next (spec/70_reset_and_hazards.md R352). -/
def inSequence : List Instr → State → Host.Outcome State Fault Refusal
  | [], s => .next s
  | i :: rest, s =>
    match exec i s with
    | .next t => inSequence rest t
    | .fault f => .fault f
    | .refused f => .refused f

/-! ### The register window (spec/20_memory.md R60 to R67; spec/60_exceptions.md R300) -/

/-- The offsets the register map lists (R64, R67): a multiple of 4 in 0x000..0x01F, 0x100..0x2FF, or a coordinate of a slot in
0x400..0x7FF. -/
def Listed (off : BitVec 12) : Prop :=
  off.toNat % 4 = 0 ∧ (off.toNat < 0x020 ∨ (0x100 ≤ off.toNat ∧ off.toNat < 0x300) ∨
    (0x400 ≤ off.toNat ∧ off.toNat < 0x800 ∧ off.toNat % 128 < 96))

/-- Word j of W[i] (R66). -/
def wordOff (i : WReg) (j : Fin 8) : BitVec 12 := BitVec.ofNat 12 (0x100 + 32 * i.val + 4 * j.val)

/-- Word j of coordinate c of P[k], c = 0, 1, 2 for X, Y, Z (R67). -/
def pointOff (k : PReg) (c : Fin 3) (j : Fin 8) : BitVec 12 :=
  BitVec.ofNat 12 (0x400 + 128 * k.val + 32 * c.val + 4 * j.val)

/-- X, Y or Z of a triple. -/
def coordinate (t : Triple) (c : Fin 3) : Word := if c = 0 then t.x else if c = 1 then t.y else t.z

/-- `v'` is `v` with bits 255 - 32j : 224 - 32j replaced by x and the other 224 bits unchanged (R66). -/
def LaneWritten (v v' : Word) (j : Fin 8) (x : Bus) : Prop :=
  ∀ b, b < 256 → v'.getLsbD b =
    if 224 - 32 * j.val ≤ b ∧ b ≤ 255 - 32 * j.val then x.getLsbD (b - (224 - 32 * j.val)) else v.getLsbD b

/-- The numbers of the error codes (R300). -/
def codeOf : ErrCode → BitVec 8
  | .noError => 0x00
  | .illegalCmd => 0x01
  | .fieldOverflow => 0x02
  | .scalarOverflow => 0x03
  | .invalidFieldElement => 0x04
  | .invalidPoint => 0x05
  | .pointAtInfinity => 0x06
  | .invalidPrivateKey => 0x07
  | .nonceState => 0x08
  | .busyViolation => 0x09
  | .cmdOverrun => 0x0A

/-- The number TBL_W holds (spec/10_state.md R40). -/
def widthOf : TblWidth → BitVec 4
  | .none => 0
  | .w4 => 4
  | .w8 => 8

/-- The codes a legal command may raise (the "raised by" column of R300, and the commands' own rules). -/
def mayRaise : Instr → List ErrCode
  | .madd m _ _ _ => [ovf m]
  | .msub m _ _ _ => [ovf m]
  | .mneg m _ _ => [ovf m]
  | .mcneg m _ _ _ _ => [ovf m]
  | .montmul m _ _ _ => [ovf m]
  | .tomont m _ _ => [ovf m]
  | .frommont m _ _ => [ovf m]
  | .mmul m _ _ _ => [ovf m]
  | .msqr m _ _ => [ovf m]
  | .mpow m _ _ _ => [ovf m]
  | .minv m _ _ => [ovf m, .invalidFieldElement]
  | .msqrt _ _ => [.fieldOverflow]
  | .plda _ _ _ => [.invalidPoint]
  | .plift _ _ _ => [.invalidPoint]
  | .pneg _ _ => [.invalidPoint]
  | .padd _ _ _ => [.invalidPoint]
  | .pdbl _ _ => [.invalidPoint]
  | .peq _ _ => [.invalidPoint]
  | .ptst _ => [.invalidPoint]
  | .paff _ _ _ => [.invalidPoint, .pointAtInfinity]
  | .pmulg _ _ => [.scalarOverflow]
  | .pmul _ _ _ => [.invalidPoint, .scalarOverflow]
  | .pmul2 _ _ _ _ => [.scalarOverflow, .invalidPoint]
  | .ninit _ _ _ _ => [.invalidPrivateKey]
  | .ngen _ => [.nonceState]
  | _ => []

/-- Every piece of the block's state at its R47 value, the environment's fields as they were (spec/10_state.md R47). -/
def ResetValues (s t : State) : Prop :=
  (∀ r, getW t r = 0) ∧ (∀ r, getP t r = ⟨0, 0, 0⟩) ∧
  t.eq = false ∧ t.lt = false ∧ t.odd = false ∧ t.inf = false ∧
  t.ie = false ∧ t.done = false ∧ t.err = false ∧ t.errcode = .noError ∧
  t.errcmd = 0 ∧ t.cmdcnt = 0 ∧ t.lastcmd = 0 ∧
  t.tblValid = false ∧ t.tblW = .none ∧ t.tbl = [] ∧
  t.ngK = 0 ∧ t.ngV = 0 ∧ t.ngReady = false ∧ t.ngFirst = false ∧
  t.pending = none ∧ t.ngWork = none ∧
  t.events = s.events ∧ t.hmac = s.hmac

/-! ### The field and the curve group (spec/00_scope.md R3, R14; spec/10_state.md R24 to R26) -/

/-- The field of P. -/
abbrev Fp := ZMod fieldP

/-- A word as a field element. -/
def toFp (v : Word) : Fp := (v.toNat : Fp)

/-- The canonical word of a field element. -/
def ofFp (x : Fp) : Word := BitVec.ofNat 256 x.val

/-- `valid(X, Y, Z)` (R26). -/
def Valid (t : Triple) : Prop :=
  t.z = 0 ∨ (t.x.toNat < fieldP ∧ t.y.toNat < fieldP ∧ t.z.toNat < fieldP ∧
    toFp t.y ^ 2 = toFp t.x ^ 3 + 7 * toFp t.z ^ 6)

/-- ID (R25). -/
def idPoint : Triple := ⟨1, 1, 0⟩

/-- (GX, GY, 1), with the digits of R4. -/
def genPoint : Triple :=
  ⟨0x79BE667EF9DCBBAC55A06295CE870B07029BFCDB2DCE28D959F2815B16F81798,
   0x483ADA7726A3C4655DA4FBFC0E1108A8FD17B448A68554199C47D08FFB10D4B8, 1⟩

/-- JDBL (spec/44_point_engines.md R212), line by line in the field. -/
def doubled (t : Triple) : Triple :=
  if t.z = 0 then idPoint
  else
    let X1 := toFp t.x
    let Y1 := toFp t.y
    let Z1 := toFp t.z
    let A := X1 ^ 2
    let B := Y1 ^ 2
    let C := B ^ 2
    let D := 2 * ((X1 + B) ^ 2 - A - C)
    let E := 3 * A
    let F := E ^ 2
    let X3 := F - 2 * D
    let Y3 := E * (D - X3) - 8 * C
    let Z3 := 2 * Y1 * Z1
    if Z3 = 0 then idPoint else ⟨ofFp X3, ofFp Y3, ofFp Z3⟩

/-- JADD (R213), line by line in the field. -/
def added (t u : Triple) : Triple :=
  if t.z = 0 then (if u.z = 0 then idPoint else u)
  else if u.z = 0 then t
  else
    let X1 := toFp t.x
    let Y1 := toFp t.y
    let Z1 := toFp t.z
    let X2 := toFp u.x
    let Y2 := toFp u.y
    let Z2 := toFp u.z
    let Z1Z1 := Z1 ^ 2
    let Z2Z2 := Z2 ^ 2
    let U1 := X1 * Z2Z2
    let U2 := X2 * Z1Z1
    let S1 := Y1 * Z2 * Z2Z2
    let S2 := Y2 * Z1 * Z1Z1
    let H := U2 - U1
    let r := 2 * (S2 - S1)
    if H = 0 then (if r = 0 then doubled t else idPoint)
    else
      let I := (2 * H) ^ 2
      let J := H * I
      let V := U1 * I
      let X3 := r ^ 2 - J - 2 * V
      let Y3 := r * (V - X3) - 2 * S1 * J
      let Z3 := ((Z1 + Z2) ^ 2 - Z1Z1 - Z2Z2) * H
      ⟨ofFp X3, ofFp Y3, ofFp Z3⟩

/-- The curve y² = x³ + 7 over the field of P (R3). -/
abbrev curve : WeierstrassCurve.Affine Fp := ⟨0, 0, 0, 0, 7⟩

/-- The group of its points: the identity and the affine points (R3). -/
abbrev Pt := curve.Point

/-- The triple denotes the group element (R14, R24): any Z = 0 triple the identity, any other its `aff`. -/
def Denotes (t : Triple) : Pt → Prop
  | .zero => t.z = 0
  | .some x y _ => t.z ≠ 0 ∧ toFp t.x = x * toFp t.z ^ 2 ∧ toFp t.y = y * toFp t.z ^ 3

/-- What NORM writes (spec/45_scalar_multipliers.md R241): ID, or canonical affine coordinates with Z = 1. -/
def Normal (t : Triple) : Prop := t = idPoint ∨ (t.x.toNat < fieldP ∧ t.y.toNat < fieldP ∧ t.z = 1)

/-- The stored table of width w: row i, column j - 1 holds the multiple j·2^(w·i) of G (spec/10_state.md R40; log 9). -/
def table : TblWidth → List (List Nat)
  | .none => []
  | .w4 => (List.range 64).map fun i => (List.range 15).map fun j => (j + 1) * 2 ^ (4 * i)
  | .w8 => (List.range 32).map fun i => (List.range 255).map fun j => (j + 1) * 2 ^ (8 * i)

/-- BUILD(w), or for `.none` no table (R240, R242). -/
def built (w : TblWidth) (s : State) : State :=
  { s with tblValid := decide (w ≠ .none), tblW := w, tbl := table w }

/-! ### The nonce generator (spec/46_nonce_generator.md R260 to R262) -/

/-- be32 (spec/00_scope.md R11): byte 0 is v[255:248]. -/
def bytes32 (v : Word) : List Byte := List.ofFn fun i : Fin 32 => v.extractLsb' (248 - 8 * i.val) 8

/-- x || hb || e (R260, R261). -/
def seedOf (d h : Word) (extra : Option Word) : List Byte :=
  bytes32 d ++ bytes32 (BitVec.ofNat 256 (h.toNat % orderN)) ++
    (match extra with | some e => bytes32 e | none => [])

/-- A candidate is accepted: 1 <= k < N (R262). -/
def InRange (k : Word) : Prop := 1 ≤ k.toNat ∧ k.toNat < orderN

/-- R262's loop from (K, V), by an HMAC service: the K and the candidate after exactly n refused ones. -/
inductive Candidate (hmac : Word → List Byte → Option Word) : Nat → Word → Word → Word → Word → Prop
  /-- The first candidate is in range. -/
  | accept {K V k : Word} (hk : hmac K (bytes32 V) = some k) (hr : InRange k) : Candidate hmac 0 K V K k
  /-- The first candidate is refused, and the loop goes on (RFC 6979 3.2 h.3). -/
  | refuse {n : Nat} {K V k K' V' K'' k'' : Word} (hk : hmac K (bytes32 V) = some k) (hr : ¬ InRange k)
      (hK : hmac K (bytes32 k ++ [0x00]) = some K') (hV : hmac K' (bytes32 k) = some V')
      (rest : Candidate hmac n K' V' K'' k'') : Candidate hmac (n + 1) K V K'' k''

/-- The (K, V) R262's loop starts with: NG_K and NG_V at the first NGEN, else updated after the last candidate. -/
def LoopStart (s : State) (K V : Word) : Prop :=
  (s.ngFirst = true ∧ K = s.ngK ∧ V = s.ngV) ∨
    (s.ngFirst = false ∧ hmacAnswer s s.ngK (bytes32 s.ngV ++ [0x00]) = some K ∧
      hmacAnswer s K (bytes32 s.ngV) = some V)

/-- The update K = HMAC(K, V || 0x00), V = HMAC(K, V) of R262 does not end: one of its two calls has no answer
(spec/70_reset_and_hazards.md R363). -/
def UpdateUnanswered (s : State) (K V : Word) : Prop :=
  hmacAnswer s K (bytes32 V ++ [0x00]) = none ∨
    ∃ K', hmacAnswer s K (bytes32 V ++ [0x00]) = some K' ∧ hmacAnswer s K' (bytes32 V) = none

/-! ### Whole-machine terms -/

/-- What every step keeps: the error record is empty while ERR = 0 (R35, R300); the table is exactly what TBL_VALID and TBL_W say
(R40); without NINIT the nonce state is clear (R41, R47); while a command is in flight DONE is 0 and LASTCMD is its word (R39,
R46); a candidate loop belongs to an NGEN in flight (log 4). -/
def Inv (s : State) : Prop :=
  (s.err = false → s.errcode = .noError ∧ s.errcmd = 0) ∧
  (s.err = true → s.errcode ≠ .noError) ∧
  (s.tblValid = true ↔ s.tblW ≠ .none) ∧
  s.tbl = table s.tblW ∧
  (s.ngReady = false → s.ngK = 0 ∧ s.ngV = 0 ∧ s.ngFirst = false) ∧
  (∀ c, s.pending = some c → s.done = false ∧ s.lastcmd = c) ∧
  (s.ngWork ≠ none → s.ngReady = true ∧ ∃ wk, s.pending = some (cmdWord 0x61 0 (wField wk) 0 0 0))

/-- The word registers a command may write (spec/10_state.md R22). -/
def wordDests : Instr → List WReg
  | .mov rd _ => [rd]
  | .ldc rd _ => [rd]
  | .madd _ rd _ _ => [rd]
  | .msub _ rd _ _ => [rd]
  | .mneg _ rd _ => [rd]
  | .mcneg _ rd _ _ _ => [rd]
  | .mred _ rd _ => [rd]
  | .mredw _ rd _ _ => [rd]
  | .montmul _ rd _ _ => [rd]
  | .tomont _ rd _ => [rd]
  | .frommont _ rd _ => [rd]
  | .mmul _ rd _ _ => [rd]
  | .msqr _ rd _ => [rd]
  | .mpow _ rd _ _ => [rd]
  | .minv _ rd _ => [rd]
  | .msqrt rd _ => [rd]
  | .paff wx wy _ => [wx, wy]
  | .ngen wk => [wk]
  | .zeroize => List.finRange 16
  | _ => []

/-- The point registers a command may write (R23). -/
def pointDests : Instr → List PReg
  | .pinf pd => [pd]
  | .pgen pd => [pd]
  | .pmov pd _ => [pd]
  | .plda pd _ _ => [pd]
  | .plift pd _ _ => [pd]
  | .pneg pd _ => [pd]
  | .padd pd _ _ => [pd]
  | .pdbl pd _ => [pd]
  | .pmulg pd _ => [pd]
  | .pmul pd _ _ => [pd]
  | .pmul2 pd _ _ _ => [pd]
  | .zeroize => List.finRange 8
  | _ => []

/-- The flags a command may write (the table of R29). -/
def flagDests : Instr → List Flag
  | .cmp _ _ => [.eq, .lt, .odd]
  | .msqrt _ _ => [.eq, .odd]
  | .peq _ _ => [.eq]
  | .plift _ _ _ => [.odd, .inf]
  | .paff _ _ _ => [.odd]
  | .pinf _ => [.inf]
  | .pgen _ => [.inf]
  | .plda _ _ _ => [.inf]
  | .pneg _ _ => [.inf]
  | .padd _ _ _ => [.inf]
  | .pdbl _ _ => [.inf]
  | .ptst _ => [.inf]
  | .pmulg _ _ => [.inf]
  | .pmul _ _ _ => [.inf]
  | .pmul2 _ _ _ _ => [.inf]
  | .zeroize => [.eq, .lt, .odd, .inf]
  | _ => []

/-- A flag of FLAGS. -/
def flagIn (s : State) : Flag → Bool
  | .eq => s.eq
  | .lt => s.lt
  | .odd => s.odd
  | .inf => s.inf

/-- The command may write the nonce state (R41). -/
def writesNonce : Instr → Bool
  | .ninit _ _ _ _ => true
  | .ngen _ => true
  | .zeroize => true
  | _ => false

/-- The command may write the table (R40). -/
def writesTable : Instr → Bool
  | .precomp _ => true
  | .pmulg _ _ => true
  | _ => false

/-- The states agree but for the hidden nonce state NG_K, NG_V, NG_FIRST (and a candidate loop) (R41, R264). -/
def SameButNonce (s t : State) : Prop :=
  t = { s with ngK := t.ngK, ngV := t.ngV, ngFirst := t.ngFirst, ngWork := t.ngWork }

/-- The states agree but for the G table (R40). -/
def SameButTable (s t : State) : Prop :=
  t = { s with tblValid := t.tblValid, tblW := t.tblW, tbl := t.tbl }

/-- Two steps end alike: in related next states, or in the same stop. -/
def EndAlike (R : State → State → Prop) : Host.Outcome State Fault Refusal → Host.Outcome State Fault Refusal → Prop
  | .next s, .next t => R s t
  | .fault f, .fault g => f = g
  | .refused f, .refused g => f = g
  | _, _ => False

end Sys2Proof.Spec
end

