-- ==== Sys2Proof/Certificates/Slice0/Obligations.lean ====
section
/-! DEFINITION. The statements for the provers. Each is about the machine's step, its commands (exec) or its bus, in the terms of
Safety.lean; its docstring names the rule of spec/ it formalises. -/

section

open Sys2Proof Sys2Proof.Machine Sys2Proof.Spec

/-! ### Encoding -/

/-- Decoding the word of a well-formed command gives the command back, with every operand at every value (R101, R105, R111). -/
def Obligations.DecodeEncodeRoundTrip : Prop :=
  ∀ i : Instr, i.wellFormed = true → decode (encode i) = .ok i

/-- A word that decodes is the one word of its command: no two words mean the same, and no bit is ignored (R106, R107). -/
def Obligations.OneWordPerCommand : Prop :=
  ∀ (c : Bus) (i : Instr), decode c = .ok i → i.wellFormed = true ∧ encode i = c

/-- The words that perform a command are exactly those of spec/opcode_table.json, by its masks and its notes; every other word
completes with ILLEGAL_CMD and nothing else (R106, R109). -/
def Obligations.LegalWordsAreTheOpcodeTable : Prop :=
  ∀ c : Bus,
    (LegalWord c → ∃ i, decode c = .ok i ∧ Performs c i) ∧
    (¬ LegalWord c → ∀ s, s.pending = some c → engineTurn s = .next (failed .illegalCmd c s))

/-- R107: every unassigned opcode is ILLEGAL_CMD, whatever the other bits; so is a set reserved bit. -/
def Obligations.UnassignedAndReservedIllegal : Prop :=
  ∀ (c : Bus) (s : State), s.pending = some c →
    ((let o := (c.extractLsb' 24 8).toNat
      (0x04 ≤ o ∧ o ≤ 0x0E) ∨ (0x16 ≤ o ∧ o ≤ 0x1F) ∨ (0x26 ≤ o ∧ o ≤ 0x2F) ∨ (0x32 ≤ o ∧ o ≤ 0x3F) ∨
        (0x4B ≤ o ∧ o ≤ 0x4F) ∨ (0x54 ≤ o ∧ o ≤ 0x5F) ∨ (0x62 ≤ o ∧ o ≤ 0xFF)) ∨
      c.extractLsb' 20 3 ≠ 0) →
    engineTurn s = .next (failed .illegalCmd c s)

/-- R113: the encoding examples, each with its written form, and the illegal examples. -/
def Obligations.EncodingExamples : Prop :=
  (∀ e ∈ ([ (0x00000000, .nop, "NOP"), (0x02010004, .ldc 1 4, "LDC w1, GX"),
      (0x10031200, .madd .p 3 1 2, "MADD.P w3, w1, w2"), (0x10831200, .madd .n 3 1 2, "MADD.N w3, w1, w2"),
      (0x13801001, .mcneg .n 0 1 .lt false, "MCNEG.N w0, w1, LT"),
      (0x20045600, .montmul .p 4 5 6, "MONTMUL.P w4, w5, w6"), (0x30822000, .minv .n 2 2, "MINV.N w2, w2"),
      (0x46020100, .padd 2 0 1, "PADD p2, p0, p1"), (0x4A002100, .paff 0 1 2, "PAFF w0, w1, p2"),
      (0x50000008, .precomp 8, "PRECOMP #8"), (0x53034501, .pmul2 3 4 5 1, "PMUL2 p3, w4, w5, p1"),
      (0x60001200, .ninit false 0 1 2, "NINIT w1, w2"), (0x60031201, .ninit true 3 1 2, "NINIT w1, w2, w3"),
      (0x61040000, .ngen 4, "NGEN w4"), (0x0F000000, .zeroize, "ZEROIZE") ] : List (Bus × Instr × String)),
    decode e.1 = .ok e.2.1 ∧ encode e.2.1 = e.1 ∧ asmOf e.2.1 = e.2.2) ∧
  (∀ c ∈ ([0x10131200, 0x40080000, 0x01800000, 0x0200000C, 0x70000000, 0x60030000] : List Bus),
    ∀ s, s.pending = some c → engineTurn s = .next (failed .illegalCmd c s))

/-- R112: the exact expansions, and what LOWS leaves: wd = s if s ≤ HALF_N, else N - s, LT = (HALF_N < s), ODD 0,
EQ = (s = HALF_N). -/
def Obligations.PseudoExpansions : Prop :=
  (∀ wd, expandPseudo (.ldz wd) = [.ldc wd 0]) ∧ (∀ wd, expandPseudo (.ldone wd) = [.ldc wd 1]) ∧
  (∀ m wd ws, expandPseudo (.mdbl m wd ws) = [.madd m wd ws ws]) ∧
  (∀ m wd wa wb wt, expandPseudo (.mdiv m wd wa wb wt) = [.minv m wt wb, .mmul m wd wa wt]) ∧
  (∀ wd ws wt, expandPseudo (.lows wd ws wt) = [.ldc wt 7, .cmp wt ws, .mcneg .n wd ws .lt false]) ∧
  (∀ pd pa pb pt, expandPseudo (.psub pd pa pb pt) = [.pneg pt pb, .padd pd pa pt]) ∧
  (∀ wd ws, expandPseudo (.bits2int wd ws) = [.mred .n wd ws]) ∧
  (∀ (wd ws wt : WReg) (s : State), wt ≠ ws → (getW s ws).toNat < orderN →
    ∃ t, inSequence (expandPseudo (.lows wd ws wt)) s = .next t ∧
      getW t wd = (if (getW s ws).toNat ≤ (orderN - 1) / 2 then getW s ws
        else BitVec.ofNat 256 (orderN - (getW s ws).toNat)) ∧
      t.lt = decide ((orderN - 1) / 2 < (getW s ws).toNat) ∧ t.odd = false ∧
      t.eq = decide ((getW s ws).toNat = (orderN - 1) / 2))

/-! ### The two engine steps -/

/-- R109, R45: a step of the engine runs the command its pending word decodes to, and withFetchWord makes the next step do so
(logs 1 and 2 say how the engine's turn comes). -/
def Obligations.StepRunsDecodedCommand : Prop :=
  (∀ (s : State) (c : Bus) (i : Instr), s.pending = some c → decode c = .ok i →
    engineTurn s = exec i s ∧ (s.events = [] → step s = exec i s)) ∧
  (∀ (s : State) (i : Instr), i.wellFormed = true →
    step (s.withFetchWord 32 (encode i).toNat) =
      exec i { s with lastcmd := encode i, pending := some (encode i), done := false, ngWork := none })

/-- R46, R37, R39: a write of c to CMD while idle issues it and changes nothing else; no word is refused there. -/
def Obligations.IssueStep : Prop :=
  ∀ (c : Bus) (s : State), s.pending = none →
    Writes 0x010 c s { s with lastcmd := c, pending := some c, done := false, ngWork := none }

/-- R33, R34, R38, R39, R45: a turn that completes a command leaves BUSY 0, DONE 1, CMDCNT + 1 modulo 2^32, and LASTCMD and IE
never change. That a turn may instead leave everything but the candidate loop as it was is the model's choice: an HMAC call
without an answer makes a turn that changes nothing (log 3, after R363), and NGEN tries one candidate a turn (log 4). -/
def Obligations.CompletionBookkeeping : Prop :=
  ∀ (c : Bus) (s t : State), s.pending = some c → engineTurn s = .next t →
    (t = { s with ngWork := t.ngWork } ∨
      (t.pending = none ∧ t.ngWork = none ∧ t.done = true ∧ t.cmdcnt.toNat = (s.cmdcnt.toNat + 1) % 2 ^ 32)) ∧
    t.lastcmd = s.lastcmd ∧ t.ie = s.ie ∧ t.events = s.events ∧ t.hmac = s.hmac ∧ t.resp = s.resp

/-- R301: whatever word is in flight and whatever the error record holds, if its completion raises an error at all (told by
clearing ERR first), it has no effect but the record and the bookkeeping. -/
def Obligations.FailedCommandWritesNothing : Prop :=
  ∀ (c : Bus) (s t : State), s.pending = some c → engineTurn { s with err := false } = .next t → t.err = true →
    engineTurn s = .next (failed t.errcode c s)

/-- R35, R308: a set error record is kept by every step, or cleared whole: by a write of 1 to STATUS bit 2 or by a reset. -/
def Obligations.FirstErrorIsKept : Prop :=
  ∀ s t : State, s.err = true → step s = .next t →
    (t.err = true ∧ t.errcode = s.errcode ∧ t.errcmd = s.errcmd) ∨
    (t.err = false ∧ t.errcode = .noError ∧ t.errcmd = 0 ∧
      (s.events.head? = some .hardReset ∨
        ∃ a v, s.events.head? = some (.write a v) ∧
          ((a.off = 0x008 ∧ v.getLsbD 2 = true) ∨ (a.off = 0x004 ∧ v.getLsbD 1 = true))))

/-- R300: a legal command raises only the codes the rules give it, and ERRCMD is then its word. -/
def Obligations.ErrorCodesByCommand : Prop :=
  ∀ (i : Instr) (s t : State), i.wellFormed = true → exec i s = .next t → s.err = false → t.err = true →
    t.errcode ∈ mayRaise i ∧ t.errcmd = encode i

/-- R22, R23, R29, R40, R41: a command changes no word register, point register, flag, table or nonce state but those the rules
say it writes. -/
def Obligations.CommandFrame : Prop :=
  ∀ (i : Instr) (s t : State), exec i s = .next t →
    (∀ r, r ∉ wordDests i → getW t r = getW s r) ∧
    (∀ r, r ∉ pointDests i → getP t r = getP s r) ∧
    (∀ f, f ∉ flagDests i → flagIn t f = flagIn s f) ∧
    (writesTable i = false → t.tblValid = s.tblValid ∧ t.tblW = s.tblW ∧ t.tbl = s.tbl) ∧
    (writesNonce i = false → t.ngK = s.ngK ∧ t.ngV = s.ngV ∧ t.ngReady = s.ngReady ∧ t.ngFirst = s.ngFirst)

/-- R71, R45, R352: while a command is in flight, no bus transaction but a soft reset changes anything the command reads, nor the
command: Exec sees the state as it stood at the issue step. -/
def Obligations.OperandsStandStillWhileBusy : Prop :=
  ∀ (c : Bus) (a : BusAccess) (v : Bus) (s t : State), s.pending = some c →
    (readTurn a s = .next t ∨ (writeTurn a v s = .next t ∧ ¬ (a.off = 0x004 ∧ v.getLsbD 1 = true))) →
    t.w = s.w ∧ t.p = s.p ∧ (∀ f, flagIn t f = flagIn s f) ∧ t.pending = some c ∧ t.lastcmd = s.lastcmd ∧
      t.cmdcnt = s.cmdcnt ∧ t.ngK = s.ngK ∧ t.ngV = s.ngV ∧ t.ngReady = s.ngReady ∧ t.ngFirst = s.ngFirst ∧
      t.ngWork = s.ngWork ∧ t.tblValid = s.tblValid ∧ t.tblW = s.tblW ∧ t.tbl = s.tbl

/-- R74 (2): only the completion of the command in flight sets DONE, so DONE = 1 after an issue proves that it completed; and it
is that step alone that ends BUSY without a reset. -/
def Obligations.DoneProvesCompletion : Prop :=
  ∀ s t : State, step s = .next t →
    (s.done = false → t.done = true →
      ∃ c, s.pending = some c ∧ t.pending = none ∧ t.lastcmd = s.lastcmd ∧
        t.cmdcnt.toNat = (s.cmdcnt.toNat + 1) % 2 ^ 32) ∧
    (s.pending ≠ none → t.pending = none → t.done = true ∨ ResetValues { s with events := s.events.tail } t)

/-! ### Invariant and whole-machine rules -/

/-- Every step keeps the invariant Inv (R33, R35, R39 to R42, R46). -/
def Obligations.InvariantKept : Prop :=
  ∀ s t : State, Inv s → step s = .next t → Inv t

/-- The machine after reset meets the invariant. -/
def Obligations.InvariantAtReset : Prop := Inv State.reset

/-- R303, R301: no step refuses; a step faults only at a host transaction that the bus answers ERROR; so the engine's turn and a
reset always answer a next state. -/
def Obligations.StopsOnlyAtBusErrors : Prop :=
  (∀ s : State, ∃ t, engineTurn s = .next t) ∧ (∀ s : State, ∃ t, resetTurn s = .next t) ∧
  (∀ (s : State) (r : Refusal), step s ≠ .refused r) ∧
  (∀ (s : State) (f : Fault), step s = .fault f →
    ∃ a, (s.events.head? = some (.read a) ∨ ∃ v, s.events.head? = some (.write a v)) ∧
      ((f = .busShape a.off ∧ (a.size ≠ 4 ∨ a.off.toNat % 4 ≠ 0 ∨ a.strobe ≠ 0xF)) ∨
        (f = .busUnmapped a.off ∧ ¬ Listed a.off)))

/-- R40, R241: no result depends on the G table. From states that differ in it alone, every engine turn, bus write and reset ends
alike but for the table, and every register but STATUS reads the same. -/
def Obligations.NothingDependsOnTheTable : Prop :=
  ∀ s t : State, SameButTable s t →
    EndAlike SameButTable (engineTurn s) (engineTurn t) ∧
    (∀ a v, EndAlike SameButTable (writeTurn a v s) (writeTurn a v t)) ∧
    EndAlike SameButTable (resetTurn s) (resetTurn t) ∧
    (∀ off v, off ≠ 0x008 → Reads off s v → Reads off t v)

/-- R264, R41: the nonce state does not leak. From states that differ only in NG_K, NG_V and NG_FIRST, every bus transaction and
reset, and every engine turn but one that performs an NGEN, ends alike but for them; the bus answers the same. -/
def Obligations.NonceStateIsSecret : Prop :=
  ∀ s t : State, SameButNonce s t →
    (∀ a, EndAlike SameButNonce (readTurn a s) (readTurn a t)) ∧
    (∀ a v, EndAlike SameButNonce (writeTurn a v s) (writeTurn a v t)) ∧
    EndAlike SameButNonce (resetTurn s) (resetTurn t) ∧
    ((∀ wk, s.pending ≠ some (cmdWord 0x61 0 (wField wk) 0 0 0)) →
      EndAlike SameButNonce (engineTurn s) (engineTurn t))

/-! ### The register window -/

/-- R61 to R63: a transaction that is not 32 bits, full-strobe, at a multiple of 4, or whose offset the map does not list, is
answered ERROR and changes nothing (and is the host's fault, log 5); every other one is answered OKAY. -/
def Obligations.BusErrors : Prop :=
  ∀ (a : BusAccess) (v : Bus) (s : State),
    (a.size = 4 ∧ Listed a.off → ∃ d, readTurn a s = .next { s with resp := some (.data d) }) ∧
    (a.size = 4 ∧ a.strobe = 0xF ∧ Listed a.off → ∃ t : State, writeTurn a v s = .next { t with resp := some .ack }) ∧
    (a.size ≠ 4 ∨ a.off.toNat % 4 ≠ 0 →
      busRead a s = .error .shape ∧ readTurn a s = .fault (.busShape a.off)) ∧
    (a.size ≠ 4 ∨ a.off.toNat % 4 ≠ 0 ∨ a.strobe ≠ 0xF →
      busWrite a v s = (.error .shape, s) ∧ writeTurn a v s = .fault (.busShape a.off)) ∧
    (a.size = 4 ∧ a.off.toNat % 4 = 0 ∧ ¬ Listed a.off →
      busRead a s = .error .unmapped ∧ readTurn a s = .fault (.busUnmapped a.off)) ∧
    (a.size = 4 ∧ a.off.toNat % 4 = 0 ∧ a.strobe = 0xF ∧ ¬ Listed a.off →
      busWrite a v s = (.error .unmapped, s) ∧ writeTurn a v s = .fault (.busUnmapped a.off))

/-- R30 to R39, R65, R300: what the control registers read, bit by bit. -/
def Obligations.ControlRegisterReads : Prop :=
  ∀ s : State,
    Reads 0x000 s 0x5EC10007 ∧
    Reads 0x004 s (0#31 ++ BitVec.ofBool s.ie) ∧
    (∃ v : Bus, Reads 0x008 s v ∧
      v.getLsbD 0 = s.pending.isSome ∧ v.getLsbD 1 = s.done ∧ v.getLsbD 2 = s.err ∧ v.getLsbD 3 = s.tblValid ∧
      v.getLsbD 4 = s.ngReady ∧ v.extractLsb' 5 3 = 0 ∧ v.extractLsb' 8 4 = widthOf s.tblW ∧
      v.extractLsb' 12 4 = 0 ∧ v.extractLsb' 16 8 = codeOf s.errcode ∧ v.extractLsb' 24 8 = 0) ∧
    Reads 0x00C s (0#28 ++ BitVec.ofBool s.inf ++ BitVec.ofBool s.odd ++ BitVec.ofBool s.lt ++ BitVec.ofBool s.eq) ∧
    Reads 0x010 s 0 ∧ Reads 0x014 s s.cmdcnt ∧ Reads 0x018 s s.lastcmd ∧ Reads 0x01C s s.errcmd

/-- R30 to R32, R34, R35, R64: writes of ID, FLAGS, CMDCNT, LASTCMD and ERRCMD are ignored; STATUS is write-1-to-clear DONE and ERR
(with ERRCODE and ERRCMD); CTRL sets IE unless bit 1 asks for a soft reset. All are OKAY, busy or not. -/
def Obligations.ControlRegisterWrites : Prop :=
  ∀ (v : Bus) (s : State),
    (∀ off ∈ ([0x000, 0x00C, 0x014, 0x018, 0x01C] : List (BitVec 12)), Writes off v s s) ∧
    Writes 0x008 v s { s with
      done := s.done && !v.getLsbD 1
      err := s.err && !v.getLsbD 2
      errcode := if v.getLsbD 2 then .noError else s.errcode
      errcmd := if v.getLsbD 2 then 0 else s.errcmd } ∧
    (v.getLsbD 1 = false → Writes 0x004 v s { s with ie := v.getLsbD 0 })

/-- R66: word j of W[i], most significant first, read at any time and written while idle; the other 224 bits stay. -/
def Obligations.WordRegisterWindow : Prop :=
  ∀ (i : WReg) (j : Fin 8) (x : Bus) (s : State),
    (∃ d : Bus, Reads (wordOff i j) s d ∧ ∀ b, b < 32 → d.getLsbD b = (getW s i).getLsbD (224 - 32 * j.val + b)) ∧
    (s.pending = none →
      ∃ v', LaneWritten (getW s i) v' j x ∧ Writes (wordOff i j) x s (writeW i v' s))

/-- R67: word j of X, Y or Z of P[k], laid out as a word register is; the other coordinates stay. -/
def Obligations.PointRegisterWindow : Prop :=
  ∀ (k : PReg) (c : Fin 3) (j : Fin 8) (x : Bus) (s : State),
    (∃ d : Bus, Reads (pointOff k c j) s d ∧
      ∀ b, b < 32 → d.getLsbD b = (coordinate (getP s k) c).getLsbD (224 - 32 * j.val + b)) ∧
    (s.pending = none →
      ∃ t', LaneWritten (coordinate (getP s k) c) (coordinate t' c) j x ∧
        (∀ c', c' ≠ c → coordinate t' c' = coordinate (getP s k) c') ∧
        Writes (pointOff k c j) x s (writeP k t' s))

/-- R69: while a command is in flight, writes of W, P and CMD words are dropped with BUSY_VIOLATION and CMD_OVERRUN, answered OKAY;
W and P words read as stored. -/
def Obligations.BusyDiscipline : Prop :=
  ∀ (c x : Bus) (s : State), s.pending = some c →
    (∀ i j, Writes (wordOff i j) x s (recorded .busyViolation ((wordOff i j).setWidth 32) s)) ∧
    (∀ k d j, Writes (pointOff k d j) x s (recorded .busyViolation ((pointOff k d j).setWidth 32) s)) ∧
    Writes 0x010 x s (recorded .cmdOverrun x s) ∧
    (∀ i j v, Reads (wordOff i j) s v ↔ Reads (wordOff i j) { s with pending := none } v) ∧
    (∀ k d j v, Reads (pointOff k d j) s v ↔ Reads (pointOff k d j) { s with pending := none } v)

/-- R70: a read that is answered changes nothing in the block, so a repeated read returns the same. -/
def Obligations.ReadsHaveNoSideEffect : Prop :=
  ∀ (a : BusAccess) (s t : State), readTurn a s = .next t → t = { s with resp := t.resp } ∧ readTurn a t = .next t

/-- R47, R340, R341: a hard reset, and a write to CTRL with bit 1 set, busy or not, leave every piece of state at its reset value;
a command in flight is abandoned. -/
def Obligations.ResetLeavesResetValues : Prop :=
  ∀ (v : Bus) (s : State),
    (∃ t, resetTurn s = .next t ∧ ResetValues s t) ∧
    (v.getLsbD 1 = true → ∃ t, Writes 0x004 v s t ∧ ResetValues s t) ∧
    ResetValues State.reset State.reset

/-- R320: irq is IE and (DONE or ERR); clearing both by STATUS, clearing IE, a reset, or an issue with ERR clear lowers it. -/
def Obligations.InterruptLine : Prop :=
  ∀ (c v : Bus) (s t : State),
    irq s = (s.ie && (s.done || s.err)) ∧
    (Writes 0x008 v s t → v.getLsbD 1 = true → v.getLsbD 2 = true → irq t = false) ∧
    (Writes 0x004 v s t → v.getLsbD 0 = false → irq t = false) ∧
    (Writes 0x010 c s t → s.pending = none → s.err = false → irq t = false) ∧
    (resetTurn s = .next t → irq t = false)

/-! ### Sequencer commands (spec/40_control.md) -/

/-- R130, R131: NOP does nothing but complete; MOV copies a raw word, whatever it holds. -/
def Obligations.NopMovResults : Prop :=
  CommandWords 0x00 (fun (_ : Unit) => 0x00000000) (fun _ => .nop) ∧
  (∀ s : State, exec .nop s = .next (completed s)) ∧
  CommandWords 0x01 (fun (x : WReg × WReg) => cmdWord 0x01 0 (wField x.1) (wField x.2) 0 0) (fun x => .mov x.1 x.2) ∧
  (∀ (rd rs : WReg) (s : State), exec (.mov rd rs) s = .next (completed (writeW rd (getW s rs) s)))

/-- R132, R28: LDC loads the constant of its index. -/
def Obligations.LdcResult : Prop :=
  CommandWords 0x02 (fun (x : WReg × Fin 12) => cmdWord 0x02 0 (wField x.1) 0 0 (BitVec.ofNat 8 x.2.val))
    (fun x => .ldc x.1 (BitVec.ofNat 8 x.2.val)) ∧
  (∀ (rd : WReg) (idx : Fin 12) (v : Word) (s : State), romEntries[idx.val]? = some v →
    exec (.ldc rd (BitVec.ofNat 8 idx.val)) s = .next (completed (writeW rd v s)))

/-- R133: CMP compares two raw words as unsigned integers; INF is unchanged. -/
def Obligations.CmpResult : Prop :=
  CommandWords 0x03 (fun (x : WReg × WReg) => cmdWord 0x03 0 0 (wField x.1) (wField x.2) 0) (fun x => .cmp x.1 x.2) ∧
  (∀ (ra rb : WReg) (s : State),
    exec (.cmp ra rb) s = .next (completed { s with
      eq := decide ((getW s ra).toNat = (getW s rb).toNat)
      lt := decide ((getW s ra).toNat < (getW s rb).toNat)
      odd := decide ((getW s ra).toNat % 2 = 1) }))

/-- R134: ZEROIZE clears every word and point register, the flags and the nonce state, and leaves the rest. -/
def Obligations.ZeroizeResult : Prop :=
  CommandWords 0x0F (fun (_ : Unit) => 0x0F000000) (fun _ => .zeroize) ∧
  (∀ s : State, ∃ t : State, exec .zeroize s = .next t ∧
    (∀ r, getW t r = 0) ∧ (∀ r, getP t r = ⟨0, 0, 0⟩) ∧
    t = completed { s with
      w := t.w, p := t.p, eq := false, lt := false, odd := false, inf := false
      ngK := 0, ngV := 0, ngReady := false, ngFirst := false })

/-! ### Modular arithmetic (spec/41_modular_add_sub.md, spec/42_montgomery_multiplier.md, spec/43_field_inverter.md) -/

/-- R150, R151: MADD and MSUB; OVF(M) if either operand is not below m. -/
def Obligations.MaddMsubResults : Prop :=
  CommandWords 0x10 (fun (x : Modulus × WReg × WReg × WReg) => cmdWord 0x10 (mBit x.1) (wField x.2.1) (wField x.2.2.1) (wField x.2.2.2) 0)
    (fun x => .madd x.1 x.2.1 x.2.2.1 x.2.2.2) ∧
  CommandWords 0x11 (fun (x : Modulus × WReg × WReg × WReg) => cmdWord 0x11 (mBit x.1) (wField x.2.1) (wField x.2.2.1) (wField x.2.2.2) 0)
    (fun x => .msub x.1 x.2.1 x.2.2.1 x.2.2.2) ∧
  ∀ (m : Modulus) (rd ra rb : WReg) (s : State),
    ((getW s ra).toNat < modulus m → (getW s rb).toNat < modulus m →
      exec (.madd m rd ra rb) s = .next (completed
        (writeW rd (BitVec.ofNat 256 (((getW s ra).toNat + (getW s rb).toNat) % modulus m)) s)) ∧
      exec (.msub m rd ra rb) s = .next (completed
        (writeW rd (BitVec.ofNat 256 (((getW s ra).toNat + (modulus m - (getW s rb).toNat)) % modulus m)) s))) ∧
    (modulus m ≤ (getW s ra).toNat ∨ modulus m ≤ (getW s rb).toNat →
      exec (.madd m rd ra rb) s =
        .next (failed (ovf m) (cmdWord 0x10 (mBit m) (wField rd) (wField ra) (wField rb) 0) s) ∧
      exec (.msub m rd ra rb) s =
        .next (failed (ovf m) (cmdWord 0x11 (mBit m) (wField rd) (wField ra) (wField rb) 0) s))

/-- R152, R153: MNEG; MCNEG negates when the selected flag, inverted by IMM8[2], is 1, and always writes RD. -/
def Obligations.MnegMcnegResults : Prop :=
  CommandWords 0x12 (fun (x : Modulus × WReg × WReg) => cmdWord 0x12 (mBit x.1) (wField x.2.1) (wField x.2.2) 0 0)
    (fun x => .mneg x.1 x.2.1 x.2.2) ∧
  CommandWords 0x13 (fun (x : Modulus × WReg × WReg × Flag × Bool) =>
      cmdWord 0x13 (mBit x.1) (wField x.2.1) (wField x.2.2.1) 0 (condImm x.2.2.2.1 x.2.2.2.2))
    (fun x => .mcneg x.1 x.2.1 x.2.2.1 x.2.2.2.1 x.2.2.2.2) ∧
  ∀ (m : Modulus) (rd ra : WReg) (f : Flag) (inv : Bool) (s : State),
    ((getW s ra).toNat < modulus m →
      (let neg : Word := BitVec.ofNat 256 ((modulus m - (getW s ra).toNat) % modulus m)
       exec (.mneg m rd ra) s = .next (completed (writeW rd neg s)) ∧
       exec (.mcneg m rd ra f inv) s =
         .next (completed (writeW rd (if (flagIn s f ^^ inv) = true then neg else getW s ra) s)))) ∧
    (modulus m ≤ (getW s ra).toNat →
      exec (.mneg m rd ra) s = .next (failed (ovf m) (cmdWord 0x12 (mBit m) (wField rd) (wField ra) 0 0) s) ∧
      exec (.mcneg m rd ra f inv) s =
        .next (failed (ovf m) (cmdWord 0x13 (mBit m) (wField rd) (wField ra) 0 (condImm f inv)) s))

/-- R154, R155: MRED and MREDW reduce any raw value; they raise nothing. -/
def Obligations.MredMredwResults : Prop :=
  CommandWords 0x14 (fun (x : Modulus × WReg × WReg) => cmdWord 0x14 (mBit x.1) (wField x.2.1) (wField x.2.2) 0 0)
    (fun x => .mred x.1 x.2.1 x.2.2) ∧
  CommandWords 0x15 (fun (x : Modulus × WReg × WReg × WReg) => cmdWord 0x15 (mBit x.1) (wField x.2.1) (wField x.2.2.1) (wField x.2.2.2) 0)
    (fun x => .mredw x.1 x.2.1 x.2.2.1 x.2.2.2) ∧
  ∀ (m : Modulus) (rd ra rb : WReg) (s : State),
    exec (.mred m rd ra) s = .next (completed (writeW rd (BitVec.ofNat 256 ((getW s ra).toNat % modulus m)) s)) ∧
    exec (.mredw m rd ra rb) s = .next (completed
      (writeW rd (BitVec.ofNat 256 (((getW s ra).toNat * 2 ^ 256 + (getW s rb).toNat) % modulus m)) s))

/-- R170 to R172, R176: the Montgomery product and conversions, each told by what R = 2^256 times the result is modulo m, the
result canonical; and FROMMONT gives back what TOMONT took. -/
def Obligations.MontgomeryResults : Prop :=
  CommandWords 0x20 (fun (x : Modulus × WReg × WReg × WReg) => cmdWord 0x20 (mBit x.1) (wField x.2.1) (wField x.2.2.1) (wField x.2.2.2) 0)
    (fun x => .montmul x.1 x.2.1 x.2.2.1 x.2.2.2) ∧
  CommandWords 0x21 (fun (x : Modulus × WReg × WReg) => cmdWord 0x21 (mBit x.1) (wField x.2.1) (wField x.2.2) 0 0)
    (fun x => .tomont x.1 x.2.1 x.2.2) ∧
  CommandWords 0x22 (fun (x : Modulus × WReg × WReg) => cmdWord 0x22 (mBit x.1) (wField x.2.1) (wField x.2.2) 0 0)
    (fun x => .frommont x.1 x.2.1 x.2.2) ∧
  ∀ (m : Modulus) (rd ra rb : WReg) (s : State),
    ((getW s ra).toNat < modulus m →
      ((getW s rb).toNat < modulus m → ∃ v : Word, v.toNat < modulus m ∧
        v.toNat * 2 ^ 256 % modulus m = (getW s ra).toNat * (getW s rb).toNat % modulus m ∧
        exec (.montmul m rd ra rb) s = .next (completed (writeW rd v s))) ∧
      exec (.tomont m rd ra) s = .next (completed
        (writeW rd (BitVec.ofNat 256 ((getW s ra).toNat * 2 ^ 256 % modulus m)) s)) ∧
      (∃ v : Word, v.toNat < modulus m ∧ v.toNat * 2 ^ 256 % modulus m = (getW s ra).toNat ∧
        exec (.frommont m rd ra) s = .next (completed (writeW rd v s))) ∧
      (∃ t, inSequence [.tomont m rd ra, .frommont m rd rd] s = .next t ∧ getW t rd = getW s ra)) ∧
    (modulus m ≤ (getW s ra).toNat →
      exec (.tomont m rd ra) s = .next (failed (ovf m) (cmdWord 0x21 (mBit m) (wField rd) (wField ra) 0 0) s) ∧
      exec (.frommont m rd ra) s = .next (failed (ovf m) (cmdWord 0x22 (mBit m) (wField rd) (wField ra) 0 0) s)) ∧
    (modulus m ≤ (getW s ra).toNat ∨ modulus m ≤ (getW s rb).toNat →
      exec (.montmul m rd ra rb) s =
        .next (failed (ovf m) (cmdWord 0x20 (mBit m) (wField rd) (wField ra) (wField rb) 0) s))

/-- R173, R174: the modular product and square. -/
def Obligations.MmulMsqrResults : Prop :=
  CommandWords 0x23 (fun (x : Modulus × WReg × WReg × WReg) => cmdWord 0x23 (mBit x.1) (wField x.2.1) (wField x.2.2.1) (wField x.2.2.2) 0)
    (fun x => .mmul x.1 x.2.1 x.2.2.1 x.2.2.2) ∧
  CommandWords 0x24 (fun (x : Modulus × WReg × WReg) => cmdWord 0x24 (mBit x.1) (wField x.2.1) (wField x.2.2) 0 0)
    (fun x => .msqr x.1 x.2.1 x.2.2) ∧
  ∀ (m : Modulus) (rd ra rb : WReg) (s : State),
    ((getW s ra).toNat < modulus m →
      ((getW s rb).toNat < modulus m →
        exec (.mmul m rd ra rb) s = .next (completed
          (writeW rd (BitVec.ofNat 256 ((getW s ra).toNat * (getW s rb).toNat % modulus m)) s))) ∧
      exec (.msqr m rd ra) s = .next (completed
        (writeW rd (BitVec.ofNat 256 ((getW s ra).toNat * (getW s ra).toNat % modulus m)) s))) ∧
    (modulus m ≤ (getW s ra).toNat →
      exec (.msqr m rd ra) s = .next (failed (ovf m) (cmdWord 0x24 (mBit m) (wField rd) (wField ra) 0 0) s)) ∧
    (modulus m ≤ (getW s ra).toNat ∨ modulus m ≤ (getW s rb).toNat →
      exec (.mmul m rd ra rb) s =
        .next (failed (ovf m) (cmdWord 0x23 (mBit m) (wField rd) (wField ra) (wField rb) 0) s))

/-- R175: MPOW writes a^e mod m for every 256-bit exponent e, 0^0 = 1; only the base is checked. -/
def Obligations.MpowResult : Prop :=
  CommandWords 0x25 (fun (x : Modulus × WReg × WReg × WReg) => cmdWord 0x25 (mBit x.1) (wField x.2.1) (wField x.2.2.1) (wField x.2.2.2) 0)
    (fun x => .mpow x.1 x.2.1 x.2.2.1 x.2.2.2) ∧
  ∀ (m : Modulus) (rd ra re : WReg) (s : State),
    ((getW s ra).toNat < modulus m →
      exec (.mpow m rd ra re) s = .next (completed
        (writeW rd (BitVec.ofNat 256 ((getW s ra).toNat ^ (getW s re).toNat % modulus m)) s))) ∧
    (modulus m ≤ (getW s ra).toNat →
      exec (.mpow m rd ra re) s =
        .next (failed (ovf m) (cmdWord 0x25 (mBit m) (wField rd) (wField ra) (wField re) 0) s))

/-- R190, R192: MINV writes a^(m - 2) mod m, which is the inverse of a; the inverse of 0 is INVALID_FIELD_ELEMENT. -/
def Obligations.MinvResult : Prop :=
  CommandWords 0x30 (fun (x : Modulus × WReg × WReg) => cmdWord 0x30 (mBit x.1) (wField x.2.1) (wField x.2.2) 0 0)
    (fun x => .minv x.1 x.2.1 x.2.2) ∧
  ∀ (m : Modulus) (rd ra : WReg) (s : State),
    ((getW s ra).toNat < modulus m → (getW s ra).toNat ≠ 0 →
      ∃ v : Word, v.toNat = (getW s ra).toNat ^ (modulus m - 2) % modulus m ∧
        v.toNat < modulus m ∧ (getW s ra).toNat * v.toNat % modulus m = 1 ∧
        exec (.minv m rd ra) s = .next (completed (writeW rd v s))) ∧
    ((getW s ra).toNat = 0 →
      exec (.minv m rd ra) s =
        .next (failed .invalidFieldElement (cmdWord 0x30 (mBit m) (wField rd) (wField ra) 0 0) s)) ∧
    (modulus m ≤ (getW s ra).toNat →
      exec (.minv m rd ra) s = .next (failed (ovf m) (cmdWord 0x30 (mBit m) (wField rd) (wField ra) 0 0) s))

/-- R191: MSQRT writes a^((P + 1)/4) mod P when it is a root of a, which is whenever a has one; otherwise it clears EQ alone. -/
def Obligations.MsqrtResult : Prop :=
  CommandWords 0x31 (fun (x : WReg × WReg) => cmdWord 0x31 0 (wField x.1) (wField x.2) 0 0) (fun x => .msqrt x.1 x.2) ∧
  ∀ (rd ra : WReg) (s : State),
    ((getW s ra).toNat < fieldP →
      (let r := (getW s ra).toNat ^ ((fieldP + 1) / 4) % fieldP
       (r * r % fieldP = (getW s ra).toNat →
         exec (.msqrt rd ra) s = .next (completed (writeW rd (BitVec.ofNat 256 r)
           { s with eq := true, odd := decide (r % 2 = 1) }))) ∧
       (r * r % fieldP ≠ (getW s ra).toNat →
         exec (.msqrt rd ra) s = .next (completed { s with eq := false })) ∧
       ((∃ y, y * y % fieldP = (getW s ra).toNat) → r * r % fieldP = (getW s ra).toNat))) ∧
    (fieldP ≤ (getW s ra).toNat →
      exec (.msqrt rd ra) s = .next (failed .fieldOverflow (cmdWord 0x31 0 (wField rd) (wField ra) 0 0) s))

/-! ### Point engines (spec/44_point_engines.md) -/

/-- R201 to R203: PINF, PGEN, and PMOV, which copies any triple exactly and writes no flag. -/
def Obligations.PinfPgenPmovResults : Prop :=
  CommandWords 0x40 (fun (pd : PReg) => cmdWord 0x40 0 (pField pd) 0 0 0) (fun pd => .pinf pd) ∧
  CommandWords 0x41 (fun (pd : PReg) => cmdWord 0x41 0 (pField pd) 0 0 0) (fun pd => .pgen pd) ∧
  CommandWords 0x42 (fun (x : PReg × PReg) => cmdWord 0x42 0 (pField x.1) (pField x.2) 0 0) (fun x => .pmov x.1 x.2) ∧
  ∀ (pd ps : PReg) (s : State),
    exec (.pinf pd) s = .next (completed (writeP pd idPoint { s with inf := true })) ∧
    exec (.pgen pd) s = .next (completed (writeP pd genPoint { s with inf := false })) ∧
    exec (.pmov pd ps) s = .next (completed (writeP pd (getP s ps) s))

/-- R204: PLDA loads an affine point of the curve, and nothing else. -/
def Obligations.PldaResult : Prop :=
  CommandWords 0x43 (fun (x : PReg × WReg × WReg) => cmdWord 0x43 0 (pField x.1) (wField x.2.1) (wField x.2.2) 0)
    (fun x => .plda x.1 x.2.1 x.2.2) ∧
  ∀ (pd : PReg) (wx wy : WReg) (s : State),
    let x := (getW s wx).toNat
    let y := (getW s wy).toNat
    (x < fieldP → y < fieldP → y ^ 2 % fieldP = (x ^ 3 + 7) % fieldP →
      exec (.plda pd wx wy) s = .next (completed (writeP pd ⟨getW s wx, getW s wy, 1⟩ { s with inf := false }))) ∧
    (fieldP ≤ x ∨ fieldP ≤ y ∨ y ^ 2 % fieldP ≠ (x ^ 3 + 7) % fieldP →
      exec (.plda pd wx wy) s =
        .next (failed .invalidPoint (cmdWord 0x43 0 (pField pd) (wField wx) (wField wy) 0) s))

/-- R205: PLIFT loads the point with this x and the asked parity of y, or raises INVALID_POINT. r is a root of c whenever c has
one, no x gives c = 0, and x = 0 has no root. -/
def Obligations.PliftResult : Prop :=
  CommandWords 0x44 (fun (x : PReg × WReg × Bool) =>
      cmdWord 0x44 0 (pField x.1) (wField x.2.1) 0 (if x.2.2 then 1 else 0))
    (fun x => .plift x.1 x.2.1 x.2.2) ∧
  ∀ (pd : PReg) (wx : WReg) (par : Bool) (s : State),
    let x := (getW s wx).toNat
    let c := (x ^ 3 + 7) % fieldP
    let r := c ^ ((fieldP + 1) / 4) % fieldP
    let y := if decide (r % 2 = 1) = par then r else (fieldP - r) % fieldP
    (x < fieldP → r * r % fieldP = c →
      exec (.plift pd wx par) s = .next (completed (writeP pd ⟨getW s wx, BitVec.ofNat 256 y, 1⟩
        { s with inf := false, odd := decide (y % 2 = 1) })) ∧ decide (y % 2 = 1) = par) ∧
    c ≠ 0 ∧ ((∃ z, z * z % fieldP = c) → r * r % fieldP = c) ∧ (x = 0 → r * r % fieldP ≠ c) ∧
    (fieldP ≤ x ∨ r * r % fieldP ≠ c →
      exec (.plift pd wx par) s = .next (failed .invalidPoint
        (cmdWord 0x44 0 (pField pd) (wField wx) 0 (if par then 1 else 0)) s))

/-- R206: PNEG negates y, which is never 0 in a valid finite triple; the identity becomes ID. -/
def Obligations.PnegResult : Prop :=
  CommandWords 0x45 (fun (x : PReg × PReg) => cmdWord 0x45 0 (pField x.1) (pField x.2) 0 0) (fun x => .pneg x.1 x.2) ∧
  (∀ t : Triple, Valid t → t.z ≠ 0 → t.y ≠ 0) ∧
  ∀ (pd ps : PReg) (s : State),
    (Valid (getP s ps) → (getP s ps).z = 0 →
      exec (.pneg pd ps) s = .next (completed (writeP pd idPoint { s with inf := true }))) ∧
    (Valid (getP s ps) → (getP s ps).z ≠ 0 →
      exec (.pneg pd ps) s = .next (completed (writeP pd
        ⟨(getP s ps).x, BitVec.ofNat 256 ((fieldP - (getP s ps).y.toNat) % fieldP), (getP s ps).z⟩
        { s with inf := false }))) ∧
    (¬ Valid (getP s ps) →
      exec (.pneg pd ps) s = .next (failed .invalidPoint (cmdWord 0x45 0 (pField pd) (pField ps) 0 0) s))

/-- R207 but its corner case on a non-canonical identity, with R213: PADD writes JADD of two valid triples, the exact triple. The
sum of two identities is ID, by R213's first line, where R207's corner case would leave B as it was (log 20). -/
def Obligations.PaddResult : Prop :=
  CommandWords 0x46 (fun (x : PReg × PReg × PReg) => cmdWord 0x46 0 (pField x.1) (pField x.2.1) (pField x.2.2) 0)
    (fun x => .padd x.1 x.2.1 x.2.2) ∧
  ∀ (pd pa pb : PReg) (s : State),
    (Valid (getP s pa) → Valid (getP s pb) →
      exec (.padd pd pa pb) s = .next (completed (writeP pd (added (getP s pa) (getP s pb))
        { s with inf := decide ((added (getP s pa) (getP s pb)).z = 0) }))) ∧
    (¬ Valid (getP s pa) ∨ ¬ Valid (getP s pb) →
      exec (.padd pd pa pb) s =
        .next (failed .invalidPoint (cmdWord 0x46 0 (pField pd) (pField pa) (pField pb) 0) s))

/-- R208, R212: PDBL writes JDBL of a valid triple, the exact triple. -/
def Obligations.PdblResult : Prop :=
  CommandWords 0x47 (fun (x : PReg × PReg) => cmdWord 0x47 0 (pField x.1) (pField x.2) 0 0) (fun x => .pdbl x.1 x.2) ∧
  ∀ (pd pa : PReg) (s : State),
    (Valid (getP s pa) →
      exec (.pdbl pd pa) s = .next (completed (writeP pd (doubled (getP s pa))
        { s with inf := decide ((doubled (getP s pa)).z = 0) }))) ∧
    (¬ Valid (getP s pa) →
      exec (.pdbl pd pa) s = .next (failed .invalidPoint (cmdWord 0x47 0 (pField pd) (pField pa) 0 0) s))

/-- R209: PEQ sets EQ by the Jacobian weights, identities first. -/
def Obligations.PeqResult : Prop :=
  CommandWords 0x48 (fun (x : PReg × PReg) => cmdWord 0x48 0 0 (pField x.1) (pField x.2) 0) (fun x => .peq x.1 x.2) ∧
  ∀ (pa pb : PReg) (s : State),
    let t := getP s pa
    let u := getP s pb
    (Valid t → Valid u → t.z = 0 ∨ u.z = 0 →
      exec (.peq pa pb) s = .next (completed { s with eq := decide (t.z = 0 ∧ u.z = 0) })) ∧
    (Valid t → Valid u → t.z ≠ 0 → u.z ≠ 0 →
      exec (.peq pa pb) s = .next (completed { s with
        eq := decide (toFp t.x * toFp u.z ^ 2 = toFp u.x * toFp t.z ^ 2 ∧
          toFp t.y * toFp u.z ^ 3 = toFp u.y * toFp t.z ^ 3) })) ∧
    (¬ Valid t ∨ ¬ Valid u →
      exec (.peq pa pb) s = .next (failed .invalidPoint (cmdWord 0x48 0 0 (pField pa) (pField pb) 0) s))

/-- R210: PTST answers INVALID_POINT for a triple that is not valid, else sets INF. -/
def Obligations.PtstResult : Prop :=
  CommandWords 0x49 (fun (ps : PReg) => cmdWord 0x49 0 0 (pField ps) 0 0) (fun ps => .ptst ps) ∧
  ∀ (ps : PReg) (s : State),
    (Valid (getP s ps) →
      exec (.ptst ps) s = .next (completed { s with inf := decide ((getP s ps).z = 0) })) ∧
    (¬ Valid (getP s ps) →
      exec (.ptst ps) s = .next (failed .invalidPoint (cmdWord 0x49 0 0 (pField ps) 0 0) s))

/-- R211, R14: PAFF writes the canonical x with x·Z² = X, then the canonical y with y·Z³ = Y, and ODD. -/
def Obligations.PaffResult : Prop :=
  CommandWords 0x4A (fun (x : WReg × WReg × PReg) => cmdWord 0x4A 0 (wField x.1) (pField x.2.2) (wField x.2.1) 0)
    (fun x => .paff x.1 x.2.1 x.2.2) ∧
  ∀ (wx wy : WReg) (ps : PReg) (s : State),
    let t := getP s ps
    (Valid t → t.z ≠ 0 →
      ∃ x y : Word, x.toNat < fieldP ∧ y.toNat < fieldP ∧
        toFp x * toFp t.z ^ 2 = toFp t.x ∧ toFp y * toFp t.z ^ 3 = toFp t.y ∧
        exec (.paff wx wy ps) s = .next (completed
          (writeW wy y (writeW wx x { s with odd := decide (y.toNat % 2 = 1) })))) ∧
    (t.z = 0 →
      exec (.paff wx wy ps) s = .next (failed .pointAtInfinity
        (cmdWord 0x4A 0 (wField wx) (pField ps) (wField wy) 0) s)) ∧
    (¬ Valid t →
      exec (.paff wx wy ps) s = .next (failed .invalidPoint
        (cmdWord 0x4A 0 (wField wx) (pField ps) (wField wy) 0) s))

/-- R214, R24, R209: JADD and JDBL give valid triples that denote the group sum and the double; JADD(A, A) is JDBL(A) exactly,
and adding ID changes nothing for a finite A and for ID itself (an identity with other X and Y becomes ID, by R213's first
line, log 20); JADD(A, B) and JADD(B, A) denote the same element, and PEQ's EQ is equality of elements. -/
def Obligations.GroupLaw : Prop :=
  ∀ [Fact (Nat.Prime fieldP)] (A B : Triple), Valid A → Valid B →
    Valid (jadd A B) ∧ Valid (jdbl A) ∧ jadd A A = jdbl A ∧
    (A.z ≠ 0 ∨ A = idPoint → jadd A idPoint = A ∧ jadd idPoint A = A) ∧
    ∃ Q R : Pt, Denotes A Q ∧ Denotes B R ∧
      Denotes (jadd A B) (Q + R) ∧ Denotes (jadd B A) (Q + R) ∧ Denotes (jdbl A) (2 • Q) ∧
      ∀ (pa pb : PReg) (s : State), getP s pa = A → getP s pb = B →
        exec (.peq pa pb) s = .next (completed { s with eq := decide (Q = R) })

/-! ### Scalar multipliers (spec/45_scalar_multipliers.md) -/

/-- R242, R240: PRECOMP builds the table of width 4 or 8, or drops it for width 0, and changes nothing else. -/
def Obligations.PrecompResult : Prop :=
  CommandWords 0x50 (fun (w : TblWidth) => cmdWord 0x50 0 0 0 0 (0#4 ++ widthOf w)) (fun w => .precomp (0#4 ++ widthOf w)) ∧
  ∀ (w : TblWidth) (s : State), exec (.precomp (0#4 ++ widthOf w)) s = .next (completed (built w s))

/-- R243, R241: PMULG writes the normal form of k·G, INF = (k = 0), and builds the table of width 8 if none is built; k ≥ N is
SCALAR_OVERFLOW and builds nothing. The stored form of a built table is the model's choice (log 9). -/
def Obligations.PmulgResult : Prop :=
  CommandWords 0x51 (fun (x : PReg × WReg) => cmdWord 0x51 0 (pField x.1) (wField x.2) 0 0) (fun x => .pmulg x.1 x.2) ∧
  ∀ [Fact (Nat.Prime fieldP)] (pd : PReg) (wk : WReg) (s : State),
    (∀ G : Pt, Denotes genPoint G → (getW s wk).toNat < orderN →
      ∃ R : Triple, Normal R ∧ Denotes R ((getW s wk).toNat • G) ∧ (R.z = 0 ↔ getW s wk = 0) ∧
        exec (.pmulg pd wk) s = .next (completed (writeP pd R
          { (if s.tblValid = true then s else built .w8 s) with inf := decide (R.z = 0) }))) ∧
    (orderN ≤ (getW s wk).toNat →
      exec (.pmulg pd wk) s =
        .next (failed .scalarOverflow (cmdWord 0x51 0 (pField pd) (wField wk) 0 0) s))

/-- R244, R241: PMUL writes the normal form of k·Q; the point is checked before the scalar. -/
def Obligations.PmulResult : Prop :=
  CommandWords 0x52 (fun (x : PReg × PReg × WReg) => cmdWord 0x52 0 (pField x.1) (pField x.2.1) (wField x.2.2) 0)
    (fun x => .pmul x.1 x.2.1 x.2.2) ∧
  ∀ [Fact (Nat.Prime fieldP)] (pd pq : PReg) (wk : WReg) (s : State),
    (∀ Q : Pt, Valid (getP s pq) → Denotes (getP s pq) Q → (getW s wk).toNat < orderN →
      ∃ R : Triple, Normal R ∧ Denotes R ((getW s wk).toNat • Q) ∧
        exec (.pmul pd pq wk) s = .next (completed (writeP pd R { s with inf := decide (R.z = 0) }))) ∧
    (¬ Valid (getP s pq) →
      exec (.pmul pd pq wk) s =
        .next (failed .invalidPoint (cmdWord 0x52 0 (pField pd) (pField pq) (wField wk) 0) s)) ∧
    (Valid (getP s pq) → orderN ≤ (getW s wk).toNat →
      exec (.pmul pd pq wk) s =
        .next (failed .scalarOverflow (cmdWord 0x52 0 (pField pd) (pField pq) (wField wk) 0) s))

/-- R245, R241: PMUL2 writes the normal form of k·G + l·Q; both scalars are checked before the point, and the table stays. -/
def Obligations.PmulTwoResult : Prop :=
  CommandWords 0x53 (fun (x : PReg × WReg × WReg × PReg) =>
      cmdWord 0x53 0 (pField x.1) (wField x.2.1) (wField x.2.2.1) (0#4 ++ pField x.2.2.2))
    (fun x => .pmul2 x.1 x.2.1 x.2.2.1 x.2.2.2) ∧
  ∀ [Fact (Nat.Prime fieldP)] (pd pq : PReg) (wk wl : WReg) (s : State),
    let word := cmdWord 0x53 0 (pField pd) (wField wk) (wField wl) (0#4 ++ pField pq)
    (∀ G Q : Pt, Denotes genPoint G → Valid (getP s pq) → Denotes (getP s pq) Q →
      (getW s wk).toNat < orderN → (getW s wl).toNat < orderN →
      ∃ R : Triple, Normal R ∧ Denotes R ((getW s wk).toNat • G + (getW s wl).toNat • Q) ∧
        exec (.pmul2 pd wk wl pq) s = .next (completed (writeP pd R { s with inf := decide (R.z = 0) }))) ∧
    (orderN ≤ (getW s wk).toNat ∨ orderN ≤ (getW s wl).toNat →
      exec (.pmul2 pd wk wl pq) s = .next (failed .scalarOverflow word s)) ∧
    ((getW s wk).toNat < orderN → (getW s wl).toNat < orderN → ¬ Valid (getP s pq) →
      exec (.pmul2 pd wk wl pq) s = .next (failed .invalidPoint word s))

/-- R244 (its corner cases; R3: the order N is prime and the cofactor is 1): PMUL sets INF exactly when k = 0 or Q is the
identity. -/
def Obligations.PmulIdentityExactly : Prop :=
  ∀ (pd pq : PReg) (wk : WReg) (s : State), Valid (getP s pq) → (getW s wk).toNat < orderN →
    ∃ t, exec (.pmul pd pq wk) s = .next t ∧ (t.inf = true ↔ getW s wk = 0 ∨ (getP s pq).z = 0)

/-- R247, R241, R40: reading the stored table of either width as R247 does gives exactly what PMULG writes. -/
def Obligations.WindowMethodAgrees : Prop :=
  ∀ (w : TblWidth) (pd : PReg) (wk : WReg) (s : State), w ≠ .none → (getW s wk).toNat < orderN →
    ∃ t, exec (.pmulg pd wk) s = .next t ∧ getP t pd = windowedMul w (getW s wk)

/-! ### Nonce generator (spec/46_nonce_generator.md) -/

/-- R261, R260: NINIT's four HMAC calls and what they leave; a key outside [1, N) is INVALID_PRIVATE_KEY; while a call has no
answer the command waits and nothing changes (R363). -/
def Obligations.NinitResult : Prop :=
  CommandWords 0x60 (fun (x : Option WReg × WReg × WReg) =>
      cmdWord 0x60 0 (wField (x.1.getD 0)) (wField x.2.1) (wField x.2.2) (if x.1.isSome then 1 else 0))
    (fun x => .ninit x.1.isSome (x.1.getD 0) x.2.1 x.2.2) ∧
  ∀ (x : Option WReg) (wd wh : WReg) (s : State),
    let seed := seedOf (getW s wd) (getW s wh) (x.map (getW s))
    let ones := List.replicate 32 (0x01 : Byte)
    let i := Instr.ninit x.isSome (x.getD 0) wd wh
    (1 ≤ (getW s wd).toNat → (getW s wd).toNat < orderN →
      (∀ k1 v1 k2 v2, hmacAnswer s 0 (ones ++ [0x00] ++ seed) = some k1 → hmacAnswer s k1 ones = some v1 →
        hmacAnswer s k1 (bytes32 v1 ++ [0x01] ++ seed) = some k2 → hmacAnswer s k2 (bytes32 v1) = some v2 →
        exec i s = .next (completed { s with ngK := k2, ngV := v2, ngReady := true, ngFirst := true })) ∧
      ((hmacAnswer s 0 (ones ++ [0x00] ++ seed) = none ∨
          ∃ k1, hmacAnswer s 0 (ones ++ [0x00] ++ seed) = some k1 ∧
            (hmacAnswer s k1 ones = none ∨ ∃ v1, hmacAnswer s k1 ones = some v1 ∧
              (hmacAnswer s k1 (bytes32 v1 ++ [0x01] ++ seed) = none ∨
                ∃ k2, hmacAnswer s k1 (bytes32 v1 ++ [0x01] ++ seed) = some k2 ∧
                  hmacAnswer s k2 (bytes32 v1) = none))) →
        exec i s = .next s)) ∧
    ((getW s wd).toNat = 0 ∨ orderN ≤ (getW s wd).toNat →
      exec i s = .next (failed .invalidPrivateKey
        (cmdWord 0x60 0 (wField (x.getD 0)) (wField wd) (wField wh) (if x.isSome then 1 else 0)) s))

/-- R262: NGEN without NINIT is NONCE_STATE; an engine turn tries one candidate: in range it is written to W[RD] and kept as NG_V,
refused the loop goes on at the next turn (log 4). While any of its calls has no answer, an update at the start, the candidate's
own or an update after a refused candidate, the command waits and nothing changes (R363). -/
def Obligations.NgenTurn : Prop :=
  CommandWords 0x61 (fun (wk : WReg) => cmdWord 0x61 0 (wField wk) 0 0 0) (fun wk => .ngen wk) ∧
  ∀ (wk : WReg) (s : State),
    (s.ngReady = false →
      exec (.ngen wk) s = .next (failed .nonceState (cmdWord 0x61 0 (wField wk) 0 0 0) s)) ∧
    (s.ngReady = true → s.ngWork = none → s.ngFirst = false → UpdateUnanswered s s.ngK s.ngV →
      exec (.ngen wk) s = .next s) ∧
    (∀ K V, s.ngReady = true → (s.ngWork = some (K, V) ∨ (s.ngWork = none ∧ LoopStart s K V)) →
      (∀ k, hmacAnswer s K (bytes32 V) = some k → InRange k →
        exec (.ngen wk) s = .next (completed (writeW wk k { s with ngK := K, ngV := k, ngFirst := false }))) ∧
      (∀ k K' V', hmacAnswer s K (bytes32 V) = some k → ¬ InRange k →
        hmacAnswer s K (bytes32 k ++ [0x00]) = some K' → hmacAnswer s K' (bytes32 k) = some V' →
        exec (.ngen wk) s = .next { s with ngWork := some (K', V') }) ∧
      (hmacAnswer s K (bytes32 V) = none → exec (.ngen wk) s = .next s) ∧
      (∀ k, hmacAnswer s K (bytes32 V) = some k → ¬ InRange k → UpdateUnanswered s K k → exec (.ngen wk) s = .next s))

/-- R262, R263: from an NGEN in flight, the first candidate in range after n refused ones is written after n + 1 engine turns, for
every n: the loop has no bound. -/
def Obligations.NgenReturnsFirstCandidateInRange : Prop :=
  ∀ (n : Nat) (wk : WReg) (s : State) (K V K' k : Word),
    s.events = [] → s.pending = some (cmdWord 0x61 0 (wField wk) 0 0 0) → s.ngReady = true → s.ngWork = none →
    LoopStart s K V → Candidate (hmacAnswer s) n K V K' k →
    Host.Core.run Sys2Proof.core (n + 1) s =
      .next (completed (writeW wk k { s with ngK := K', ngV := k, ngFirst := false }))

end
end

