-- ==== Sys2Proof/Laws/State.lean ====
section
/-! SUPPORT. One lemma per field per update of State: what each named operation of Machine/Ops.lean and Machine/Flags.lean does to
each field, so that no proof unfolds a record update. -/

namespace Sys2Proof.Machine

@[simp] theorem setW_w (s : State) (r : WReg) (v : Word) : (setW s r v).w = s.w.set r.val v r.isLt := rfl
@[simp] theorem setW_p (s : State) (r : WReg) (v : Word) : (setW s r v).p = s.p := rfl
@[simp] theorem setW_eq (s : State) (r : WReg) (v : Word) : (setW s r v).eq = s.eq := rfl
@[simp] theorem setW_lt (s : State) (r : WReg) (v : Word) : (setW s r v).lt = s.lt := rfl
@[simp] theorem setW_odd (s : State) (r : WReg) (v : Word) : (setW s r v).odd = s.odd := rfl
@[simp] theorem setW_inf (s : State) (r : WReg) (v : Word) : (setW s r v).inf = s.inf := rfl
@[simp] theorem setW_ie (s : State) (r : WReg) (v : Word) : (setW s r v).ie = s.ie := rfl
@[simp] theorem setW_done (s : State) (r : WReg) (v : Word) : (setW s r v).done = s.done := rfl
@[simp] theorem setW_err (s : State) (r : WReg) (v : Word) : (setW s r v).err = s.err := rfl
@[simp] theorem setW_errcode (s : State) (r : WReg) (v : Word) : (setW s r v).errcode = s.errcode := rfl
@[simp] theorem setW_errcmd (s : State) (r : WReg) (v : Word) : (setW s r v).errcmd = s.errcmd := rfl
@[simp] theorem setW_cmdcnt (s : State) (r : WReg) (v : Word) : (setW s r v).cmdcnt = s.cmdcnt := rfl
@[simp] theorem setW_lastcmd (s : State) (r : WReg) (v : Word) : (setW s r v).lastcmd = s.lastcmd := rfl
@[simp] theorem setW_tblValid (s : State) (r : WReg) (v : Word) : (setW s r v).tblValid = s.tblValid := rfl
@[simp] theorem setW_tblW (s : State) (r : WReg) (v : Word) : (setW s r v).tblW = s.tblW := rfl
@[simp] theorem setW_tbl (s : State) (r : WReg) (v : Word) : (setW s r v).tbl = s.tbl := rfl
@[simp] theorem setW_ngK (s : State) (r : WReg) (v : Word) : (setW s r v).ngK = s.ngK := rfl
@[simp] theorem setW_ngV (s : State) (r : WReg) (v : Word) : (setW s r v).ngV = s.ngV := rfl
@[simp] theorem setW_ngReady (s : State) (r : WReg) (v : Word) : (setW s r v).ngReady = s.ngReady := rfl
@[simp] theorem setW_ngFirst (s : State) (r : WReg) (v : Word) : (setW s r v).ngFirst = s.ngFirst := rfl
@[simp] theorem setW_pending (s : State) (r : WReg) (v : Word) : (setW s r v).pending = s.pending := rfl
@[simp] theorem setW_ngWork (s : State) (r : WReg) (v : Word) : (setW s r v).ngWork = s.ngWork := rfl
@[simp] theorem setW_events (s : State) (r : WReg) (v : Word) : (setW s r v).events = s.events := rfl
@[simp] theorem setW_hmac (s : State) (r : WReg) (v : Word) : (setW s r v).hmac = s.hmac := rfl
@[simp] theorem setW_resp (s : State) (r : WReg) (v : Word) : (setW s r v).resp = s.resp := rfl

@[simp] theorem setP_w (s : State) (r : PReg) (t : Triple) : (setP s r t).w = s.w := rfl
@[simp] theorem setP_p (s : State) (r : PReg) (t : Triple) : (setP s r t).p = s.p.set r.val t r.isLt := rfl
@[simp] theorem setP_eq (s : State) (r : PReg) (t : Triple) : (setP s r t).eq = s.eq := rfl
@[simp] theorem setP_lt (s : State) (r : PReg) (t : Triple) : (setP s r t).lt = s.lt := rfl
@[simp] theorem setP_odd (s : State) (r : PReg) (t : Triple) : (setP s r t).odd = s.odd := rfl
@[simp] theorem setP_inf (s : State) (r : PReg) (t : Triple) : (setP s r t).inf = s.inf := rfl
@[simp] theorem setP_ie (s : State) (r : PReg) (t : Triple) : (setP s r t).ie = s.ie := rfl
@[simp] theorem setP_done (s : State) (r : PReg) (t : Triple) : (setP s r t).done = s.done := rfl
@[simp] theorem setP_err (s : State) (r : PReg) (t : Triple) : (setP s r t).err = s.err := rfl
@[simp] theorem setP_errcode (s : State) (r : PReg) (t : Triple) : (setP s r t).errcode = s.errcode := rfl
@[simp] theorem setP_errcmd (s : State) (r : PReg) (t : Triple) : (setP s r t).errcmd = s.errcmd := rfl
@[simp] theorem setP_cmdcnt (s : State) (r : PReg) (t : Triple) : (setP s r t).cmdcnt = s.cmdcnt := rfl
@[simp] theorem setP_lastcmd (s : State) (r : PReg) (t : Triple) : (setP s r t).lastcmd = s.lastcmd := rfl
@[simp] theorem setP_tblValid (s : State) (r : PReg) (t : Triple) : (setP s r t).tblValid = s.tblValid := rfl
@[simp] theorem setP_tblW (s : State) (r : PReg) (t : Triple) : (setP s r t).tblW = s.tblW := rfl
@[simp] theorem setP_tbl (s : State) (r : PReg) (t : Triple) : (setP s r t).tbl = s.tbl := rfl
@[simp] theorem setP_ngK (s : State) (r : PReg) (t : Triple) : (setP s r t).ngK = s.ngK := rfl
@[simp] theorem setP_ngV (s : State) (r : PReg) (t : Triple) : (setP s r t).ngV = s.ngV := rfl
@[simp] theorem setP_ngReady (s : State) (r : PReg) (t : Triple) : (setP s r t).ngReady = s.ngReady := rfl
@[simp] theorem setP_ngFirst (s : State) (r : PReg) (t : Triple) : (setP s r t).ngFirst = s.ngFirst := rfl
@[simp] theorem setP_pending (s : State) (r : PReg) (t : Triple) : (setP s r t).pending = s.pending := rfl
@[simp] theorem setP_ngWork (s : State) (r : PReg) (t : Triple) : (setP s r t).ngWork = s.ngWork := rfl
@[simp] theorem setP_events (s : State) (r : PReg) (t : Triple) : (setP s r t).events = s.events := rfl
@[simp] theorem setP_hmac (s : State) (r : PReg) (t : Triple) : (setP s r t).hmac = s.hmac := rfl
@[simp] theorem setP_resp (s : State) (r : PReg) (t : Triple) : (setP s r t).resp = s.resp := rfl

@[simp] theorem setEq_w (s : State) (b : Bool) : (setEq s b).w = s.w := rfl
@[simp] theorem setEq_p (s : State) (b : Bool) : (setEq s b).p = s.p := rfl
@[simp] theorem setEq_eq (s : State) (b : Bool) : (setEq s b).eq = b := rfl
@[simp] theorem setEq_lt (s : State) (b : Bool) : (setEq s b).lt = s.lt := rfl
@[simp] theorem setEq_odd (s : State) (b : Bool) : (setEq s b).odd = s.odd := rfl
@[simp] theorem setEq_inf (s : State) (b : Bool) : (setEq s b).inf = s.inf := rfl
@[simp] theorem setEq_ie (s : State) (b : Bool) : (setEq s b).ie = s.ie := rfl
@[simp] theorem setEq_done (s : State) (b : Bool) : (setEq s b).done = s.done := rfl
@[simp] theorem setEq_err (s : State) (b : Bool) : (setEq s b).err = s.err := rfl
@[simp] theorem setEq_errcode (s : State) (b : Bool) : (setEq s b).errcode = s.errcode := rfl
@[simp] theorem setEq_errcmd (s : State) (b : Bool) : (setEq s b).errcmd = s.errcmd := rfl
@[simp] theorem setEq_cmdcnt (s : State) (b : Bool) : (setEq s b).cmdcnt = s.cmdcnt := rfl
@[simp] theorem setEq_lastcmd (s : State) (b : Bool) : (setEq s b).lastcmd = s.lastcmd := rfl
@[simp] theorem setEq_tblValid (s : State) (b : Bool) : (setEq s b).tblValid = s.tblValid := rfl
@[simp] theorem setEq_tblW (s : State) (b : Bool) : (setEq s b).tblW = s.tblW := rfl
@[simp] theorem setEq_tbl (s : State) (b : Bool) : (setEq s b).tbl = s.tbl := rfl
@[simp] theorem setEq_ngK (s : State) (b : Bool) : (setEq s b).ngK = s.ngK := rfl
@[simp] theorem setEq_ngV (s : State) (b : Bool) : (setEq s b).ngV = s.ngV := rfl
@[simp] theorem setEq_ngReady (s : State) (b : Bool) : (setEq s b).ngReady = s.ngReady := rfl
@[simp] theorem setEq_ngFirst (s : State) (b : Bool) : (setEq s b).ngFirst = s.ngFirst := rfl
@[simp] theorem setEq_pending (s : State) (b : Bool) : (setEq s b).pending = s.pending := rfl
@[simp] theorem setEq_ngWork (s : State) (b : Bool) : (setEq s b).ngWork = s.ngWork := rfl
@[simp] theorem setEq_events (s : State) (b : Bool) : (setEq s b).events = s.events := rfl
@[simp] theorem setEq_hmac (s : State) (b : Bool) : (setEq s b).hmac = s.hmac := rfl
@[simp] theorem setEq_resp (s : State) (b : Bool) : (setEq s b).resp = s.resp := rfl

@[simp] theorem setOdd_w (s : State) (b : Bool) : (setOdd s b).w = s.w := rfl
@[simp] theorem setOdd_p (s : State) (b : Bool) : (setOdd s b).p = s.p := rfl
@[simp] theorem setOdd_eq (s : State) (b : Bool) : (setOdd s b).eq = s.eq := rfl
@[simp] theorem setOdd_lt (s : State) (b : Bool) : (setOdd s b).lt = s.lt := rfl
@[simp] theorem setOdd_odd (s : State) (b : Bool) : (setOdd s b).odd = b := rfl
@[simp] theorem setOdd_inf (s : State) (b : Bool) : (setOdd s b).inf = s.inf := rfl
@[simp] theorem setOdd_ie (s : State) (b : Bool) : (setOdd s b).ie = s.ie := rfl
@[simp] theorem setOdd_done (s : State) (b : Bool) : (setOdd s b).done = s.done := rfl
@[simp] theorem setOdd_err (s : State) (b : Bool) : (setOdd s b).err = s.err := rfl
@[simp] theorem setOdd_errcode (s : State) (b : Bool) : (setOdd s b).errcode = s.errcode := rfl
@[simp] theorem setOdd_errcmd (s : State) (b : Bool) : (setOdd s b).errcmd = s.errcmd := rfl
@[simp] theorem setOdd_cmdcnt (s : State) (b : Bool) : (setOdd s b).cmdcnt = s.cmdcnt := rfl
@[simp] theorem setOdd_lastcmd (s : State) (b : Bool) : (setOdd s b).lastcmd = s.lastcmd := rfl
@[simp] theorem setOdd_tblValid (s : State) (b : Bool) : (setOdd s b).tblValid = s.tblValid := rfl
@[simp] theorem setOdd_tblW (s : State) (b : Bool) : (setOdd s b).tblW = s.tblW := rfl
@[simp] theorem setOdd_tbl (s : State) (b : Bool) : (setOdd s b).tbl = s.tbl := rfl
@[simp] theorem setOdd_ngK (s : State) (b : Bool) : (setOdd s b).ngK = s.ngK := rfl
@[simp] theorem setOdd_ngV (s : State) (b : Bool) : (setOdd s b).ngV = s.ngV := rfl
@[simp] theorem setOdd_ngReady (s : State) (b : Bool) : (setOdd s b).ngReady = s.ngReady := rfl
@[simp] theorem setOdd_ngFirst (s : State) (b : Bool) : (setOdd s b).ngFirst = s.ngFirst := rfl
@[simp] theorem setOdd_pending (s : State) (b : Bool) : (setOdd s b).pending = s.pending := rfl
@[simp] theorem setOdd_ngWork (s : State) (b : Bool) : (setOdd s b).ngWork = s.ngWork := rfl
@[simp] theorem setOdd_events (s : State) (b : Bool) : (setOdd s b).events = s.events := rfl
@[simp] theorem setOdd_hmac (s : State) (b : Bool) : (setOdd s b).hmac = s.hmac := rfl
@[simp] theorem setOdd_resp (s : State) (b : Bool) : (setOdd s b).resp = s.resp := rfl

@[simp] theorem setInf_w (s : State) (b : Bool) : (setInf s b).w = s.w := rfl
@[simp] theorem setInf_p (s : State) (b : Bool) : (setInf s b).p = s.p := rfl
@[simp] theorem setInf_eq (s : State) (b : Bool) : (setInf s b).eq = s.eq := rfl
@[simp] theorem setInf_lt (s : State) (b : Bool) : (setInf s b).lt = s.lt := rfl
@[simp] theorem setInf_odd (s : State) (b : Bool) : (setInf s b).odd = s.odd := rfl
@[simp] theorem setInf_inf (s : State) (b : Bool) : (setInf s b).inf = b := rfl
@[simp] theorem setInf_ie (s : State) (b : Bool) : (setInf s b).ie = s.ie := rfl
@[simp] theorem setInf_done (s : State) (b : Bool) : (setInf s b).done = s.done := rfl
@[simp] theorem setInf_err (s : State) (b : Bool) : (setInf s b).err = s.err := rfl
@[simp] theorem setInf_errcode (s : State) (b : Bool) : (setInf s b).errcode = s.errcode := rfl
@[simp] theorem setInf_errcmd (s : State) (b : Bool) : (setInf s b).errcmd = s.errcmd := rfl
@[simp] theorem setInf_cmdcnt (s : State) (b : Bool) : (setInf s b).cmdcnt = s.cmdcnt := rfl
@[simp] theorem setInf_lastcmd (s : State) (b : Bool) : (setInf s b).lastcmd = s.lastcmd := rfl
@[simp] theorem setInf_tblValid (s : State) (b : Bool) : (setInf s b).tblValid = s.tblValid := rfl
@[simp] theorem setInf_tblW (s : State) (b : Bool) : (setInf s b).tblW = s.tblW := rfl
@[simp] theorem setInf_tbl (s : State) (b : Bool) : (setInf s b).tbl = s.tbl := rfl
@[simp] theorem setInf_ngK (s : State) (b : Bool) : (setInf s b).ngK = s.ngK := rfl
@[simp] theorem setInf_ngV (s : State) (b : Bool) : (setInf s b).ngV = s.ngV := rfl
@[simp] theorem setInf_ngReady (s : State) (b : Bool) : (setInf s b).ngReady = s.ngReady := rfl
@[simp] theorem setInf_ngFirst (s : State) (b : Bool) : (setInf s b).ngFirst = s.ngFirst := rfl
@[simp] theorem setInf_pending (s : State) (b : Bool) : (setInf s b).pending = s.pending := rfl
@[simp] theorem setInf_ngWork (s : State) (b : Bool) : (setInf s b).ngWork = s.ngWork := rfl
@[simp] theorem setInf_events (s : State) (b : Bool) : (setInf s b).events = s.events := rfl
@[simp] theorem setInf_hmac (s : State) (b : Bool) : (setInf s b).hmac = s.hmac := rfl
@[simp] theorem setInf_resp (s : State) (b : Bool) : (setInf s b).resp = s.resp := rfl

@[simp] theorem setCmpFlags_w (s : State) (a b : Word) : (setCmpFlags s a b).w = s.w := rfl
@[simp] theorem setCmpFlags_p (s : State) (a b : Word) : (setCmpFlags s a b).p = s.p := rfl
@[simp] theorem setCmpFlags_eq (s : State) (a b : Word) : (setCmpFlags s a b).eq = decide (a = b) := rfl
@[simp] theorem setCmpFlags_lt (s : State) (a b : Word) : (setCmpFlags s a b).lt = decide (a.toNat < b.toNat) := rfl
@[simp] theorem setCmpFlags_odd (s : State) (a b : Word) : (setCmpFlags s a b).odd = a.parity := rfl
@[simp] theorem setCmpFlags_inf (s : State) (a b : Word) : (setCmpFlags s a b).inf = s.inf := rfl
@[simp] theorem setCmpFlags_ie (s : State) (a b : Word) : (setCmpFlags s a b).ie = s.ie := rfl
@[simp] theorem setCmpFlags_done (s : State) (a b : Word) : (setCmpFlags s a b).done = s.done := rfl
@[simp] theorem setCmpFlags_err (s : State) (a b : Word) : (setCmpFlags s a b).err = s.err := rfl
@[simp] theorem setCmpFlags_errcode (s : State) (a b : Word) : (setCmpFlags s a b).errcode = s.errcode := rfl
@[simp] theorem setCmpFlags_errcmd (s : State) (a b : Word) : (setCmpFlags s a b).errcmd = s.errcmd := rfl
@[simp] theorem setCmpFlags_cmdcnt (s : State) (a b : Word) : (setCmpFlags s a b).cmdcnt = s.cmdcnt := rfl
@[simp] theorem setCmpFlags_lastcmd (s : State) (a b : Word) : (setCmpFlags s a b).lastcmd = s.lastcmd := rfl
@[simp] theorem setCmpFlags_tblValid (s : State) (a b : Word) : (setCmpFlags s a b).tblValid = s.tblValid := rfl
@[simp] theorem setCmpFlags_tblW (s : State) (a b : Word) : (setCmpFlags s a b).tblW = s.tblW := rfl
@[simp] theorem setCmpFlags_tbl (s : State) (a b : Word) : (setCmpFlags s a b).tbl = s.tbl := rfl
@[simp] theorem setCmpFlags_ngK (s : State) (a b : Word) : (setCmpFlags s a b).ngK = s.ngK := rfl
@[simp] theorem setCmpFlags_ngV (s : State) (a b : Word) : (setCmpFlags s a b).ngV = s.ngV := rfl
@[simp] theorem setCmpFlags_ngReady (s : State) (a b : Word) : (setCmpFlags s a b).ngReady = s.ngReady := rfl
@[simp] theorem setCmpFlags_ngFirst (s : State) (a b : Word) : (setCmpFlags s a b).ngFirst = s.ngFirst := rfl
@[simp] theorem setCmpFlags_pending (s : State) (a b : Word) : (setCmpFlags s a b).pending = s.pending := rfl
@[simp] theorem setCmpFlags_ngWork (s : State) (a b : Word) : (setCmpFlags s a b).ngWork = s.ngWork := rfl
@[simp] theorem setCmpFlags_events (s : State) (a b : Word) : (setCmpFlags s a b).events = s.events := rfl
@[simp] theorem setCmpFlags_hmac (s : State) (a b : Word) : (setCmpFlags s a b).hmac = s.hmac := rfl
@[simp] theorem setCmpFlags_resp (s : State) (a b : Word) : (setCmpFlags s a b).resp = s.resp := rfl

@[simp] theorem setRootFlags_w (s : State) (r : Word) : (setRootFlags s r).w = s.w := rfl
@[simp] theorem setRootFlags_p (s : State) (r : Word) : (setRootFlags s r).p = s.p := rfl
@[simp] theorem setRootFlags_eq (s : State) (r : Word) : (setRootFlags s r).eq = true := rfl
@[simp] theorem setRootFlags_lt (s : State) (r : Word) : (setRootFlags s r).lt = s.lt := rfl
@[simp] theorem setRootFlags_odd (s : State) (r : Word) : (setRootFlags s r).odd = r.parity := rfl
@[simp] theorem setRootFlags_inf (s : State) (r : Word) : (setRootFlags s r).inf = s.inf := rfl
@[simp] theorem setRootFlags_ie (s : State) (r : Word) : (setRootFlags s r).ie = s.ie := rfl
@[simp] theorem setRootFlags_done (s : State) (r : Word) : (setRootFlags s r).done = s.done := rfl
@[simp] theorem setRootFlags_err (s : State) (r : Word) : (setRootFlags s r).err = s.err := rfl
@[simp] theorem setRootFlags_errcode (s : State) (r : Word) : (setRootFlags s r).errcode = s.errcode := rfl
@[simp] theorem setRootFlags_errcmd (s : State) (r : Word) : (setRootFlags s r).errcmd = s.errcmd := rfl
@[simp] theorem setRootFlags_cmdcnt (s : State) (r : Word) : (setRootFlags s r).cmdcnt = s.cmdcnt := rfl
@[simp] theorem setRootFlags_lastcmd (s : State) (r : Word) : (setRootFlags s r).lastcmd = s.lastcmd := rfl
@[simp] theorem setRootFlags_tblValid (s : State) (r : Word) : (setRootFlags s r).tblValid = s.tblValid := rfl
@[simp] theorem setRootFlags_tblW (s : State) (r : Word) : (setRootFlags s r).tblW = s.tblW := rfl
@[simp] theorem setRootFlags_tbl (s : State) (r : Word) : (setRootFlags s r).tbl = s.tbl := rfl
@[simp] theorem setRootFlags_ngK (s : State) (r : Word) : (setRootFlags s r).ngK = s.ngK := rfl
@[simp] theorem setRootFlags_ngV (s : State) (r : Word) : (setRootFlags s r).ngV = s.ngV := rfl
@[simp] theorem setRootFlags_ngReady (s : State) (r : Word) : (setRootFlags s r).ngReady = s.ngReady := rfl
@[simp] theorem setRootFlags_ngFirst (s : State) (r : Word) : (setRootFlags s r).ngFirst = s.ngFirst := rfl
@[simp] theorem setRootFlags_pending (s : State) (r : Word) : (setRootFlags s r).pending = s.pending := rfl
@[simp] theorem setRootFlags_ngWork (s : State) (r : Word) : (setRootFlags s r).ngWork = s.ngWork := rfl
@[simp] theorem setRootFlags_events (s : State) (r : Word) : (setRootFlags s r).events = s.events := rfl
@[simp] theorem setRootFlags_hmac (s : State) (r : Word) : (setRootFlags s r).hmac = s.hmac := rfl
@[simp] theorem setRootFlags_resp (s : State) (r : Word) : (setRootFlags s r).resp = s.resp := rfl

@[simp] theorem clearFlags_w (s : State) : (clearFlags s).w = s.w := rfl
@[simp] theorem clearFlags_p (s : State) : (clearFlags s).p = s.p := rfl
@[simp] theorem clearFlags_eq (s : State) : (clearFlags s).eq = false := rfl
@[simp] theorem clearFlags_lt (s : State) : (clearFlags s).lt = false := rfl
@[simp] theorem clearFlags_odd (s : State) : (clearFlags s).odd = false := rfl
@[simp] theorem clearFlags_inf (s : State) : (clearFlags s).inf = false := rfl
@[simp] theorem clearFlags_ie (s : State) : (clearFlags s).ie = s.ie := rfl
@[simp] theorem clearFlags_done (s : State) : (clearFlags s).done = s.done := rfl
@[simp] theorem clearFlags_err (s : State) : (clearFlags s).err = s.err := rfl
@[simp] theorem clearFlags_errcode (s : State) : (clearFlags s).errcode = s.errcode := rfl
@[simp] theorem clearFlags_errcmd (s : State) : (clearFlags s).errcmd = s.errcmd := rfl
@[simp] theorem clearFlags_cmdcnt (s : State) : (clearFlags s).cmdcnt = s.cmdcnt := rfl
@[simp] theorem clearFlags_lastcmd (s : State) : (clearFlags s).lastcmd = s.lastcmd := rfl
@[simp] theorem clearFlags_tblValid (s : State) : (clearFlags s).tblValid = s.tblValid := rfl
@[simp] theorem clearFlags_tblW (s : State) : (clearFlags s).tblW = s.tblW := rfl
@[simp] theorem clearFlags_tbl (s : State) : (clearFlags s).tbl = s.tbl := rfl
@[simp] theorem clearFlags_ngK (s : State) : (clearFlags s).ngK = s.ngK := rfl
@[simp] theorem clearFlags_ngV (s : State) : (clearFlags s).ngV = s.ngV := rfl
@[simp] theorem clearFlags_ngReady (s : State) : (clearFlags s).ngReady = s.ngReady := rfl
@[simp] theorem clearFlags_ngFirst (s : State) : (clearFlags s).ngFirst = s.ngFirst := rfl
@[simp] theorem clearFlags_pending (s : State) : (clearFlags s).pending = s.pending := rfl
@[simp] theorem clearFlags_ngWork (s : State) : (clearFlags s).ngWork = s.ngWork := rfl
@[simp] theorem clearFlags_events (s : State) : (clearFlags s).events = s.events := rfl
@[simp] theorem clearFlags_hmac (s : State) : (clearFlags s).hmac = s.hmac := rfl
@[simp] theorem clearFlags_resp (s : State) : (clearFlags s).resp = s.resp := rfl

@[simp] theorem setTable_w (w : TblWidth) (s : State) : (setTable w s).w = s.w := rfl
@[simp] theorem setTable_p (w : TblWidth) (s : State) : (setTable w s).p = s.p := rfl
@[simp] theorem setTable_eq (w : TblWidth) (s : State) : (setTable w s).eq = s.eq := rfl
@[simp] theorem setTable_lt (w : TblWidth) (s : State) : (setTable w s).lt = s.lt := rfl
@[simp] theorem setTable_odd (w : TblWidth) (s : State) : (setTable w s).odd = s.odd := rfl
@[simp] theorem setTable_inf (w : TblWidth) (s : State) : (setTable w s).inf = s.inf := rfl
@[simp] theorem setTable_ie (w : TblWidth) (s : State) : (setTable w s).ie = s.ie := rfl
@[simp] theorem setTable_done (w : TblWidth) (s : State) : (setTable w s).done = s.done := rfl
@[simp] theorem setTable_err (w : TblWidth) (s : State) : (setTable w s).err = s.err := rfl
@[simp] theorem setTable_errcode (w : TblWidth) (s : State) : (setTable w s).errcode = s.errcode := rfl
@[simp] theorem setTable_errcmd (w : TblWidth) (s : State) : (setTable w s).errcmd = s.errcmd := rfl
@[simp] theorem setTable_cmdcnt (w : TblWidth) (s : State) : (setTable w s).cmdcnt = s.cmdcnt := rfl
@[simp] theorem setTable_lastcmd (w : TblWidth) (s : State) : (setTable w s).lastcmd = s.lastcmd := rfl
@[simp] theorem setTable_tblValid (w : TblWidth) (s : State) : (setTable w s).tblValid = decide (w ≠ .none) := rfl
@[simp] theorem setTable_tblW (w : TblWidth) (s : State) : (setTable w s).tblW = w := rfl
@[simp] theorem setTable_tbl (w : TblWidth) (s : State) : (setTable w s).tbl = tableEntries w := rfl
@[simp] theorem setTable_ngK (w : TblWidth) (s : State) : (setTable w s).ngK = s.ngK := rfl
@[simp] theorem setTable_ngV (w : TblWidth) (s : State) : (setTable w s).ngV = s.ngV := rfl
@[simp] theorem setTable_ngReady (w : TblWidth) (s : State) : (setTable w s).ngReady = s.ngReady := rfl
@[simp] theorem setTable_ngFirst (w : TblWidth) (s : State) : (setTable w s).ngFirst = s.ngFirst := rfl
@[simp] theorem setTable_pending (w : TblWidth) (s : State) : (setTable w s).pending = s.pending := rfl
@[simp] theorem setTable_ngWork (w : TblWidth) (s : State) : (setTable w s).ngWork = s.ngWork := rfl
@[simp] theorem setTable_events (w : TblWidth) (s : State) : (setTable w s).events = s.events := rfl
@[simp] theorem setTable_hmac (w : TblWidth) (s : State) : (setTable w s).hmac = s.hmac := rfl
@[simp] theorem setTable_resp (w : TblWidth) (s : State) : (setTable w s).resp = s.resp := rfl

@[simp] theorem complete_w (s : State) : (complete s).w = s.w := rfl
@[simp] theorem complete_p (s : State) : (complete s).p = s.p := rfl
@[simp] theorem complete_eq (s : State) : (complete s).eq = s.eq := rfl
@[simp] theorem complete_lt (s : State) : (complete s).lt = s.lt := rfl
@[simp] theorem complete_odd (s : State) : (complete s).odd = s.odd := rfl
@[simp] theorem complete_inf (s : State) : (complete s).inf = s.inf := rfl
@[simp] theorem complete_ie (s : State) : (complete s).ie = s.ie := rfl
@[simp] theorem complete_done (s : State) : (complete s).done = true := rfl
@[simp] theorem complete_err (s : State) : (complete s).err = s.err := rfl
@[simp] theorem complete_errcode (s : State) : (complete s).errcode = s.errcode := rfl
@[simp] theorem complete_errcmd (s : State) : (complete s).errcmd = s.errcmd := rfl
@[simp] theorem complete_cmdcnt (s : State) : (complete s).cmdcnt = s.cmdcnt + 1 := rfl
@[simp] theorem complete_lastcmd (s : State) : (complete s).lastcmd = s.lastcmd := rfl
@[simp] theorem complete_tblValid (s : State) : (complete s).tblValid = s.tblValid := rfl
@[simp] theorem complete_tblW (s : State) : (complete s).tblW = s.tblW := rfl
@[simp] theorem complete_tbl (s : State) : (complete s).tbl = s.tbl := rfl
@[simp] theorem complete_ngK (s : State) : (complete s).ngK = s.ngK := rfl
@[simp] theorem complete_ngV (s : State) : (complete s).ngV = s.ngV := rfl
@[simp] theorem complete_ngReady (s : State) : (complete s).ngReady = s.ngReady := rfl
@[simp] theorem complete_ngFirst (s : State) : (complete s).ngFirst = s.ngFirst := rfl
@[simp] theorem complete_pending (s : State) : (complete s).pending = none := rfl
@[simp] theorem complete_ngWork (s : State) : (complete s).ngWork = none := rfl
@[simp] theorem complete_events (s : State) : (complete s).events = s.events := rfl
@[simp] theorem complete_hmac (s : State) : (complete s).hmac = s.hmac := rfl
@[simp] theorem complete_resp (s : State) : (complete s).resp = s.resp := rfl

@[simp] theorem issue_w (c : Bus) (s : State) : (issue c s).w = s.w := rfl
@[simp] theorem issue_p (c : Bus) (s : State) : (issue c s).p = s.p := rfl
@[simp] theorem issue_eq (c : Bus) (s : State) : (issue c s).eq = s.eq := rfl
@[simp] theorem issue_lt (c : Bus) (s : State) : (issue c s).lt = s.lt := rfl
@[simp] theorem issue_odd (c : Bus) (s : State) : (issue c s).odd = s.odd := rfl
@[simp] theorem issue_inf (c : Bus) (s : State) : (issue c s).inf = s.inf := rfl
@[simp] theorem issue_ie (c : Bus) (s : State) : (issue c s).ie = s.ie := rfl
@[simp] theorem issue_done (c : Bus) (s : State) : (issue c s).done = false := rfl
@[simp] theorem issue_err (c : Bus) (s : State) : (issue c s).err = s.err := rfl
@[simp] theorem issue_errcode (c : Bus) (s : State) : (issue c s).errcode = s.errcode := rfl
@[simp] theorem issue_errcmd (c : Bus) (s : State) : (issue c s).errcmd = s.errcmd := rfl
@[simp] theorem issue_cmdcnt (c : Bus) (s : State) : (issue c s).cmdcnt = s.cmdcnt := rfl
@[simp] theorem issue_lastcmd (c : Bus) (s : State) : (issue c s).lastcmd = c := rfl
@[simp] theorem issue_tblValid (c : Bus) (s : State) : (issue c s).tblValid = s.tblValid := rfl
@[simp] theorem issue_tblW (c : Bus) (s : State) : (issue c s).tblW = s.tblW := rfl
@[simp] theorem issue_tbl (c : Bus) (s : State) : (issue c s).tbl = s.tbl := rfl
@[simp] theorem issue_ngK (c : Bus) (s : State) : (issue c s).ngK = s.ngK := rfl
@[simp] theorem issue_ngV (c : Bus) (s : State) : (issue c s).ngV = s.ngV := rfl
@[simp] theorem issue_ngReady (c : Bus) (s : State) : (issue c s).ngReady = s.ngReady := rfl
@[simp] theorem issue_ngFirst (c : Bus) (s : State) : (issue c s).ngFirst = s.ngFirst := rfl
@[simp] theorem issue_pending (c : Bus) (s : State) : (issue c s).pending = some c := rfl
@[simp] theorem issue_ngWork (c : Bus) (s : State) : (issue c s).ngWork = none := rfl
@[simp] theorem issue_events (c : Bus) (s : State) : (issue c s).events = s.events := rfl
@[simp] theorem issue_hmac (c : Bus) (s : State) : (issue c s).hmac = s.hmac := rfl
@[simp] theorem issue_resp (c : Bus) (s : State) : (issue c s).resp = s.resp := rfl

@[simp] theorem resetBlock_w (s : State) : (resetBlock s).w = State.reset.w := rfl
@[simp] theorem resetBlock_p (s : State) : (resetBlock s).p = State.reset.p := rfl
@[simp] theorem resetBlock_eq (s : State) : (resetBlock s).eq = State.reset.eq := rfl
@[simp] theorem resetBlock_lt (s : State) : (resetBlock s).lt = State.reset.lt := rfl
@[simp] theorem resetBlock_odd (s : State) : (resetBlock s).odd = State.reset.odd := rfl
@[simp] theorem resetBlock_inf (s : State) : (resetBlock s).inf = State.reset.inf := rfl
@[simp] theorem resetBlock_ie (s : State) : (resetBlock s).ie = State.reset.ie := rfl
@[simp] theorem resetBlock_done (s : State) : (resetBlock s).done = State.reset.done := rfl
@[simp] theorem resetBlock_err (s : State) : (resetBlock s).err = State.reset.err := rfl
@[simp] theorem resetBlock_errcode (s : State) : (resetBlock s).errcode = State.reset.errcode := rfl
@[simp] theorem resetBlock_errcmd (s : State) : (resetBlock s).errcmd = State.reset.errcmd := rfl
@[simp] theorem resetBlock_cmdcnt (s : State) : (resetBlock s).cmdcnt = State.reset.cmdcnt := rfl
@[simp] theorem resetBlock_lastcmd (s : State) : (resetBlock s).lastcmd = State.reset.lastcmd := rfl
@[simp] theorem resetBlock_tblValid (s : State) : (resetBlock s).tblValid = State.reset.tblValid := rfl
@[simp] theorem resetBlock_tblW (s : State) : (resetBlock s).tblW = State.reset.tblW := rfl
@[simp] theorem resetBlock_tbl (s : State) : (resetBlock s).tbl = State.reset.tbl := rfl
@[simp] theorem resetBlock_ngK (s : State) : (resetBlock s).ngK = State.reset.ngK := rfl
@[simp] theorem resetBlock_ngV (s : State) : (resetBlock s).ngV = State.reset.ngV := rfl
@[simp] theorem resetBlock_ngReady (s : State) : (resetBlock s).ngReady = State.reset.ngReady := rfl
@[simp] theorem resetBlock_ngFirst (s : State) : (resetBlock s).ngFirst = State.reset.ngFirst := rfl
@[simp] theorem resetBlock_pending (s : State) : (resetBlock s).pending = State.reset.pending := rfl
@[simp] theorem resetBlock_ngWork (s : State) : (resetBlock s).ngWork = State.reset.ngWork := rfl
@[simp] theorem resetBlock_events (s : State) : (resetBlock s).events = s.events := rfl
@[simp] theorem resetBlock_hmac (s : State) : (resetBlock s).hmac = s.hmac := rfl
@[simp] theorem resetBlock_resp (s : State) : (resetBlock s).resp = s.resp := rfl

@[simp] theorem recordError_w (c : ErrCode) (v : Bus) (s : State) : (recordError c v s).w = s.w := by
  unfold recordError; split <;> rfl
@[simp] theorem recordError_p (c : ErrCode) (v : Bus) (s : State) : (recordError c v s).p = s.p := by
  unfold recordError; split <;> rfl
@[simp] theorem recordError_eq (c : ErrCode) (v : Bus) (s : State) : (recordError c v s).eq = s.eq := by
  unfold recordError; split <;> rfl
@[simp] theorem recordError_lt (c : ErrCode) (v : Bus) (s : State) : (recordError c v s).lt = s.lt := by
  unfold recordError; split <;> rfl
@[simp] theorem recordError_odd (c : ErrCode) (v : Bus) (s : State) : (recordError c v s).odd = s.odd := by
  unfold recordError; split <;> rfl
@[simp] theorem recordError_inf (c : ErrCode) (v : Bus) (s : State) : (recordError c v s).inf = s.inf := by
  unfold recordError; split <;> rfl
@[simp] theorem recordError_ie (c : ErrCode) (v : Bus) (s : State) : (recordError c v s).ie = s.ie := by
  unfold recordError; split <;> rfl
@[simp] theorem recordError_done (c : ErrCode) (v : Bus) (s : State) : (recordError c v s).done = s.done := by
  unfold recordError; split <;> rfl
@[simp] theorem recordError_cmdcnt (c : ErrCode) (v : Bus) (s : State) : (recordError c v s).cmdcnt = s.cmdcnt := by
  unfold recordError; split <;> rfl
@[simp] theorem recordError_lastcmd (c : ErrCode) (v : Bus) (s : State) : (recordError c v s).lastcmd = s.lastcmd := by
  unfold recordError; split <;> rfl
@[simp] theorem recordError_tblValid (c : ErrCode) (v : Bus) (s : State) : (recordError c v s).tblValid = s.tblValid := by
  unfold recordError; split <;> rfl
@[simp] theorem recordError_tblW (c : ErrCode) (v : Bus) (s : State) : (recordError c v s).tblW = s.tblW := by
  unfold recordError; split <;> rfl
@[simp] theorem recordError_tbl (c : ErrCode) (v : Bus) (s : State) : (recordError c v s).tbl = s.tbl := by
  unfold recordError; split <;> rfl
@[simp] theorem recordError_ngK (c : ErrCode) (v : Bus) (s : State) : (recordError c v s).ngK = s.ngK := by
  unfold recordError; split <;> rfl
@[simp] theorem recordError_ngV (c : ErrCode) (v : Bus) (s : State) : (recordError c v s).ngV = s.ngV := by
  unfold recordError; split <;> rfl
@[simp] theorem recordError_ngReady (c : ErrCode) (v : Bus) (s : State) : (recordError c v s).ngReady = s.ngReady := by
  unfold recordError; split <;> rfl
@[simp] theorem recordError_ngFirst (c : ErrCode) (v : Bus) (s : State) : (recordError c v s).ngFirst = s.ngFirst := by
  unfold recordError; split <;> rfl
@[simp] theorem recordError_pending (c : ErrCode) (v : Bus) (s : State) : (recordError c v s).pending = s.pending := by
  unfold recordError; split <;> rfl
@[simp] theorem recordError_ngWork (c : ErrCode) (v : Bus) (s : State) : (recordError c v s).ngWork = s.ngWork := by
  unfold recordError; split <;> rfl
@[simp] theorem recordError_events (c : ErrCode) (v : Bus) (s : State) : (recordError c v s).events = s.events := by
  unfold recordError; split <;> rfl
@[simp] theorem recordError_hmac (c : ErrCode) (v : Bus) (s : State) : (recordError c v s).hmac = s.hmac := by
  unfold recordError; split <;> rfl
@[simp] theorem recordError_resp (c : ErrCode) (v : Bus) (s : State) : (recordError c v s).resp = s.resp := by
  unfold recordError; split <;> rfl
@[simp] theorem getP_setW (s : State) (r : WReg) (v : Word) (q : PReg) : getP (setW s r v) q = getP s q := rfl
@[simp] theorem getW_setP (s : State) (r : PReg) (t : Triple) (q : WReg) : getW (setP s r t) q = getW s q := rfl
@[simp] theorem getW_setEq (s : State) (b : Bool) (q : WReg) : getW (setEq s b) q = getW s q := rfl
@[simp] theorem getP_setEq (s : State) (b : Bool) (q : PReg) : getP (setEq s b) q = getP s q := rfl
@[simp] theorem getW_setOdd (s : State) (b : Bool) (q : WReg) : getW (setOdd s b) q = getW s q := rfl
@[simp] theorem getP_setOdd (s : State) (b : Bool) (q : PReg) : getP (setOdd s b) q = getP s q := rfl
@[simp] theorem getW_setInf (s : State) (b : Bool) (q : WReg) : getW (setInf s b) q = getW s q := rfl
@[simp] theorem getP_setInf (s : State) (b : Bool) (q : PReg) : getP (setInf s b) q = getP s q := rfl
@[simp] theorem getW_setCmpFlags (s : State) (a b : Word) (q : WReg) : getW (setCmpFlags s a b) q = getW s q := rfl
@[simp] theorem getP_setCmpFlags (s : State) (a b : Word) (q : PReg) : getP (setCmpFlags s a b) q = getP s q := rfl
@[simp] theorem getW_setRootFlags (s : State) (r : Word) (q : WReg) : getW (setRootFlags s r) q = getW s q := rfl
@[simp] theorem getP_setRootFlags (s : State) (r : Word) (q : PReg) : getP (setRootFlags s r) q = getP s q := rfl
@[simp] theorem getW_clearFlags (s : State) (q : WReg) : getW (clearFlags s) q = getW s q := rfl
@[simp] theorem getP_clearFlags (s : State) (q : PReg) : getP (clearFlags s) q = getP s q := rfl
@[simp] theorem getW_setTable (w : TblWidth) (s : State) (q : WReg) : getW (setTable w s) q = getW s q := rfl
@[simp] theorem getP_setTable (w : TblWidth) (s : State) (q : PReg) : getP (setTable w s) q = getP s q := rfl
@[simp] theorem getW_complete (s : State) (q : WReg) : getW (complete s) q = getW s q := rfl
@[simp] theorem getP_complete (s : State) (q : PReg) : getP (complete s) q = getP s q := rfl
@[simp] theorem getW_issue (c : Bus) (s : State) (q : WReg) : getW (issue c s) q = getW s q := rfl
@[simp] theorem getP_issue (c : Bus) (s : State) (q : PReg) : getP (issue c s) q = getP s q := rfl
@[simp] theorem getW_recordError (c : ErrCode) (v : Bus) (s : State) (q : WReg) : getW (recordError c v s) q = getW s q := by
  simp [getW]
@[simp] theorem getP_recordError (c : ErrCode) (v : Bus) (s : State) (q : PReg) : getP (recordError c v s) q = getP s q := by
  simp [getP]

@[simp] theorem recordError_err (c : ErrCode) (v : Bus) (s : State) : (recordError c v s).err = true := by
  unfold recordError; split
  · assumption
  · rfl

/-- The first error is kept (R35). -/
theorem recordError_of_err {c : ErrCode} {v : Bus} {s : State} (h : s.err = true) : recordError c v s = s := by
  simp [recordError, h]

/-- The first error since a clear is recorded (R35). -/
theorem recordError_of_clear {c : ErrCode} {v : Bus} {s : State} (h : s.err = false) :
    recordError c v s = { s with err := true, errcode := c, errcmd := v } := by
  simp [recordError, h]

@[simp] theorem getW_setW_same (s : State) (r : WReg) (v : Word) : getW (setW s r v) r = v :=
  Vector.getElem_set_self (xs := s.w) r.isLt

theorem getW_setW_ne (s : State) {r q : WReg} (v : Word) (h : q ≠ r) : getW (setW s r v) q = getW s q :=
  Vector.getElem_set_ne (xs := s.w) r.isLt q.isLt fun e => h (Fin.ext e.symm)

@[simp] theorem getP_setP_same (s : State) (r : PReg) (t : Triple) : getP (setP s r t) r = t :=
  Vector.getElem_set_self (xs := s.p) r.isLt

theorem getP_setP_ne (s : State) {r q : PReg} (t : Triple) (h : q ≠ r) : getP (setP s r t) q = getP s q :=
  Vector.getElem_set_ne (xs := s.p) r.isLt q.isLt fun e => h (Fin.ext e.symm)

end Sys2Proof.Machine
end

