-- ==== Sys2Proof/Laws/Ops.lean ====
section
/-! SUPPORT. One lemma per shared operation of Machine/Operands.lean and Machine/Ops.lean: everything it can answer. -/

namespace Sys2Proof.Machine

/-- A canonical operand is read (R103). -/
theorem readCanon_ok {s : State} {m : Modulus} {r : WReg} (h : (getW s r).toNat < modulus m) :
    readCanon s m r = .ok (getW s r) := if_pos h

/-- A value that is not canonical raises OVF(M) (R103). -/
theorem readCanon_error {s : State} {m : Modulus} {r : WReg} (h : modulus m ≤ (getW s r).toNat) :
    readCanon s m r = .error (overflowCode m) := if_neg (Nat.not_lt.2 h)

theorem readScalar_ok {s : State} {r : WReg} (h : (getW s r).toNat < orderN) :
    readScalar s r = .ok (getW s r) := if_pos h

theorem readScalar_error {s : State} {r : WReg} (h : orderN ≤ (getW s r).toNat) :
    readScalar s r = .error .scalarOverflow := if_neg (Nat.not_lt.2 h)

theorem readPoint_ok {s : State} {r : PReg} (h : validTriple (getP s r) = true) :
    readPoint s r = .ok (getP s r) := if_pos h

theorem readPoint_error {s : State} {r : PReg} (h : validTriple (getP s r) = false) :
    readPoint s r = .error .invalidPoint := if_neg (by simp [h])

theorem readCoord_ok {s : State} {r : WReg} (h : (getW s r).toNat < fieldP) :
    readCoord s r = .ok (getW s r) := if_pos h

theorem readCoord_error {s : State} {r : WReg} (h : fieldP ≤ (getW s r).toNat) :
    readCoord s r = .error .invalidPoint := if_neg (Nat.not_lt.2 h)

theorem readPrivateKey_ok {s : State} {r : WReg} (h0 : getW s r ≠ 0) (h : (getW s r).toNat < orderN) :
    readPrivateKey s r = .ok (getW s r) := if_neg (by rintro (h1 | h1) <;> [exact h0 h1; omega])

theorem readPrivateKey_error {s : State} {r : WReg} (h : getW s r = 0 ∨ orderN ≤ (getW s r).toNat) :
    readPrivateKey s r = .error .invalidPrivateKey := if_pos h

/-- A constant index is legal exactly when LDC reads a constant with it (R104, R108). -/
theorem readConst_isOk_iff (idx : BitVec 8) : (∃ v, readConst idx = .ok v) ↔ legalConstIndex idx = true := by
  unfold readConst legalConstIndex
  by_cases h : idx.toNat < 12
  · have h' : idx.toNat < constRom.length := h
    simp [h, List.getElem?_eq_getElem h']
  · have h' : constRom.length ≤ idx.toNat := Nat.not_lt.1 h
    simp [h, List.getElem?_eq_none h']

/-- A width is legal exactly when PRECOMP takes it (R104, R108). -/
theorem readWidth_isOk_iff (w : BitVec 8) : (∃ t, readWidth w = .ok t) ↔ legalWidth w = true := by
  unfold readWidth legalWidth
  split_ifs <;> simp_all

/-- What a completion step answers: it commits every write, or it records the error and commits none (R45, R301). -/
theorem commit_next {i : Instr} {s t : State} {r : Except ErrCode State} (h : commit i s r = .next t) :
    (∃ u, r = .ok u ∧ t = complete u) ∨ (∃ c, r = .error c ∧ t = complete (recordError c (encode i) s)) := by
  cases r with
  | ok u => left; exact ⟨u, rfl, by cases h; rfl⟩
  | error c => right; exact ⟨c, rfl, by cases h; rfl⟩

/-- A completion step always answers a next state: an error stops nothing (R301). -/
theorem commit_isNext (i : Instr) (s : State) (r : Except ErrCode State) : ∃ t, commit i s r = .next t := by
  cases r <;> exact ⟨_, rfl⟩

@[simp] theorem commit_ok (i : Instr) (s u : State) : commit i s (.ok u) = .next (complete u) := rfl

@[simp] theorem commit_error (i : Instr) (s : State) (c : ErrCode) :
    commit i s (.error c) = .next (complete (recordError c (encode i) s)) := rfl

/-- A command whose next operand passes its check goes on with the value (R302). -/
theorem commit_bind_ok {i : Instr} {s : State} {α : Type} {a : α} {r : Except ErrCode α} {f : α → Except ErrCode State}
    (h : r = .ok a) : commit i s (r >>= f) = commit i s (f a) := by rw [h]; rfl

/-- A command whose next operand fails its check ends with that error, whatever follows (R302, R305). -/
theorem commit_bind_error {i : Instr} {s : State} {α : Type} {c : ErrCode} {r : Except ErrCode α}
    {f : α → Except ErrCode State} (h : r = .error c) :
    commit i s (r >>= f) = .next (complete (recordError c (encode i) s)) := by rw [h]; rfl

/-- An HMAC answer depends on the environment's list alone, not on the block (R8). -/
theorem hmacAnswer_congr {s t : State} (h : s.hmac = t.hmac) (key : Word) (msg : List Byte) :
    hmacAnswer s key msg = hmacAnswer t key msg := by
  simp [hmacAnswer, h]

/-- With no request fixed by the environment, the answer is the configuration function's (R8). -/
theorem hmacAnswer_nil {s : State} (h : s.hmac = []) (key : Word) (msg : List Byte) :
    hmacAnswer s key msg = some (Config.hmac key msg) := by
  simp [hmacAnswer, h]

end Sys2Proof.Machine
end

