-- ==== Sys2Proof/Laws/Alike.lean ====
section
/-! SUPPORT. A command reads word registers, point registers, flags and the HMAC service, and nothing else (the operand classes of
spec/30_encoding.md R103): from states that agree on those, it ends alike. Said once, for every relation that its writes keep. -/

namespace Sys2Proof.Machine

open Sys2Proof.Spec

/-- A relation between states that agree on what commands read, kept by what commands write. -/
structure Alike (R : State → State → Prop) : Prop where
  w : ∀ {s t}, R s t → s.w = t.w
  p : ∀ {s t}, R s t → s.p = t.p
  flag : ∀ {s t}, R s t → s.eq = t.eq ∧ s.lt = t.lt ∧ s.odd = t.odd ∧ s.inf = t.inf
  hmac : ∀ {s t}, R s t → s.hmac = t.hmac
  setW : ∀ {s t} r v, R s t → R (setW s r v) (setW t r v)
  setP : ∀ {s t} r v, R s t → R (setP s r v) (setP t r v)
  setFlags : ∀ {s t} a b c d, R s t →
    R { s with eq := a, lt := b, odd := c, inf := d } { t with eq := a, lt := b, odd := c, inf := d }
  setTable : ∀ {s t} w, R s t → R (setTable w s) (setTable w t)
  lazyTable : ∀ {s t}, R s t → R (lazyTable s) (lazyTable t)
  zeroize : ∀ {s t}, R s t → R (zeroizeState s) (zeroizeState t)
  ninit : ∀ {s t} k v, R s t → R { s with ngK := k, ngV := v, ngReady := true, ngFirst := true }
    { t with ngK := k, ngV := v, ngReady := true, ngFirst := true }

variable {R : State → State → Prop}

/-- Two rule outcomes alike: the same error, or related states. -/
inductive Same (R : State → State → Prop) : Except ErrCode State → Except ErrCode State → Prop
  | ok {u v : State} (h : R u v) : Same R (.ok u) (.ok v)
  | error (c : ErrCode) : Same R (.error c) (.error c)

theorem Same.bind {α : Type} {x y : Except ErrCode α} {f g : α → Except ErrCode State} (e : x = y)
    (h : ∀ a, Same R (f a) (g a)) : Same R (x >>= f) (y >>= g) := by
  subst e
  cases x with
  | ok a => exact h a
  | error c => exact .error c

theorem Same.ite {c : Prop} [Decidable c] {x x' y y' : Except ErrCode State} (hx : Same R x x') (hy : Same R y y') :
    Same R (if c then x else y) (if c then x' else y') := by
  by_cases h : c
  · rw [if_pos h, if_pos h]; exact hx
  · rw [if_neg h, if_neg h]; exact hy

/-- One command from two states: both complete alike, or both wait. -/
inductive Twin (R : State → State → Prop) (i : Instr) (s t : State) : Prop
  | commit (r r' : Except ErrCode State) (hs : exec i s = commit i s r) (ht : exec i t = commit i t r') (h : Same R r r')
  | wait (hs : exec i s = .next s) (ht : exec i t = .next t)

/-- Every command but NGEN ends alike from states that agree on what it reads. -/
theorem exec_alike (A : Alike R) {s t : State} (h : R s t) (i : Instr) (hn : ∀ wk, i ≠ .ngen wk) : Twin R i s t := by
  have gw : ∀ r, getW s r = getW t r := fun r => by unfold getW; rw [A.w h]
  have gp : ∀ r, getP s r = getP t r := fun r => by unfold getP; rw [A.p h]
  have canon : ∀ m r, readCanon s m r = readCanon t m r := fun m r => by unfold readCanon; rw [gw]
  have scalar : ∀ r, readScalar s r = readScalar t r := fun r => by unfold readScalar; rw [gw]
  have coord : ∀ r, readCoord s r = readCoord t r := fun r => by unfold readCoord; rw [gw]
  have point : ∀ r, readPoint s r = readPoint t r := fun r => by unfold readPoint; rw [gp]
  obtain ⟨feq, flt, fodd, finf⟩ := A.flag h
  have one : ∀ r v, Same R (pure (setW s r v)) (pure (setW t r v)) := fun r v => .ok (A.setW r v h)
  have inf : ∀ {u v : State} b, R u v → R (setInf u b) (setInf v b) := fun {u v} b e => by
    obtain ⟨h1, h2, h3, h4⟩ := A.flag e
    have := A.setFlags u.eq u.lt u.odd b e
    rw [show setInf v b = { v with eq := u.eq, lt := u.lt, odd := u.odd, inf := b } by rw [h1, h2, h3]; rfl]
    exact this
  have odd : ∀ {u v : State} b, R u v → R (setOdd u b) (setOdd v b) := fun {u v} b e => by
    obtain ⟨h1, h2, h3, h4⟩ := A.flag e
    have := A.setFlags u.eq u.lt b u.inf e
    rw [show setOdd v b = { v with eq := u.eq, lt := u.lt, odd := b, inf := u.inf } by rw [h1, h2, h4]; rfl]
    exact this
  have eq : ∀ {u v : State} b, R u v → R (setEq u b) (setEq v b) := fun {u v} b e => by
    obtain ⟨h1, h2, h3, h4⟩ := A.flag e
    have := A.setFlags b u.lt u.odd u.inf e
    rw [show setEq v b = { v with eq := b, lt := u.lt, odd := u.odd, inf := u.inf } by rw [h2, h3, h4]; rfl]
    exact this
  have root : ∀ {u v : State} (r : Word), R u v → R (setRootFlags u r) (setRootFlags v r) := fun {u v} r e => by
    obtain ⟨h1, h2, h3, h4⟩ := A.flag e
    have := A.setFlags true u.lt r.parity u.inf e
    rw [show setRootFlags v r = { v with eq := true, lt := u.lt, odd := r.parity, inf := u.inf } by rw [h2, h4]; rfl]
    exact this
  have pinf : ∀ {u v : State} r x, R u v → R (setPInf u r x) (setPInf v r x) := fun r x e => inf _ (A.setP r x e)
  cases i with
  | nop => exact .commit _ _ rfl rfl (.ok h)
  | mov rd rs =>
    refine .commit (.ok _) (.ok _) rfl rfl ?_
    rw [gw]; exact one _ _
  | ldc rd idx => exact .commit _ _ rfl rfl (.bind rfl fun v => one _ v)
  | cmp ra rb =>
    refine .commit (.ok _) (.ok _) rfl rfl ?_
    rw [gw, gw]
    have := A.setFlags (decide (getW t ra = getW t rb)) (decide ((getW t ra).toNat < (getW t rb).toNat)) (getW t ra).parity
      s.inf h
    rw [show setCmpFlags t (getW t ra) (getW t rb) = { t with
      eq := decide (getW t ra = getW t rb), lt := decide ((getW t ra).toNat < (getW t rb).toNat)
      odd := (getW t ra).parity, inf := s.inf } by rw [finf]; rfl]
    exact .ok this
  | zeroize => exact .commit _ _ rfl rfl (.ok (A.zeroize h))
  | madd m rd ra rb => exact .commit _ _ rfl rfl (.bind (canon _ _) fun _ => .bind (canon _ _) fun _ => one _ _)
  | msub m rd ra rb => exact .commit _ _ rfl rfl (.bind (canon _ _) fun _ => .bind (canon _ _) fun _ => one _ _)
  | mneg m rd ra => exact .commit _ _ rfl rfl (.bind (canon _ _) fun _ => one _ _)
  | mcneg m rd ra f inv =>
    refine .commit _ _ rfl rfl (.bind (canon _ _) fun _ => ?_)
    rw [show flagOf s f = flagOf t f by cases f <;> assumption]
    exact one _ _
  | mred m rd ra =>
    refine .commit (.ok _) (.ok _) rfl rfl ?_
    rw [gw]; exact one _ _
  | mredw m rd rh rl =>
    refine .commit (.ok _) (.ok _) rfl rfl ?_
    rw [gw, gw]; exact one _ _
  | montmul m rd ra rb => exact .commit _ _ rfl rfl (.bind (canon _ _) fun _ => .bind (canon _ _) fun _ => one _ _)
  | tomont m rd ra => exact .commit _ _ rfl rfl (.bind (canon _ _) fun _ => one _ _)
  | frommont m rd ra => exact .commit _ _ rfl rfl (.bind (canon _ _) fun _ => one _ _)
  | mmul m rd ra rb => exact .commit _ _ rfl rfl (.bind (canon _ _) fun _ => .bind (canon _ _) fun _ => one _ _)
  | msqr m rd ra => exact .commit _ _ rfl rfl (.bind (canon _ _) fun _ => one _ _)
  | mpow m rd rb re =>
    refine .commit _ _ rfl rfl (.bind (canon _ _) fun _ => ?_)
    rw [gw]; exact one _ _
  | minv m rd ra => exact .commit _ _ rfl rfl (.bind (canon _ _) fun _ => .ite (.error _) (one _ _))
  | msqrt rd ra =>
    refine .commit _ _ rfl rfl (.bind (canon _ _) fun a => ?_)
    generalize sqrtCandidate a.toNat = n
    exact .ite (.ok (root _ (A.setW _ _ h))) (.ok (eq _ h))
  | pinf pd => exact .commit _ _ rfl rfl (.ok (inf _ (A.setP _ _ h)))
  | pgen pd => exact .commit _ _ rfl rfl (.ok (inf _ (A.setP _ _ h)))
  | pmov pd ps =>
    refine .commit (.ok _) (.ok _) rfl rfl ?_
    rw [gp]; exact .ok (A.setP _ _ h)
  | plda pd wx wy =>
    exact .commit _ _ rfl rfl (.bind (coord _) fun _ => .bind (coord _) fun _ => .ite (.error _) (.ok (inf _ (A.setP _ _ h))))
  | plift pd wx par =>
    refine .commit _ _ rfl rfl (.bind (coord _) fun x => ?_)
    generalize modP (x.int * x.int * x.int + 7) = c
    generalize sqrtCandidate c.toNat = n
    exact .ite (.error _) (.ok (odd _ (inf _ (A.setP _ _ h))))
  | pneg pd ps =>
    exact .commit _ _ rfl rfl (.bind (point _) fun _ =>
      .ite (.ok (inf _ (A.setP _ _ h))) (.ok (inf _ (A.setP _ _ h))))
  | padd pd pa pb =>
    exact .commit _ _ rfl rfl (.bind (point _) fun _ => .bind (point _) fun _ => .ok (pinf _ _ h))
  | pdbl pd pa => exact .commit _ _ rfl rfl (.bind (point _) fun _ => .ok (pinf _ _ h))
  | peq pa pb => exact .commit _ _ rfl rfl (.bind (point _) fun _ => .bind (point _) fun _ => .ok (eq _ h))
  | ptst ps => exact .commit _ _ rfl rfl (.bind (point _) fun _ => .ok (inf _ h))
  | paff wx wy ps =>
    exact .commit _ _ rfl rfl (.bind (point _) fun _ =>
      .ite (.error _) (.ok (odd _ (A.setW _ _ (A.setW _ _ h)))))
  | precomp w => exact .commit _ _ rfl rfl (.bind rfl fun w => .ok (A.setTable w h))
  | pmulg pd wk => exact .commit _ _ rfl rfl (.bind (scalar _) fun _ => .ok (pinf _ _ (A.lazyTable h)))
  | pmul pd pq wk =>
    exact .commit _ _ rfl rfl (.bind (point _) fun _ => .bind (scalar _) fun _ => .ok (pinf _ _ h))
  | pmul2 pd wk wl pq =>
    exact .commit _ _ rfl rfl (.bind (scalar _) fun _ => .bind (scalar _) fun _ => .bind (point _) fun _ => .ok (pinf _ _ h))
  | ninit e we wd wh =>
    have key : readPrivateKey s wd = readPrivateKey t wd := by unfold readPrivateKey; rw [gw]
    have calls : ∀ b, ninitCalls s b = ninitCalls t b := fun b => by
      unfold ninitCalls; simp only [hmacAnswer_congr (A.hmac h)]
    have hs : exec (.ninit e we wd wh) s = execNinit e we wd wh s := rfl
    have ht : exec (.ninit e we wd wh) t = execNinit e we wd wh t := rfl
    unfold execNinit at hs ht
    simp only [key, calls, gw] at hs
    by_cases hl : e = false ∧ we ≠ 0
    · rw [if_pos hl] at hs ht
      exact .commit (.error .illegalCmd) (.error .illegalCmd) hs ht (.error _)
    · rw [if_neg hl] at hs ht
      cases hk : readPrivateKey t wd with
      | error c =>
        rw [hk] at hs ht
        exact .commit (.error c) (.error c) hs ht (.error c)
      | ok d =>
        rw [hk] at hs ht
        dsimp only at hs ht
        cases hc : ninitCalls t (seedBytes d (getW t wh) (if e = true then some (getW t we) else none)) with
        | none =>
          rw [hc] at hs ht
          exact .wait hs ht
        | some kv =>
          rw [hc] at hs ht
          exact .commit (.ok _) (.ok _) hs ht (.ok (A.ninit kv.1 kv.2 h))
  | ngen wk => exact absurd rfl (hn wk)

/-- NGEN ends alike when the nonce state is the same too. -/
theorem ngen_alike (A : Alike R) {s t : State} (h : R s t) (wk : WReg) (hr : s.ngReady = t.ngReady) (hk : s.ngK = t.ngK)
    (hv : s.ngV = t.ngV) (hf : s.ngFirst = t.ngFirst) (hw : s.ngWork = t.ngWork)
    (hg : ∀ k c, R { setW s wk c with ngK := k, ngV := c, ngFirst := false }
      { setW t wk c with ngK := k, ngV := c, ngFirst := false }) :
    Twin R (.ngen wk) s t ∨
      ∃ kv, exec (.ngen wk) s = .next { s with ngWork := some kv } ∧ exec (.ngen wk) t = .next { t with ngWork := some kv } := by
  have hm := hmacAnswer_congr (A.hmac h)
  have hu : ∀ k v, refuseCandidate s k v = refuseCandidate t k v := fun k v => by unfold refuseCandidate; simp only [hm]
  have hst : ngenStart s = ngenStart t := by unfold ngenStart; rw [hw, hf, hk, hv, hu]
  have hs : exec (.ngen wk) s = execNgen wk s := rfl
  have ht : exec (.ngen wk) t = execNgen wk t := rfl
  unfold execNgen at hs ht
  rw [hst] at hs
  by_cases h0 : t.ngReady = false
  · rw [if_pos (hr.trans h0)] at hs
    rw [if_pos h0] at ht
    exact .inl (.commit (.error .nonceState) (.error .nonceState) hs ht (.error _))
  · rw [if_neg (hr ▸ h0)] at hs
    rw [if_neg h0] at ht
    cases he : ngenStart t with
    | none => rw [he] at hs ht; exact .inl (.wait hs ht)
    | some kv =>
      rw [he] at hs ht
      dsimp only at hs ht
      rw [hm] at hs
      cases hc : hmacAnswer t kv.1 (be32 kv.2) with
      | none => rw [hc] at hs ht; exact .inl (.wait hs ht)
      | some c =>
        rw [hc] at hs ht
        dsimp only at hs ht
        by_cases hin : c ≠ 0 ∧ c.toNat < orderN
        · rw [if_pos hin] at hs ht
          exact .inl (.commit (.ok _) (.ok _) hs ht (.ok (hg kv.1 c)))
        · rw [if_neg hin] at hs ht
          rw [hu] at hs
          cases hx : refuseCandidate t kv.1 c with
          | none => rw [hx] at hs ht; exact .inl (.wait hs ht)
          | some kv' => rw [hx] at hs ht; exact .inr ⟨kv', hs, ht⟩

/-- The states agree but for the error record, and the first has none. -/
def SameButRecord (s t : State) : Prop := s.err = false ∧ t = { s with err := t.err, errcode := t.errcode, errcmd := t.errcmd }

theorem alike_err : Alike SameButRecord where
  w := fun ⟨_, h⟩ => by rw [h]
  p := fun ⟨_, h⟩ => by rw [h]
  flag := fun ⟨_, h⟩ => by rw [h]; exact ⟨rfl, rfl, rfl, rfl⟩
  hmac := fun ⟨_, h⟩ => by rw [h]
  setW := fun r v ⟨e, h⟩ => ⟨e, by rw [h]; rfl⟩
  setP := fun r v ⟨e, h⟩ => ⟨e, by rw [h]; rfl⟩
  setFlags := fun _ _ _ _ ⟨e, h⟩ => ⟨e, by rw [h]⟩
  setTable := fun _ ⟨e, h⟩ => ⟨e, by rw [h]; rfl⟩
  lazyTable := fun {s t} ⟨e, h⟩ => by
    have ht : t.tblValid = s.tblValid := by rw [h]
    unfold lazyTable; rw [ht]; split
    · exact ⟨e, h⟩
    · exact ⟨e, by rw [h]; rfl⟩
  zeroize := fun ⟨e, h⟩ => ⟨e, by rw [h]; rfl⟩
  ninit := fun _ _ ⟨e, h⟩ => ⟨e, by rw [h]⟩

theorem alike_table : Alike SameButTable where
  w := fun h => by rw [h]
  p := fun h => by rw [h]
  flag := fun h => by rw [h]; exact ⟨rfl, rfl, rfl, rfl⟩
  hmac := fun h => by rw [h]
  setW := fun r v h => by unfold SameButTable; rw [h]; rfl
  setP := fun r v h => by unfold SameButTable; rw [h]; rfl
  setFlags := fun _ _ _ _ h => by unfold SameButTable; rw [h]
  setTable := fun _ h => by unfold SameButTable; rw [h]; rfl
  lazyTable := fun {s t} h => by
    unfold lazyTable; unfold SameButTable; split <;> split <;> (rw [h]; try rfl)
  zeroize := fun h => by unfold SameButTable; rw [h]; rfl
  ninit := fun _ _ h => by unfold SameButTable; rw [h]

theorem alike_nonce : Alike SameButNonce where
  w := fun h => by rw [h]
  p := fun h => by rw [h]
  flag := fun h => by rw [h]; exact ⟨rfl, rfl, rfl, rfl⟩
  hmac := fun h => by rw [h]
  setW := fun r v h => by unfold SameButNonce; rw [h]; rfl
  setP := fun r v h => by unfold SameButNonce; rw [h]; rfl
  setFlags := fun _ _ _ _ h => by unfold SameButNonce; rw [h]
  setTable := fun _ h => by unfold SameButNonce; rw [h]; rfl
  lazyTable := fun {s t} h => by
    have ht : t.tblValid = s.tblValid := by rw [h]
    unfold lazyTable; rw [ht]; split
    · exact h
    · unfold SameButNonce; rw [h]; rfl
  zeroize := fun h => by unfold SameButNonce; rw [h]; rfl
  ninit := fun _ _ h => by unfold SameButNonce; rw [h]

/-- Completion steps of related outcomes end alike. -/
theorem endAlike_commit {i : Instr} {s t : State} {r r' : Except ErrCode State}
    (hc : ∀ {u v}, R u v → R (complete u) (complete v)) (h : Same R r r')
    (hr : ∀ c w, R (recordError c w s) (recordError c w t)) : EndAlike R (commit i s r) (commit i t r') := by
  cases h with
  | ok h => exact hc h
  | error c => exact hc (hr c _)

end Sys2Proof.Machine
end

