-- ==== Sys2Proof/Laws/Arith.lean ====
section
/-! SUPPORT. What the modular operations of Machine/Arith.lean compute (spec/00_scope.md R11). -/

namespace Sys2Proof.Machine

theorem modulus_pos (m : Modulus) : 0 < modulus m := by cases m <;> decide

theorem modulus_le (m : Modulus) : modulus m ≤ 2 ^ 256 := by cases m <;> decide

theorem fieldP_pos : 0 < fieldP := modulus_pos .p

theorem fieldP_le : fieldP ≤ 2 ^ 256 := modulus_le .p

/-- A residue as a natural number. -/
theorem residue_toNat {m : Nat} (h0 : 0 < m) (h : m ≤ 2 ^ 256) (x : Int) :
    (residue m x).toNat = (x % (m : Int)).toNat := by
  unfold residue
  rw [BitVec.toNat_ofNat, Nat.mod_eq_of_lt]
  have := Int.emod_lt_of_pos x (show (0 : Int) < m by omega)
  omega

/-- A residue is canonical (R13). -/
theorem residue_lt {m : Nat} (h0 : 0 < m) (h : m ≤ 2 ^ 256) (x : Int) : (residue m x).toNat < m := by
  rw [residue_toNat h0 h]
  have := Int.emod_lt_of_pos x (show (0 : Int) < m by omega)
  omega

/-- The residue of a natural number. -/
theorem residue_ofNat (m n : Nat) : residue m (n : Int) = BitVec.ofNat 256 (n % m) := by
  unfold residue
  rw [← Int.natCast_mod, Int.toNat_natCast]

/-- The residue of an integer that is a natural number modulo m. -/
theorem residue_congr {m : Nat} {x y : Int} (h : x % (m : Int) = y % (m : Int)) : residue m x = residue m y := by
  unfold residue; rw [h]

/-- The loop of powMod is exponentiation, for exponents that fit the fuel. -/
theorem powLoop_eq (m fuel a e : Nat) (h : e < 2 ^ fuel) : powLoop m fuel a e = a ^ e % m := by
  induction fuel generalizing a e with
  | zero =>
    obtain rfl : e = 0 := by simpa using h
    simp [powLoop]
  | succ n ih =>
    have h2 : e / 2 < 2 ^ n := by rw [Nat.pow_succ] at h; omega
    have hsq : (a * a % m) ^ (e / 2) % m = a ^ (2 * (e / 2)) % m := by
      rw [← Nat.pow_mod, ← pow_two, ← pow_mul]
    simp only [powLoop, ih _ _ h2, hsq]
    split
    · rw [Nat.mul_mod_mod, ← pow_succ']
      congr 2; omega
    · congr 2; omega

/-- powMod is exponentiation modulo m for every exponent a word holds (R11, R175). -/
theorem powMod_eq {m a e : Nat} (h : e < 2 ^ 256) : powMod m a e = a ^ e % m := powLoop_eq m 256 a e h

theorem powMod_word (m a : Nat) (e : Word) : powMod m a e.toNat = a ^ e.toNat % m := powMod_eq e.isLt

/-- The Fermat inverse is a power (R190). -/
theorem invMod_eq {m a : Nat} (h : m ≤ 2 ^ 256) : invMod m a = a ^ (m - 2) % m :=
  powMod_eq (by have : 0 < 2 ^ 256 := by decide
                omega)

/-- The square-root candidate is a power (R191). -/
theorem sqrtCandidate_eq (a : Nat) : sqrtCandidate a = a ^ ((fieldP + 1) / 4) % fieldP := powMod_eq (by decide)

/-- Bit 0 of a word made from a natural number. -/
theorem parity_ofNat (n : Nat) : Word.parity (BitVec.ofNat 256 n) = decide (n % 2 = 1) := by
  unfold Word.parity
  rw [BitVec.getLsbD_ofNat, Nat.testBit_zero]
  rfl

/-- Bit 0 of a word. -/
theorem parity_eq (v : Word) : v.parity = decide (v.toNat % 2 = 1) := Nat.testBit_zero v.toNat

/-- The integer of a word made from a canonical number. -/
theorem int_ofNat {n : Nat} (h : n < fieldP) : Word.int (BitVec.ofNat 256 n) = (n : Int) := by
  simp only [Word.int]
  rw [BitVec.toNat_ofNat, Nat.mod_eq_of_lt (h.trans_le fieldP_le)]

/-- R·R^-1 = 1 for both moduli (R176). -/
theorem montRinv_mul_montR (m : Modulus) : montRinv m * montR % modulus m = 1 := by cases m <;> decide +kernel

/-- Multiplying by R^-1 is undone by multiplying by R (R170, R172). -/
theorem residue_montRinv_mul (m : Modulus) (x : Nat) :
    (residue (modulus m) ((x : Int) * (montRinv m : Int))).toNat * montR % modulus m = x % modulus m := by
  rw [← Int.natCast_mul, residue_ofNat, BitVec.toNat_ofNat, Nat.mod_eq_of_lt (a := _ % modulus m)]
  · rw [Nat.mod_mul_mod, mul_assoc, Nat.mul_mod, montRinv_mul_montR, mul_one, Nat.mod_mod]
  · exact (Nat.mod_lt _ (modulus_pos m)).trans_le (modulus_le m)

/-- The negation of a canonical value (R152). -/
theorem residue_neg (m : Modulus) {a : Word} (h : a.toNat < modulus m) :
    residue (modulus m) ((modulus m : Int) - a.int) = BitVec.ofNat 256 ((modulus m - a.toNat) % modulus m) := by
  rw [← residue_ofNat]
  congr 1
  simp only [Word.int]
  omega

theorem modP_nonneg (x : Int) : 0 ≤ modP x := Int.emod_nonneg _ (by decide)

theorem modP_lt (x : Int) : modP x < (fieldP : Int) := Int.emod_lt_of_pos _ (by decide)

/-- On natural numbers modP is the natural remainder. -/
theorem modP_natCast (n : Nat) : modP (n : Int) = ((n % fieldP : Nat) : Int) := (Int.natCast_mod n fieldP).symm

end Sys2Proof.Machine
end

