-- ==== Sys2Proof/Laws/Bus.lean ====
section
/-! SUPPORT. The register window: which register an offset selects, and reading a word after writing it (spec/20_memory.md R64, R66,
R67). -/

namespace Sys2Proof.Machine

/-- The registers have the offsets the map gives them: each offset selects its register back (R64). -/
theorem regAt_regOffset (r : Reg) : regAt (regOffset r) = some r := by
  cases r with
  | w i j => revert i j; decide
  | p k c j => cases c <;> (revert k j; decide)
  | _ => rfl

/-- What an offset selects has that offset (R64). -/
theorem regOffset_of_regAt {off : BitVec 12} {r : Reg} (h : regAt off = some r) : regOffset r = off := by
  have all : ∀ off : BitVec 12, (match regAt off with
      | some r => decide (regOffset r = off)
      | none => true) = true := by decide +kernel
  have := all off
  rw [h] at this
  simpa using this

/-- Bit by bit, what `setLane` does (R66). -/
theorem setLane_getLsbD (v : Word) (j : Fin 8) (x : Bus) (i : Nat) (hi : i < 256) :
    (setLane v j x).getLsbD i =
      if 224 - 32 * j.val ≤ i ∧ i < 256 - 32 * j.val then x.getLsbD (i - (224 - 32 * j.val)) else v.getLsbD i := by
  unfold setLane
  have hj := j.isLt
  have hm : (0xFFFFFFFF : Word) = (BitVec.allOnes 32).setWidth 256 := by decide
  simp only [hm, BitVec.getLsbD_or, BitVec.getLsbD_and, BitVec.getLsbD_not, BitVec.getLsbD_shiftLeft,
    BitVec.getLsbD_setWidth, BitVec.getLsbD_allOnes, hi, decide_true, Bool.true_and]
  by_cases h1 : i < 224 - 32 * j.val
  · simp [h1]; omega
  · by_cases h2 : i < 256 - 32 * j.val
    · have h3 : i - (224 - 32 * j.val) < 32 := by omega
      have h4 : i - (224 - 32 * j.val) < 256 := by omega
      have h5 : 224 - 32 * j.val ≤ i := by omega
      simp [h1, h2, h3, h4, h5]
    · have h3 : ¬ i - (224 - 32 * j.val) < 32 := by omega
      simp [h1, h2, h3, BitVec.getLsbD_of_ge x _ (Nat.not_lt.1 h3)]

/-- A word read back after it was written (R66). -/
@[simp] theorem laneOf_setLane_same (v : Word) (j : Fin 8) (x : Bus) : laneOf (setLane v j x) j = x := by
  have hj := j.isLt
  ext i hi
  simp only [laneOf, BitVec.getElem_extractLsb']
  rw [setLane_getLsbD _ _ _ _ (by omega), if_pos (by omega), Nat.add_sub_cancel_left, BitVec.getLsbD_eq_getElem hi]

/-- The other words of the value are unchanged (R66). -/
theorem laneOf_setLane_ne (v : Word) {j k : Fin 8} (x : Bus) (h : k ≠ j) : laneOf (setLane v j x) k = laneOf v k := by
  have hj := j.isLt
  have hk := k.isLt
  have hne : k.val ≠ j.val := fun e => h (Fin.ext e)
  ext i hi
  simp only [laneOf, BitVec.getElem_extractLsb']
  rw [setLane_getLsbD _ _ _ _ (by omega), if_neg (by omega)]

@[simp] theorem coordOf_setCoord_same (t : Triple) (c : Coord) (v : Word) : coordOf (setCoord t c v) c = v := by
  cases c <;> rfl

theorem coordOf_setCoord_ne (t : Triple) {c d : Coord} (v : Word) (h : d ≠ c) :
    coordOf (setCoord t c v) d = coordOf t d := by
  cases c <;> cases d <;> first | rfl | exact absurd rfl h

/-- A transaction that is not exactly 32 bits at a multiple of 4 is an ERROR (R62). -/
theorem busRead_misshaped {a : BusAccess} (s : State) (h : accessShaped a = false) : busRead a s = .error .shape := by
  simp [busRead, h]

/-- The 32-bit read of a register's offset returns the register (R64). -/
theorem busRead_word32 {off : BitVec 12} {r : Reg} (s : State) (h : regAt off = some r) :
    busRead (word32 off) s = .data (readReg s r) := by
  have ho : off.toNat % 4 = 0 := by
    by_contra hc
    simp [regAt, hc] at h
  simp [busRead, accessShaped, word32, ho, h]

/-- The 32-bit write of a register's offset acts on the register (R64). -/
theorem busWrite_word32 {off : BitVec 12} {r : Reg} (v : Bus) (s : State) (h : regAt off = some r) :
    busWrite (word32 off) v s = (.ack, writeReg r v s) := by
  have ho : off.toNat % 4 = 0 := by
    by_contra hc
    simp [regAt, hc] at h
  simp [busWrite, accessShaped, word32, ho, h]

/-- No write touches the environment's lists, the hmac answers or the last bus answer. -/
theorem writeReg_env (r : Reg) (v : Bus) (s : State) :
    (writeReg r v s).events = s.events ∧ (writeReg r v s).hmac = s.hmac ∧ (writeReg r v s).resp = s.resp := by
  cases r <;> simp only [writeReg, writeCtrl, writeStatus, writeCmd, writeData, clearErr, clearDone] <;>
    (repeat' split) <;> simp

/-- A write of STATUS, field by field: write-1-to-clear DONE, and ERR with its record (R32, R34, R35). -/
theorem writeStatus_fields (v : Bus) (s : State) : writeStatus v s = { s with
    done := s.done && !v.getLsbD 1
    err := s.err && !v.getLsbD 2
    errcode := if v.getLsbD 2 then .noError else s.errcode
    errcmd := if v.getLsbD 2 then 0 else s.errcmd } := by
  unfold writeStatus clearErr clearDone
  cases v.getLsbD 1 <;> cases v.getLsbD 2 <;> simp

end Sys2Proof.Machine
end

