-- ==== Sys2Proof/Laws/Decode.lean ====
section
/-! SUPPORT. A command word and its seven fields say the same thing (spec/30_encoding.md R101), and the small lemmas of the
operand fields. -/

namespace Sys2Proof

/-- No bit is lost from fields to word to fields. -/
@[simp] theorem Fields.split_join (f : Fields) : Fields.split f.join = f := by
  obtain ⟨opc, m, rsv, rd, rs1, rs2, imm⟩ := f
  simp only [Fields.split, Fields.join, Fields.mk.injEq]
  refine ⟨?_, ?_, ?_, ?_, ?_, ?_, ?_⟩ <;>
  · ext i hi
    simp only [BitVec.getElem_extractLsb', BitVec.getLsbD_append]
    repeat (first | (rw [if_neg (by omega)]) | (rw [if_pos (by omega)]))
    try simp only [BitVec.getLsbD_eq_getElem, hi]
    congr 1
    try (dsimp only; omega)

/-- No bit is lost from word to fields to word. -/
@[simp] theorem Fields.join_split (w : Bus) : (Fields.split w).join = w := by
  simp only [Fields.split, Fields.join]
  ext i hi
  rw [← BitVec.getLsbD_eq_getElem hi, ← BitVec.getLsbD_eq_getElem hi]
  simp only [BitVec.getLsbD_append, BitVec.getLsbD_extractLsb']
  split_ifs <;> rw [decide_eq_true (by omega), Bool.true_and] <;> congr 1 <;> omega

@[simp] theorem wregOfBits_bitsOfWreg (r : WReg) : wregOfBits (bitsOfWreg r) = r := rfl

@[simp] theorem bitsOfWreg_wregOfBits (b : BitVec 4) : bitsOfWreg (wregOfBits b) = b := rfl

@[simp] theorem bitsOfWreg_eq_zero (r : WReg) : bitsOfWreg r = 0 ↔ r = 0 := by revert r; decide

@[simp] theorem pregOfBits_pfieldOfPreg (r : PReg) : pregOfBits (pfieldOfPreg r) = r := by revert r; decide

@[simp] theorem pregOfBits_immOfPreg (r : PReg) : pregOfBits (0#5 ++ bitsOfPreg r) = r := by revert r; decide

@[simp] theorem fieldReject_pfieldOfPreg (r : PReg) : fieldReject .p (pfieldOfPreg r) = none := by revert r; decide

@[simp] theorem fieldReject_w (b : BitVec 4) : fieldReject .w b = none := rfl

@[simp] theorem fieldReject_unused_zero : fieldReject .unused 0#4 = none := rfl

theorem fieldReject_unused_none (b : BitVec 4) : fieldReject .unused b = none → b = 0 := by revert b; decide

/-- A legal p field is the field of the register it names (R102). -/
theorem pfieldOfPreg_pregOfBits (b : BitVec 4) : fieldReject .p b = none → pfieldOfPreg (pregOfBits b) = b := by
  revert b; decide

@[simp] theorem modulusOfBit_bitOfModulus (m : Modulus) : modulusOfBit (bitOfModulus m) = m := by cases m <;> rfl

@[simp] theorem bitOfModulus_modulusOfBit (b : BitVec 1) : bitOfModulus (modulusOfBit b) = b := by revert b; decide

/-- MCNEG's IMM8 gives back its flag (R104). -/
@[simp] theorem flagOfBits_condition (f : Flag) (inv : Bool) :
    flagOfBits ((0#5 ++ BitVec.ofBool inv ++ bitsOfFlag f).extractLsb' 0 2) = f := by
  cases f <;> cases inv <;> rfl

/-- MCNEG's IMM8 gives back its inversion (R104). -/
@[simp] theorem inv_condition (f : Flag) (inv : Bool) :
    (0#5 ++ BitVec.ofBool inv ++ bitsOfFlag f : BitVec 8).getLsbD 2 = inv := by
  cases f <;> cases inv <;> rfl

@[simp] theorem immLegal_condition (f : Flag) (inv : Bool) :
    immLegal .condition (0#5 ++ BitVec.ofBool inv ++ bitsOfFlag f) = true := by
  cases f <;> cases inv <;> rfl

@[simp] theorem immLegal_pointReg (r : PReg) : immLegal .pointReg (0#5 ++ bitsOfPreg r) = true := by revert r; decide

@[simp] theorem immLegal_parity (b : Bool) : immLegal .parity (immOfBool b) = true := by cases b <;> rfl

@[simp] theorem immLegal_extra (b : Bool) : immLegal .extra (immOfBool b) = true := by cases b <;> rfl

@[simp] theorem inv_condition_getElem (f : Flag) (inv : Bool) :
    (0#5 ++ BitVec.ofBool inv ++ bitsOfFlag f : BitVec 8)[2] = inv := by
  cases f <;> cases inv <;> rfl

@[simp] theorem immOfBool_getElem (b : Bool) : (immOfBool b)[0] = b := by cases b <;> rfl

@[simp] theorem immOfBool_getLsbD (b : Bool) : (immOfBool b).getLsbD 0 = b := by cases b <;> rfl

@[simp] theorem immOfBool_eq_zero (b : Bool) : immOfBool b = 0 ↔ b = false := by cases b <;> decide

/-- A legal condition is the one its flag and inversion encode (R104). -/
theorem condition_of_legal (v : BitVec 8) : immLegal .condition v = true →
    (0#5 ++ BitVec.ofBool (v.getLsbD 2) ++ bitsOfFlag (flagOfBits (v.extractLsb' 0 2)) : BitVec 8) = v := by
  revert v; decide

theorem pointReg_of_legal (v : BitVec 8) : immLegal .pointReg v = true →
    (0#5 ++ bitsOfPreg (pregOfBits v) : BitVec 8) = v := by revert v; decide

theorem parity_of_legal (v : BitVec 8) : immLegal .parity v = true → immOfBool (v.getLsbD 0) = v := by revert v; decide

theorem extra_of_legal (v : BitVec 8) : immLegal .extra v = true → immOfBool (v.getLsbD 0) = v := by revert v; decide

theorem unused_of_legal (v : BitVec 8) : immLegal .unused v = true → v = 0 := by revert v; decide

/-- What a legal word's fields satisfy, item by item (R106). -/
theorem rowReject_none {r : Row} {f : Fields} (h : rowReject r f = none) :
    f.rsv = 0 ∧ (r.takesM = false → f.m = 0) ∧ fieldReject r.rd f.rd = none ∧ fieldReject r.rs1 f.rs1 = none ∧
      fieldReject r.rs2 f.rs2 = none ∧ immLegal r.imm f.imm = true ∧ (r.imm = .extra → f.imm = 0 → f.rd = 0) := by
  unfold rowReject at h
  split at h
  · cases h
  split at h
  · cases h
  split at h
  · cases h
  split at h
  · cases h
  split at h
  · cases h
  split at h
  · cases h
  split at h
  · cases h
  · rename_i h1 h2 _ h3 _ h4 _ h5 h6 h7
    refine ⟨by simpa using h1, fun hm => ?_, h3, h4, h5, by simpa using h6, fun hi hz => ?_⟩
    · by_contra hc; exact h2 ⟨hm, hc⟩
    · by_contra hc; exact h7 ⟨hi, hz, hc⟩

/-- The decoder on an assigned opcode whose fields pass every item of R106. -/
theorem decodeFields_of {f : Fields} {r : Row} (hr : rowOf f.opc = some r) (hn : rowReject r f = none) :
    decodeFields f = .ok (buildInstr r.op f) := by
  simp [decodeFields, hr, hn]

/-- What it takes to decode: an assigned opcode, and no item of R106 failed. -/
theorem decodeFields_ok {f : Fields} {i : Instr} (h : decodeFields f = .ok i) :
    ∃ r, rowOf f.opc = some r ∧ rowReject r f = none ∧ i = buildInstr r.op f := by
  unfold decodeFields at h
  split at h
  · cases h
  · rename_i r hr
    split at h
    · cases h
    · rename_i hn
      exact ⟨r, hr, hn, by cases h; rfl⟩

/-- An assigned opcode's row is in the map and has that opcode. -/
theorem rowOf_some {o : BitVec 8} {r : Row} (h : rowOf o = some r) : r ∈ opcodeMap ∧ r.opc = o :=
  ⟨List.mem_of_find?_eq_some h, by simpa using List.find?_some h⟩

/-- The fields that decode are those of a well-formed command: no field is ignored (R106). -/
theorem encodeFields_of_decodeFields {f : Fields} {i : Instr} (h : decodeFields f = .ok i) :
    i.wellFormed = true ∧ encodeFields i = f := by
  obtain ⟨r, hr, hn, rfl⟩ := decodeFields_ok h
  obtain ⟨hmem, hopc⟩ := rowOf_some hr
  obtain ⟨hrsv, hm, h0, h1, h2, h3, h4⟩ := rowReject_none hn
  obtain ⟨opc, m, rsv, rd, rs1, rs2, imm⟩ := f
  simp only at hrsv hm h0 h1 h2 h3 h4 hopc
  subst hrsv
  simp only [opcodeMap, rowsSequencer, rowsAddSub, rowsMultiplier, rowsPoint, rowsScalarNonce, List.cons_append,
    List.nil_append, List.mem_cons, List.not_mem_nil, or_false] at hmem
  have hu := @fieldReject_unused_none
  have hp := @pfieldOfPreg_pregOfBits
  rcases hmem with rfl | rfl | rfl | rfl | rfl | rfl | rfl | rfl | rfl | rfl | rfl | rfl | rfl | rfl | rfl | rfl | rfl | rfl |
      rfl | rfl | rfl | rfl | rfl | rfl | rfl | rfl | rfl | rfl | rfl | rfl | rfl | rfl | rfl | rfl | rfl | rfl <;>
    simp only at hm h0 h1 h2 h3 h4 hopc <;> subst hopc
  all_goals
    try have e0 := hu _ h0
    try have e1 := hu _ h1
    try have e2 := hu _ h2
    try have p0 := hp _ h0
    try have p1 := hp _ h1
    try have p2 := hp _ h2
    try have em := hm rfl
    try have ei := unused_of_legal _ h3
    try have ei := parity_of_legal _ h3
    try have ei := extra_of_legal _ h3
    try have ei := pointReg_of_legal _ h3
    try have ei := condition_of_legal _ h3
    clear hu hp hr hn h
    simp_all [buildInstr, encodeFields, Instr.wellFormed]
  · exact h3
  · exact h3
  · cases hb : imm[0] with
    | true => rfl
    | false =>
      rw [hb] at ei
      rw [h4 ei.symm]
      rfl

/-- Words decode as their fields do. -/
theorem decode_join (f : Fields) : decode f.join = decodeFields f := by simp [decode]

end Sys2Proof
end

