-- ==== Sys2Proof/Laws/Prime.lean ====
section
/-! SUPPORT. P and N are prime (spec/00_scope.md R4; spec/43_field_inverter.md R192), by Lucas certificates: each prime with a
primitive root and the prime factors of its predecessor. -/

namespace Sys2Proof.Machine

/-- The loop of powMod in ZMod. -/
theorem cast_powLoop {p : Nat} (a e : Nat) (h : e < 2 ^ 256) : ((powLoop p 256 a e : Nat) : ZMod p) = (a : ZMod p) ^ e := by
  rw [powLoop_eq _ _ _ _ h, ZMod.natCast_mod, Nat.cast_pow]

/-- A Lucas certificate, evaluated by powLoop: `root` has order p - 1, told by the prime factors `fs` of p - 1. -/
theorem prime_of_certificate (p root : Nat) (fs : List Nat) (hp : 1 < p) (hb : p ≤ 2 ^ 256) (hfs : ∀ q ∈ fs, q.Prime)
    (hprod : fs.prod = p - 1) (h1 : powLoop p 256 root (p - 1) = 1)
    (hd : ∀ q ∈ fs, powLoop p 256 root ((p - 1) / q) ≠ 1) : p.Prime := by
  refine lucas_primality p (root : ZMod p) ?_ fun q hq hdvd h => ?_
  · rw [← cast_powLoop root _ (by omega), h1, Nat.cast_one]
  · rw [← hprod] at hdvd
    obtain ⟨r, hr, hqr⟩ := (Prime.dvd_prod_iff hq.prime).1 hdvd
    obtain rfl : q = r := (Nat.prime_dvd_prime_iff_eq hq (hfs r hr)).1 hqr
    have hlt : (p - 1) / q < 2 ^ 256 := lt_of_le_of_lt (Nat.div_le_self _ _) (by omega)
    rw [← cast_powLoop root _ hlt] at h
    have hm : powLoop p 256 root ((p - 1) / q) < p := by
      rw [powLoop_eq _ _ _ _ hlt]; exact Nat.mod_lt _ (by omega)
    have h' : ((powLoop p 256 root ((p - 1) / q) : Nat) : ZMod p) = ((1 : Nat) : ZMod p) := by rw [h, Nat.cast_one]
    rw [ZMod.natCast_eq_natCast_iff, Nat.ModEq, Nat.mod_eq_of_lt hm, Nat.mod_eq_of_lt hp] at h'
    exact hd q hr h'

theorem prime_7240687 : Nat.Prime 7240687 :=
  prime_of_certificate _ 3 [2, 3, 1206781] (by decide +kernel) (by decide +kernel)
    (by
      simp only [List.mem_cons, List.not_mem_nil, or_false, forall_eq_or_imp, forall_eq]
      exact ⟨by norm_num, by norm_num, by norm_num⟩)
    (by decide +kernel) (by decide +kernel) (by decide +kernel)

theorem prime_107590001 : Nat.Prime 107590001 :=
  prime_of_certificate _ 3 [2, 2, 2, 2, 5, 5, 5, 5, 7, 29, 53] (by decide +kernel) (by decide +kernel)
    (by
      simp only [List.mem_cons, List.not_mem_nil, or_false, forall_eq_or_imp, forall_eq]
      exact ⟨by norm_num, by norm_num, by norm_num, by norm_num, by norm_num, by norm_num, by norm_num, by norm_num, by norm_num, by norm_num, by norm_num⟩)
    (by decide +kernel) (by decide +kernel) (by decide +kernel)

theorem prime_255515944373312847190720520512484175977 : Nat.Prime 255515944373312847190720520512484175977 :=
  prime_of_certificate _ 3 [2, 2, 2, 7, 7, 11, 1627, 2657, 4423, 41201, 96557, 7240687, 107590001] (by decide +kernel) (by decide +kernel)
    (by
      simp only [List.mem_cons, List.not_mem_nil, or_false, forall_eq_or_imp, forall_eq]
      exact ⟨by norm_num, by norm_num, by norm_num, by norm_num, by norm_num, by norm_num, by norm_num, by norm_num, by norm_num, by norm_num, by norm_num, prime_7240687, prime_107590001⟩)
    (by decide +kernel) (by decide +kernel) (by decide +kernel)

theorem prime_13331831 : Nat.Prime 13331831 :=
  prime_of_certificate _ 13 [2, 5, 971, 1373] (by decide +kernel) (by decide +kernel)
    (by
      simp only [List.mem_cons, List.not_mem_nil, or_false, forall_eq_or_imp, forall_eq]
      exact ⟨by norm_num, by norm_num, by norm_num, by norm_num⟩)
    (by decide +kernel) (by decide +kernel) (by decide +kernel)

theorem prime_173378833005251801 : Nat.Prime 173378833005251801 :=
  prime_of_certificate _ 6 [2, 2, 2, 5, 5, 2621, 24809, 13331831] (by decide +kernel) (by decide +kernel)
    (by
      simp only [List.mem_cons, List.not_mem_nil, or_false, forall_eq_or_imp, forall_eq]
      exact ⟨by norm_num, by norm_num, by norm_num, by norm_num, by norm_num, by norm_num, by norm_num, prime_13331831⟩)
    (by decide +kernel) (by decide +kernel) (by decide +kernel)

theorem prime_22149492674086928081353 : Nat.Prime 22149492674086928081353 :=
  prime_of_certificate _ 5 [2, 2, 2, 3, 5323, 173378833005251801] (by decide +kernel) (by decide +kernel)
    (by
      simp only [List.mem_cons, List.not_mem_nil, or_false, forall_eq_or_imp, forall_eq]
      exact ⟨by norm_num, by norm_num, by norm_num, by norm_num, by norm_num, prime_173378833005251801⟩)
    (by decide +kernel) (by decide +kernel) (by decide +kernel)

theorem prime_132896956044521568488119 : Nat.Prime 132896956044521568488119 :=
  prime_of_certificate _ 6 [2, 3, 22149492674086928081353] (by decide +kernel) (by decide +kernel)
    (by
      simp only [List.mem_cons, List.not_mem_nil, or_false, forall_eq_or_imp, forall_eq]
      exact ⟨by norm_num, by norm_num, prime_22149492674086928081353⟩)
    (by decide +kernel) (by decide +kernel) (by decide +kernel)

theorem prime_205115282021455665897114700593932402728804164701536103180137503955397371 : Nat.Prime 205115282021455665897114700593932402728804164701536103180137503955397371 :=
  prime_of_certificate _ 10 [2, 3, 5, 29, 29, 31, 7723, 132896956044521568488119, 255515944373312847190720520512484175977] (by decide +kernel) (by decide +kernel)
    (by
      simp only [List.mem_cons, List.not_mem_nil, or_false, forall_eq_or_imp, forall_eq]
      exact ⟨by norm_num, by norm_num, by norm_num, by norm_num, by norm_num, by norm_num, by norm_num, prime_132896956044521568488119, prime_255515944373312847190720520512484175977⟩)
    (by decide +kernel) (by decide +kernel) (by decide +kernel)

theorem fieldP_prime : Nat.Prime fieldP :=
  prime_of_certificate _ 3 [2, 3, 7, 13441, 205115282021455665897114700593932402728804164701536103180137503955397371] (by decide +kernel) (by decide +kernel)
    (by
      simp only [List.mem_cons, List.not_mem_nil, or_false, forall_eq_or_imp, forall_eq]
      exact ⟨by norm_num, by norm_num, by norm_num, by norm_num, prime_205115282021455665897114700593932402728804164701536103180137503955397371⟩)
    (by decide +kernel) (by decide +kernel) (by decide +kernel)

theorem prime_44706919 : Nat.Prime 44706919 :=
  prime_of_certificate _ 6 [2, 3, 797, 9349] (by decide +kernel) (by decide +kernel)
    (by
      simp only [List.mem_cons, List.not_mem_nil, or_false, forall_eq_or_imp, forall_eq]
      exact ⟨by norm_num, by norm_num, by norm_num, by norm_num⟩)
    (by decide +kernel) (by decide +kernel) (by decide +kernel)

theorem prime_174723607534414371449 : Nat.Prime 174723607534414371449 :=
  prime_of_certificate _ 3 [2, 2, 2, 17, 59, 4051, 120233, 44706919] (by decide +kernel) (by decide +kernel)
    (by
      simp only [List.mem_cons, List.not_mem_nil, or_false, forall_eq_or_imp, forall_eq]
      exact ⟨by norm_num, by norm_num, by norm_num, by norm_num, by norm_num, by norm_num, by norm_num, prime_44706919⟩)
    (by decide +kernel) (by decide +kernel) (by decide +kernel)

theorem prime_4681609 : Nat.Prime 4681609 :=
  prime_of_certificate _ 23 [2, 2, 2, 3, 97, 2011] (by decide +kernel) (by decide +kernel)
    (by
      simp only [List.mem_cons, List.not_mem_nil, or_false, forall_eq_or_imp, forall_eq]
      exact ⟨by norm_num, by norm_num, by norm_num, by norm_num, by norm_num, by norm_num⟩)
    (by decide +kernel) (by decide +kernel) (by decide +kernel)

theorem prime_107361793816595537 : Nat.Prime 107361793816595537 :=
  prime_of_certificate _ 3 [2, 2, 2, 2, 16699, 85831, 4681609] (by decide +kernel) (by decide +kernel)
    (by
      simp only [List.mem_cons, List.not_mem_nil, or_false, forall_eq_or_imp, forall_eq]
      exact ⟨by norm_num, by norm_num, by norm_num, by norm_num, by norm_num, by norm_num, prime_4681609⟩)
    (by decide +kernel) (by decide +kernel) (by decide +kernel)

theorem prime_297159362677 : Nat.Prime 297159362677 :=
  prime_of_certificate _ 2 [2, 2, 3, 3, 11, 461, 1627771] (by decide +kernel) (by decide +kernel)
    (by
      simp only [List.mem_cons, List.not_mem_nil, or_false, forall_eq_or_imp, forall_eq]
      exact ⟨by norm_num, by norm_num, by norm_num, by norm_num, by norm_num, by norm_num, by norm_num⟩)
    (by decide +kernel) (by decide +kernel) (by decide +kernel)

theorem prime_545358713 : Nat.Prime 545358713 :=
  prime_of_certificate _ 5 [2, 2, 2, 41, 59, 28181] (by decide +kernel) (by decide +kernel)
    (by
      simp only [List.mem_cons, List.not_mem_nil, or_false, forall_eq_or_imp, forall_eq]
      exact ⟨by norm_num, by norm_num, by norm_num, by norm_num, by norm_num, by norm_num⟩)
    (by decide +kernel) (by decide +kernel) (by decide +kernel)

theorem prime_29047611873442575647497758179 : Nat.Prime 29047611873442575647497758179 :=
  prime_of_certificate _ 2 [2, 293, 305873, 545358713, 297159362677] (by decide +kernel) (by decide +kernel)
    (by
      simp only [List.mem_cons, List.not_mem_nil, or_false, forall_eq_or_imp, forall_eq]
      exact ⟨by norm_num, by norm_num, by norm_num, prime_545358713, prime_297159362677⟩)
    (by decide +kernel) (by decide +kernel) (by decide +kernel)

theorem prime_341948486974166000522343609283189 : Nat.Prime 341948486974166000522343609283189 :=
  prime_of_certificate _ 2 [2, 2, 3, 3, 3, 109, 29047611873442575647497758179] (by decide +kernel) (by decide +kernel)
    (by
      simp only [List.mem_cons, List.not_mem_nil, or_false, forall_eq_or_imp, forall_eq]
      exact ⟨by norm_num, by norm_num, by norm_num, by norm_num, by norm_num, by norm_num, prime_29047611873442575647497758179⟩)
    (by decide +kernel) (by decide +kernel) (by decide +kernel)

theorem orderN_prime : Nat.Prime orderN :=
  prime_of_certificate _ 7 [2, 2, 2, 2, 2, 2, 3, 149, 631, 107361793816595537, 174723607534414371449, 341948486974166000522343609283189] (by decide +kernel) (by decide +kernel)
    (by
      simp only [List.mem_cons, List.not_mem_nil, or_false, forall_eq_or_imp, forall_eq]
      exact ⟨by norm_num, by norm_num, by norm_num, by norm_num, by norm_num, by norm_num, by norm_num, by norm_num, by norm_num, prime_107361793816595537, prime_174723607534414371449, prime_341948486974166000522343609283189⟩)
    (by decide +kernel) (by decide +kernel) (by decide +kernel)

/-- Both moduli are prime (R11, R192). -/
theorem modulus_prime (m : Modulus) : (modulus m).Prime := by
  cases m
  · exact fieldP_prime
  · exact orderN_prime

end Sys2Proof.Machine
end

