-- ==== Sys2Proof/Laws/Field.lean ====
section
/-! SUPPORT. The model's exact-integer arithmetic modulo P is the arithmetic of the field ZMod P in which the statements are written
(spec/00_scope.md R11, R14; spec/10_state.md R26). -/

namespace Sys2Proof.Machine

open Sys2Proof.Spec

/-- The inverse by Fermat is an inverse (R11, R190). -/
theorem mul_invMod (m : Modulus) {a : Nat} (h0 : a ≠ 0) (h : a < modulus m) :
    a * invMod (modulus m) a % modulus m = 1 := by
  have := Fact.mk (modulus_prime m)
  have h2 : 2 ≤ modulus m := (modulus_prime m).two_le
  have hne : (a : ZMod (modulus m)) ≠ 0 := by
    rw [Ne, ZMod.natCast_eq_zero_iff]
    exact fun hd => by have := Nat.le_of_dvd (by omega) hd; omega
  have : ((a * invMod (modulus m) a : Nat) : ZMod (modulus m)) = ((1 : Nat) : ZMod (modulus m)) := by
    rw [invMod_eq (modulus_le m), Nat.cast_mul, ZMod.natCast_mod, Nat.cast_pow, ← pow_succ',
      show modulus m - 2 + 1 = modulus m - 1 by omega, ZMod.pow_card_sub_one_eq_one hne, Nat.cast_one]
  rw [ZMod.natCast_eq_natCast_iff, Nat.ModEq, Nat.mod_eq_of_lt (b := modulus m) (a := 1) (by omega)] at this
  exact this

theorem invMod_lt (m : Modulus) (a : Nat) : invMod (modulus m) a < modulus m := by
  rw [invMod_eq (modulus_le m)]; exact Nat.mod_lt _ (modulus_pos m)

/-- Every square's root is found by the candidate, up to sign: P ≡ 3 (mod 4) (R191). -/
theorem sqrtCandidate_of_square {a : Nat} (ha : a < fieldP) (h : ∃ y, y * y % fieldP = a) :
    sqrtCandidate a * sqrtCandidate a % fieldP = a := by
  have := Fact.mk fieldP_prime
  obtain ⟨y, hy⟩ := h
  have e1 : (a : ZMod fieldP) = (y : ZMod fieldP) ^ 2 := by
    rw [← hy, ZMod.natCast_mod, Nat.cast_mul, pow_two]
  have key : (sqrtCandidate a : ZMod fieldP) * sqrtCandidate a = a := by
    rw [sqrtCandidate_eq, ZMod.natCast_mod, Nat.cast_pow, ← pow_two, ← pow_mul, e1, ← pow_mul,
      show 2 * ((fieldP + 1) / 4 * 2) = fieldP + 1 by decide +kernel, pow_succ, ZMod.pow_card, pow_two]
  have : ((sqrtCandidate a * sqrtCandidate a : Nat) : ZMod fieldP) = (a : ZMod fieldP) := by
    rw [Nat.cast_mul, key]
  rw [ZMod.natCast_eq_natCast_iff, Nat.ModEq, Nat.mod_eq_of_lt ha] at this
  exact this

theorem sqrtCandidate_lt (a : Nat) : sqrtCandidate a < fieldP := by
  rw [sqrtCandidate_eq]; exact Nat.mod_lt _ fieldP_pos

/-- A canonical word is what its field element writes. -/
theorem ofFp_toFp {v : Word} (h : v.toNat < fieldP) : ofFp (toFp v) = v := by
  unfold ofFp toFp
  rw [ZMod.val_natCast, Nat.mod_eq_of_lt h, BitVec.ofNat_toNat, BitVec.setWidth_eq]

theorem ofFp_toNat (x : Fp) : (ofFp x).toNat = x.val := by
  have : NeZero fieldP := ⟨by decide⟩
  unfold ofFp
  rw [BitVec.toNat_ofNat, Nat.mod_eq_of_lt]
  exact (ZMod.val_lt x).trans_le fieldP_le

theorem ofFp_lt (x : Fp) : (ofFp x).toNat < fieldP := by
  have : NeZero fieldP := ⟨by decide⟩
  rw [ofFp_toNat]; exact ZMod.val_lt x

@[simp] theorem toFp_ofFp (x : Fp) : toFp (ofFp x) = x := by
  have : NeZero fieldP := ⟨by decide⟩
  unfold toFp
  rw [ofFp_toNat, ZMod.natCast_val, ZMod.cast_id]

theorem ofFp_inj {x y : Fp} : ofFp x = ofFp y ↔ x = y :=
  ⟨fun h => by rw [← toFp_ofFp x, h, toFp_ofFp], fun h => by rw [h]⟩

/-- A canonical word is zero exactly when its field element is. -/
theorem toFp_eq_zero {v : Word} (h : v.toNat < fieldP) : toFp v = 0 ↔ v = 0 := by
  unfold toFp
  rw [ZMod.natCast_eq_zero_iff]
  constructor
  · intro hd
    have : v.toNat = 0 := Nat.eq_zero_of_dvd_of_lt hd h
    exact BitVec.eq_of_toNat_eq this
  · rintro rfl; exact ⟨0, rfl⟩

theorem ofFp_eq_zero (x : Fp) : ofFp x = 0 ↔ x = 0 := by
  rw [← toFp_eq_zero (ofFp_lt x), toFp_ofFp]

/-- The residue modulo P of an integer is the word of its field element (R13). -/
theorem residue_eq_ofFp (x : Int) : residue fieldP x = ofFp (x : Fp) := by
  have : NeZero fieldP := ⟨by decide⟩
  unfold residue ofFp
  congr 1
  have h := ZMod.val_intCast (n := fieldP) x
  have hn : 0 ≤ x % (fieldP : Int) := Int.emod_nonneg _ (by decide)
  omega

theorem toFp_eq_int (v : Word) : toFp v = ((v.int : Int) : Fp) := by simp [toFp, Word.int]

/-- modP does not change the field element. -/
@[simp] theorem cast_modP (x : Int) : ((modP x : Int) : Fp) = (x : Fp) := by
  unfold modP
  rw [ZMod.intCast_mod]

/-- A residue is zero exactly when the field element is. -/
theorem modP_eq_zero (x : Int) : modP x = 0 ↔ (x : Fp) = 0 := by
  unfold modP
  rw [ZMod.intCast_zmod_eq_zero_iff_dvd]
  exact ⟨Int.dvd_of_emod_eq_zero, Int.emod_eq_zero_of_dvd⟩

/-- The model's validity check is the predicate of R26. -/
theorem validTriple_iff (t : Triple) : validTriple t = true ↔ Valid t := by
  unfold validTriple Valid
  by_cases hz : t.z = 0
  · simp [hz]
  · simp only [hz, if_false, false_or, Bool.and_eq_true, decide_eq_true_eq, modP_eq_zero, toFp_eq_int]
    push_cast
    constructor
    · rintro ⟨⟨⟨h1, h2⟩, h3⟩, h4⟩; exact ⟨h1, h2, h3, by linear_combination h4⟩
    · rintro ⟨h1, h2, h3, h4⟩; exact ⟨⟨⟨h1, h2⟩, h3⟩, by linear_combination h4⟩

theorem validTriple_eq_false_iff (t : Triple) : validTriple t = false ↔ ¬ Valid t := by
  rw [← validTriple_iff]; simp

/-- JDBL, line by line in the field (R212). -/
theorem jdbl_eq_doubled (t : Triple) : jdbl t = doubled t := by
  unfold jdbl doubled
  by_cases hz : t.z = 0
  · simp only [hz, if_true]; rfl
  · simp only [hz, if_false, modP_eq_zero, tripleOf, residue_eq_ofFp, cast_modP, Int.cast_mul, Int.cast_sub, Int.cast_add,
      Int.cast_pow, Int.cast_ofNat, ← toFp_eq_int, ← pow_two]
    rfl

/-- JADD, line by line in the field (R213). -/
theorem jadd_eq_added (t u : Triple) : jadd t u = added t u := by
  unfold jadd added
  by_cases hz : t.z = 0
  · simp only [hz, if_true]; rfl
  · by_cases hu : u.z = 0
    · simp only [hz, hu, if_false, if_true]
    · simp only [hz, hu, if_false, modP_eq_zero, tripleOf, residue_eq_ofFp, cast_modP, Int.cast_mul, Int.cast_sub,
        Int.cast_add, Int.cast_pow, Int.cast_ofNat, ← toFp_eq_int, ← pow_two, jdbl_eq_doubled]
      rfl

end Sys2Proof.Machine
end

