-- ==== Sys2Proof/Laws/Group.lean ====
section
/-! SUPPORT. The Jacobian formulas compute the curve's group law (spec/44_point_engines.md R212 to R214), and the scalar multipliers'
normal form is one triple per element (spec/45_scalar_multipliers.md R241). -/

namespace Sys2Proof.Machine

open Sys2Proof.Spec WeierstrassCurve.Affine

variable [Fact (Nat.Prime fieldP)]

theorem two_ne_zero_fp : (2 : Fp) ≠ 0 := by
  have h : ((2 : Nat) : Fp) ≠ 0 := by
    rw [Ne, ZMod.natCast_eq_zero_iff]
    decide +kernel
  exact_mod_cast h

theorem three_ne_zero_fp : (3 : Fp) ≠ 0 := by
  have h : ((3 : Nat) : Fp) ≠ 0 := by
    rw [Ne, ZMod.natCast_eq_zero_iff]
    decide +kernel
  exact_mod_cast h

theorem seven_ne_zero_fp : (7 : Fp) ≠ 0 := by
  have h : ((7 : Nat) : Fp) ≠ 0 := by
    rw [Ne, ZMod.natCast_eq_zero_iff]
    decide +kernel
  exact_mod_cast h

/-- The curve's equation (R3). -/
theorem equation_curve (x y : Fp) : curve.Equation x y ↔ y ^ 2 = x ^ 3 + 7 := by
  rw [equation_iff]
  simp

/-- Every point of the curve is nonsingular. -/
theorem nonsingular_curve {x y : Fp} (h : y ^ 2 = x ^ 3 + 7) : curve.Nonsingular x y := by
  rw [nonsingular_iff]
  refine ⟨(equation_curve x y).2 h, ?_⟩
  by_cases hy : y = 0
  · left
    have hx : x ≠ 0 := by
      rintro rfl
      rw [hy] at h
      exact seven_ne_zero_fp (by linear_combination -h)
    simpa [hx, eq_comm] using three_ne_zero_fp
  · right
    intro he
    have : 2 * y = 0 := by
      simp at he
      linear_combination he
    rcases mul_eq_zero.1 this with h2 | h2
    · exact two_ne_zero_fp h2
    · exact hy h2

theorem negY_curve (x y : Fp) : curve.negY x y = -y := by simp [negY]

/-- A non-zero canonical Z is a non-zero field element. -/
theorem z_ne_zero {t : Triple} (hv : Valid t) (hz : t.z ≠ 0) : toFp t.z ≠ 0 := by
  rcases hv with h | ⟨-, -, h, -⟩
  · exact absurd h hz
  · exact fun e => hz ((toFp_eq_zero h).1 e)

/-- Every valid triple denotes a group element (R24, R26). -/
theorem exists_denotes {t : Triple} (hv : Valid t) : ∃ Q, Denotes t Q := by
  by_cases hz : t.z = 0
  · exact ⟨.zero, hz⟩
  · have hz' := z_ne_zero hv hz
    rcases hv with h | ⟨-, -, -, he⟩
    · exact absurd h hz
    · have hc : (toFp t.y / toFp t.z ^ 3) ^ 2 = (toFp t.x / toFp t.z ^ 2) ^ 3 + 7 := by
        field_simp
        linear_combination he
      exact ⟨.some _ _ (nonsingular_curve hc), hz, by field_simp, by field_simp⟩

/-- A valid triple denotes one group element only. -/
theorem denotes_unique {t : Triple} (hv : Valid t) {Q R : Pt} (hQ : Denotes t Q) (hR : Denotes t R) : Q = R := by
  cases Q with
  | zero =>
    cases R with
    | zero => rfl
    | some x y h => exact absurd hQ hR.1
  | some x y h =>
    cases R with
    | zero => exact absurd hR hQ.1
    | some x' y' h' =>
      have hz := z_ne_zero hv hQ.1
      obtain ⟨-, hx, hy⟩ := hQ
      obtain ⟨-, hx', hy'⟩ := hR
      obtain rfl : x = x' := mul_right_cancel₀ (pow_ne_zero 2 hz) (hx.symm.trans hx')
      obtain rfl : y = y' := mul_right_cancel₀ (pow_ne_zero 3 hz) (hy.symm.trans hy')
      rfl

/-- A canonical triple that denotes a group element is valid (R26). -/
theorem valid_of_denotes {t : Triple} {Q : Pt} (h : Denotes t Q)
    (hc : t.z ≠ 0 → t.x.toNat < fieldP ∧ t.y.toNat < fieldP ∧ t.z.toNat < fieldP) : Valid t := by
  cases Q with
  | zero => exact .inl h
  | some x y hn =>
    obtain ⟨hz, hx, hy⟩ := h
    obtain ⟨h1, h2, h3⟩ := hc hz
    refine .inr ⟨h1, h2, h3, ?_⟩
    have := (equation_curve x y).1 hn.1
    rw [hx, hy]
    linear_combination (toFp t.z ^ 6) * this

omit [Fact (Nat.Prime fieldP)] in
theorem denotes_zero_iff {t : Triple} {Q : Pt} (h : Denotes t Q) : t.z = 0 ↔ Q = 0 := by
  cases Q with
  | zero => exact ⟨fun _ => rfl, fun _ => h⟩
  | some x y hn => exact ⟨fun e => absurd e h.1, fun e => nomatch e⟩

omit [Fact (Nat.Prime fieldP)] in
theorem denotes_id : Denotes idPoint (0 : Pt) := rfl

omit [Fact (Nat.Prime fieldP)] in
theorem valid_id : Valid idPoint := .inl rfl

omit [Fact (Nat.Prime fieldP)] in
theorem canonical_of_valid {t : Triple} (hv : Valid t) :
    t.z ≠ 0 → t.x.toNat < fieldP ∧ t.y.toNat < fieldP ∧ t.z.toNat < fieldP :=
  fun hz => ⟨(hv.resolve_left hz).1, (hv.resolve_left hz).2.1, (hv.resolve_left hz).2.2.1⟩

/-- JDBL denotes the double (R212, R214). -/
theorem denotes_doubled {t : Triple} (hv : Valid t) {Q : Pt} (hQ : Denotes t Q) : Denotes (doubled t) (Q + Q) := by
  cases Q with
  | zero =>
    rw [doubled, if_pos (show t.z = 0 from hQ)]
    exact denotes_id
  | some x y hn =>
    obtain ⟨hz, hx, hy⟩ := hQ
    have hz' := z_ne_zero hv hz
    have h2 := two_ne_zero_fp
    rw [doubled, if_neg hz]
    by_cases h0 : y = 0
    · have hZ : 2 * toFp t.y * toFp t.z = 0 := by rw [hy, h0]; ring
      simp only [hZ, if_true]
      rw [Point.add_self_of_Y_eq (by rw [negY_curve, h0, neg_zero])]
      exact denotes_id
    · have hY : toFp t.y ≠ 0 := by rw [hy]; exact mul_ne_zero h0 (pow_ne_zero 3 hz')
      have hZ : 2 * toFp t.y * toFp t.z ≠ 0 := mul_ne_zero (mul_ne_zero h2 hY) hz'
      have hne : y ≠ curve.negY x y := by
        rw [negY_curve]
        intro e
        have : 2 * y = 0 := by linear_combination e
        rcases mul_eq_zero.1 this with h | h
        · exact h2 h
        · exact h0 h
      simp only [hZ, if_false]
      rw [Point.add_self_of_Y_ne hne]
      have hs : y - -y = 2 * y := by ring
      refine ⟨by simpa only [ne_eq, ofFp_eq_zero] using hZ, ?_, ?_⟩
      · simp only [toFp_ofFp, hx, hy, slope_of_Y_ne rfl hne, addX, negY_curve, hs]
        field_simp
        ring
      · simp only [toFp_ofFp, hx, hy, slope_of_Y_ne rfl hne, addX, addY, negAddY, negY_curve, hs]
        field_simp
        ring

/-- JADD denotes the group sum (R213, R214). -/
theorem denotes_added {t u : Triple} (ht : Valid t) (hu : Valid u) {Q R : Pt} (hQ : Denotes t Q) (hR : Denotes u R) :
    Denotes (added t u) (Q + R) := by
  cases Q with
  | zero =>
    rw [added, if_pos (show t.z = 0 from hQ)]
    have h0 : (Point.zero : Pt) + R = R := zero_add R
    rw [h0]
    split
    · next h => rw [(denotes_zero_iff hR).1 h]; exact denotes_id
    · exact hR
  | some x1 y1 h1 =>
    cases R with
    | zero =>
      rw [added, if_neg hQ.1, if_pos (show u.z = 0 from hR)]
      exact hQ
    | some x2 y2 h2 =>
      obtain ⟨hz1, hx1, hy1⟩ := hQ
      obtain ⟨hz2, hx2, hy2⟩ := hR
      have hz1' := z_ne_zero ht hz1
      have hz2' := z_ne_zero hu hz2
      have ht2 := two_ne_zero_fp
      rw [added, if_neg hz1, if_neg hz2]
      have hH : toFp u.x * toFp t.z ^ 2 - toFp t.x * toFp u.z ^ 2 = (x2 - x1) * (toFp t.z ^ 2 * toFp u.z ^ 2) := by
        rw [hx1, hx2]; ring
      have hr : 2 * (toFp u.y * toFp t.z * toFp t.z ^ 2 - toFp t.y * toFp u.z * toFp u.z ^ 2) =
          2 * (y2 - y1) * (toFp t.z ^ 3 * toFp u.z ^ 3) := by
        rw [hy1, hy2]; ring
      by_cases hx : x1 = x2
      · subst hx
        have hH0 : toFp u.x * toFp t.z ^ 2 - toFp t.x * toFp u.z ^ 2 = 0 := by rw [hH]; ring
        by_cases hy : y1 = y2
        · subst hy
          have hr0 : 2 * (toFp u.y * toFp t.z * toFp t.z ^ 2 - toFp t.y * toFp u.z * toFp u.z ^ 2) = 0 := by
            rw [hr]; ring
          simp only [hH0, hr0, if_true]
          exact denotes_doubled ht ⟨hz1, hx1, hy1⟩
        · have hr0 : 2 * (toFp u.y * toFp t.z * toFp t.z ^ 2 - toFp t.y * toFp u.z * toFp u.z ^ 2) ≠ 0 := by
            rw [hr]
            exact mul_ne_zero (mul_ne_zero ht2 (sub_ne_zero.2 (Ne.symm hy)))
              (mul_ne_zero (pow_ne_zero 3 hz1') (pow_ne_zero 3 hz2'))
          simp only [hH0, hr0, if_true, if_false]
          have e1 := (equation_curve _ _).1 h1.1
          have e2 := (equation_curve _ _).1 h2.1
          have hs : (y1 - y2) * (y1 + y2) = 0 := by linear_combination e1 - e2
          have hn : y1 = curve.negY x1 y2 := by
            rw [negY_curve]
            rcases mul_eq_zero.1 hs with h | h
            · exact absurd (sub_eq_zero.1 h) hy
            · exact eq_neg_of_add_eq_zero_left h
          rw [Point.add_of_Y_eq rfl hn]
          exact denotes_id
      · have hxs : x1 - x2 ≠ 0 := sub_ne_zero.2 hx
        have hH0 : toFp u.x * toFp t.z ^ 2 - toFp t.x * toFp u.z ^ 2 ≠ 0 := by
          rw [hH]
          exact mul_ne_zero (sub_ne_zero.2 (Ne.symm hx)) (mul_ne_zero (pow_ne_zero 2 hz1') (pow_ne_zero 2 hz2'))
        simp only [hH0, if_false]
        rw [Point.add_of_X_ne hx]
        refine ⟨?_, ?_, ?_⟩
        · simp only [Ne, ofFp_eq_zero]
          rw [show (toFp t.z + toFp u.z) ^ 2 - toFp t.z ^ 2 - toFp u.z ^ 2 = 2 * toFp t.z * toFp u.z by ring]
          exact mul_ne_zero (mul_ne_zero (mul_ne_zero ht2 hz1') hz2') hH0
        · simp only [toFp_ofFp, hx1, hy1, hx2, hy2, slope_of_X_ne hx, addX]
          field_simp
          ring
        · simp only [toFp_ofFp, hx1, hy1, hx2, hy2, slope_of_X_ne hx, addX, addY, negAddY, negY_curve]
          field_simp
          ring

end Sys2Proof.Machine
end

