-- ==== Sys2Proof/Laws/PerInstr.lean ====
section
/-! SUPPORT. Per-instruction family FieldsRoundTrip: the fields of a well-formed command decode to it (spec/30_encoding.md R101,
R105, R106). With Fields.split_join it says the same of words. -/

namespace Sys2Proof.Laws.FieldsRoundTrip

/-- The fields of a well-formed command decode to it. -/
def Statement (i : Instr) : Prop := i.wellFormed = true → decodeFields (encodeFields i) = .ok i

theorem nop : Statement .nop := fun _ =>
  (decodeFields_of (r := ⟨.nop, 0x00, false, .unused, .unused, .unused, .unused⟩) rfl
    (by simp [encodeFields, rowReject, immLegal])).trans (by simp [buildInstr])

theorem mov (rd rs : WReg) : Statement (.mov rd rs) := fun _ =>
  (decodeFields_of (r := ⟨.mov, 0x01, false, .w, .w, .unused, .unused⟩) rfl
    (by simp [encodeFields, rowReject, immLegal])).trans (by simp [encodeFields, buildInstr])

theorem ldc (rd : WReg) (idx : BitVec 8) : Statement (.ldc rd idx) := fun h =>
  (decodeFields_of (r := ⟨.ldc, 0x02, false, .w, .unused, .unused, .constIndex⟩) rfl
    (by simp_all [encodeFields, rowReject, immLegal, Instr.wellFormed, legalConstIndex])).trans (by simp [encodeFields, buildInstr])

theorem cmp (ra rb : WReg) : Statement (.cmp ra rb) := fun _ =>
  (decodeFields_of (r := ⟨.cmp, 0x03, false, .unused, .w, .w, .unused⟩) rfl
    (by simp [encodeFields, rowReject, immLegal])).trans (by simp [encodeFields, buildInstr])

theorem zeroize : Statement .zeroize := fun _ =>
  (decodeFields_of (r := ⟨.zeroize, 0x0F, false, .unused, .unused, .unused, .unused⟩) rfl
    (by simp [encodeFields, rowReject, immLegal])).trans (by simp [buildInstr])

theorem madd (m : Modulus) (rd ra rb : WReg) : Statement (.madd m rd ra rb) := fun _ =>
  (decodeFields_of (r := ⟨.madd, 0x10, true, .w, .w, .w, .unused⟩) rfl
    (by simp [encodeFields, rowReject, immLegal])).trans (by simp [encodeFields, buildInstr])

theorem msub (m : Modulus) (rd ra rb : WReg) : Statement (.msub m rd ra rb) := fun _ =>
  (decodeFields_of (r := ⟨.msub, 0x11, true, .w, .w, .w, .unused⟩) rfl
    (by simp [encodeFields, rowReject, immLegal])).trans (by simp [encodeFields, buildInstr])

theorem mneg (m : Modulus) (rd ra : WReg) : Statement (.mneg m rd ra) := fun _ =>
  (decodeFields_of (r := ⟨.mneg, 0x12, true, .w, .w, .unused, .unused⟩) rfl
    (by simp [encodeFields, rowReject, immLegal])).trans (by simp [encodeFields, buildInstr])

theorem mcneg (m : Modulus) (rd ra : WReg) (flag : Flag) (inv : Bool) : Statement (.mcneg m rd ra flag inv) := fun _ =>
  (decodeFields_of (r := ⟨.mcneg, 0x13, true, .w, .w, .unused, .condition⟩) rfl
    (by simp [encodeFields, rowReject])).trans (by simp [encodeFields, buildInstr])

theorem mred (m : Modulus) (rd ra : WReg) : Statement (.mred m rd ra) := fun _ =>
  (decodeFields_of (r := ⟨.mred, 0x14, true, .w, .w, .unused, .unused⟩) rfl
    (by simp [encodeFields, rowReject, immLegal])).trans (by simp [encodeFields, buildInstr])

theorem mredw (m : Modulus) (rd rhi rlo : WReg) : Statement (.mredw m rd rhi rlo) := fun _ =>
  (decodeFields_of (r := ⟨.mredw, 0x15, true, .w, .w, .w, .unused⟩) rfl
    (by simp [encodeFields, rowReject, immLegal])).trans (by simp [encodeFields, buildInstr])

theorem montmul (m : Modulus) (rd ra rb : WReg) : Statement (.montmul m rd ra rb) := fun _ =>
  (decodeFields_of (r := ⟨.montmul, 0x20, true, .w, .w, .w, .unused⟩) rfl
    (by simp [encodeFields, rowReject, immLegal])).trans (by simp [encodeFields, buildInstr])

theorem tomont (m : Modulus) (rd ra : WReg) : Statement (.tomont m rd ra) := fun _ =>
  (decodeFields_of (r := ⟨.tomont, 0x21, true, .w, .w, .unused, .unused⟩) rfl
    (by simp [encodeFields, rowReject, immLegal])).trans (by simp [encodeFields, buildInstr])

theorem frommont (m : Modulus) (rd ra : WReg) : Statement (.frommont m rd ra) := fun _ =>
  (decodeFields_of (r := ⟨.frommont, 0x22, true, .w, .w, .unused, .unused⟩) rfl
    (by simp [encodeFields, rowReject, immLegal])).trans (by simp [encodeFields, buildInstr])

theorem mmul (m : Modulus) (rd ra rb : WReg) : Statement (.mmul m rd ra rb) := fun _ =>
  (decodeFields_of (r := ⟨.mmul, 0x23, true, .w, .w, .w, .unused⟩) rfl
    (by simp [encodeFields, rowReject, immLegal])).trans (by simp [encodeFields, buildInstr])

theorem msqr (m : Modulus) (rd ra : WReg) : Statement (.msqr m rd ra) := fun _ =>
  (decodeFields_of (r := ⟨.msqr, 0x24, true, .w, .w, .unused, .unused⟩) rfl
    (by simp [encodeFields, rowReject, immLegal])).trans (by simp [encodeFields, buildInstr])

theorem mpow (m : Modulus) (rd rbase rexp : WReg) : Statement (.mpow m rd rbase rexp) := fun _ =>
  (decodeFields_of (r := ⟨.mpow, 0x25, true, .w, .w, .w, .unused⟩) rfl
    (by simp [encodeFields, rowReject, immLegal])).trans (by simp [encodeFields, buildInstr])

theorem minv (m : Modulus) (rd ra : WReg) : Statement (.minv m rd ra) := fun _ =>
  (decodeFields_of (r := ⟨.minv, 0x30, true, .w, .w, .unused, .unused⟩) rfl
    (by simp [encodeFields, rowReject, immLegal])).trans (by simp [encodeFields, buildInstr])

theorem msqrt (rd ra : WReg) : Statement (.msqrt rd ra) := fun _ =>
  (decodeFields_of (r := ⟨.msqrt, 0x31, false, .w, .w, .unused, .unused⟩) rfl
    (by simp [encodeFields, rowReject, immLegal])).trans (by simp [encodeFields, buildInstr])

theorem pinf (pd : PReg) : Statement (.pinf pd) := fun _ =>
  (decodeFields_of (r := ⟨.pinf, 0x40, false, .p, .unused, .unused, .unused⟩) rfl
    (by simp [encodeFields, rowReject, immLegal])).trans (by simp [encodeFields, buildInstr])

theorem pgen (pd : PReg) : Statement (.pgen pd) := fun _ =>
  (decodeFields_of (r := ⟨.pgen, 0x41, false, .p, .unused, .unused, .unused⟩) rfl
    (by simp [encodeFields, rowReject, immLegal])).trans (by simp [encodeFields, buildInstr])

theorem pmov (pd ps : PReg) : Statement (.pmov pd ps) := fun _ =>
  (decodeFields_of (r := ⟨.pmov, 0x42, false, .p, .p, .unused, .unused⟩) rfl
    (by simp [encodeFields, rowReject, immLegal])).trans (by simp [encodeFields, buildInstr])

theorem plda (pd : PReg) (wx wy : WReg) : Statement (.plda pd wx wy) := fun _ =>
  (decodeFields_of (r := ⟨.plda, 0x43, false, .p, .w, .w, .unused⟩) rfl
    (by simp [encodeFields, rowReject, immLegal])).trans (by simp [encodeFields, buildInstr])

theorem plift (pd : PReg) (wx : WReg) (odd : Bool) : Statement (.plift pd wx odd) := fun _ =>
  (decodeFields_of (r := ⟨.plift, 0x44, false, .p, .w, .unused, .parity⟩) rfl
    (by simp [encodeFields, rowReject])).trans (by simp [encodeFields, buildInstr])

theorem pneg (pd ps : PReg) : Statement (.pneg pd ps) := fun _ =>
  (decodeFields_of (r := ⟨.pneg, 0x45, false, .p, .p, .unused, .unused⟩) rfl
    (by simp [encodeFields, rowReject, immLegal])).trans (by simp [encodeFields, buildInstr])

theorem padd (pd pa pb : PReg) : Statement (.padd pd pa pb) := fun _ =>
  (decodeFields_of (r := ⟨.padd, 0x46, false, .p, .p, .p, .unused⟩) rfl
    (by simp [encodeFields, rowReject, immLegal])).trans (by simp [encodeFields, buildInstr])

theorem pdbl (pd pa : PReg) : Statement (.pdbl pd pa) := fun _ =>
  (decodeFields_of (r := ⟨.pdbl, 0x47, false, .p, .p, .unused, .unused⟩) rfl
    (by simp [encodeFields, rowReject, immLegal])).trans (by simp [encodeFields, buildInstr])

theorem peq (pa pb : PReg) : Statement (.peq pa pb) := fun _ =>
  (decodeFields_of (r := ⟨.peq, 0x48, false, .unused, .p, .p, .unused⟩) rfl
    (by simp [encodeFields, rowReject, immLegal])).trans (by simp [encodeFields, buildInstr])

theorem ptst (ps : PReg) : Statement (.ptst ps) := fun _ =>
  (decodeFields_of (r := ⟨.ptst, 0x49, false, .unused, .p, .unused, .unused⟩) rfl
    (by simp [encodeFields, rowReject, immLegal])).trans (by simp [encodeFields, buildInstr])

theorem paff (wx wy : WReg) (ps : PReg) : Statement (.paff wx wy ps) := fun _ =>
  (decodeFields_of (r := ⟨.paff, 0x4A, false, .w, .p, .w, .unused⟩) rfl
    (by simp [encodeFields, rowReject, immLegal])).trans (by simp [encodeFields, buildInstr])

theorem precomp (width : BitVec 8) : Statement (.precomp width) := fun h =>
  (decodeFields_of (r := ⟨.precomp, 0x50, false, .unused, .unused, .unused, .width⟩) rfl
    (by have := h; simp [encodeFields, rowReject, immLegal, Instr.wellFormed, legalWidth] at this ⊢; tauto)).trans (by simp [encodeFields, buildInstr])

theorem pmulg (pd : PReg) (wk : WReg) : Statement (.pmulg pd wk) := fun _ =>
  (decodeFields_of (r := ⟨.pmulg, 0x51, false, .p, .w, .unused, .unused⟩) rfl
    (by simp [encodeFields, rowReject, immLegal])).trans (by simp [encodeFields, buildInstr])

theorem pmul (pd pq : PReg) (wk : WReg) : Statement (.pmul pd pq wk) := fun _ =>
  (decodeFields_of (r := ⟨.pmul, 0x52, false, .p, .p, .w, .unused⟩) rfl
    (by simp [encodeFields, rowReject, immLegal])).trans (by simp [encodeFields, buildInstr])

theorem pmul2 (pd : PReg) (wk wl : WReg) (pq : PReg) : Statement (.pmul2 pd wk wl pq) := fun _ =>
  (decodeFields_of (r := ⟨.pmul2, 0x53, false, .p, .w, .w, .pointReg⟩) rfl
    (by simp [encodeFields, rowReject])).trans (by simp [encodeFields, buildInstr])

theorem ninit (extra : Bool) (we wd wh : WReg) : Statement (.ninit extra we wd wh) := fun h =>
  (decodeFields_of (r := ⟨.ninit, 0x60, false, .w, .w, .w, .extra⟩) rfl
    (by have := h; cases extra <;> simp [encodeFields, rowReject, Instr.wellFormed, legalExtra] at this ⊢ <;> simp_all [immOfBool, bitsOfWreg])).trans (by simp [encodeFields, buildInstr])

theorem ngen (wk : WReg) : Statement (.ngen wk) := fun _ =>
  (decodeFields_of (r := ⟨.ngen, 0x61, false, .w, .unused, .unused, .unused⟩) rfl
    (by simp [encodeFields, rowReject, immLegal])).trans (by simp [encodeFields, buildInstr])

end Sys2Proof.Laws.FieldsRoundTrip
end

