-- ==== Sys2Proof/Laws/Words.lean ====
section
/-! SUPPORT. From fields to words and to the engine's turn: what a pending word does (spec/30_encoding.md R106, R109). -/

namespace Sys2Proof

/-- The fields of every well-formed command decode to it. -/
theorem decodeFields_encodeFields (i : Instr) (h : i.wellFormed = true) : decodeFields (encodeFields i) = .ok i := by
  cases i with
  | nop => exact Laws.FieldsRoundTrip.nop h
  | mov a b => exact Laws.FieldsRoundTrip.mov _ _ h
  | ldc a b => exact Laws.FieldsRoundTrip.ldc _ _ h
  | cmp a b => exact Laws.FieldsRoundTrip.cmp _ _ h
  | zeroize => exact Laws.FieldsRoundTrip.zeroize h
  | madd a b c d => exact Laws.FieldsRoundTrip.madd _ _ _ _ h
  | msub a b c d => exact Laws.FieldsRoundTrip.msub _ _ _ _ h
  | mneg a b c => exact Laws.FieldsRoundTrip.mneg _ _ _ h
  | mcneg a b c d e => exact Laws.FieldsRoundTrip.mcneg _ _ _ _ _ h
  | mred a b c => exact Laws.FieldsRoundTrip.mred _ _ _ h
  | mredw a b c d => exact Laws.FieldsRoundTrip.mredw _ _ _ _ h
  | montmul a b c d => exact Laws.FieldsRoundTrip.montmul _ _ _ _ h
  | tomont a b c => exact Laws.FieldsRoundTrip.tomont _ _ _ h
  | frommont a b c => exact Laws.FieldsRoundTrip.frommont _ _ _ h
  | mmul a b c d => exact Laws.FieldsRoundTrip.mmul _ _ _ _ h
  | msqr a b c => exact Laws.FieldsRoundTrip.msqr _ _ _ h
  | mpow a b c d => exact Laws.FieldsRoundTrip.mpow _ _ _ _ h
  | minv a b c => exact Laws.FieldsRoundTrip.minv _ _ _ h
  | msqrt a b => exact Laws.FieldsRoundTrip.msqrt _ _ h
  | pinf a => exact Laws.FieldsRoundTrip.pinf _ h
  | pgen a => exact Laws.FieldsRoundTrip.pgen _ h
  | pmov a b => exact Laws.FieldsRoundTrip.pmov _ _ h
  | plda a b c => exact Laws.FieldsRoundTrip.plda _ _ _ h
  | plift a b c => exact Laws.FieldsRoundTrip.plift _ _ _ h
  | pneg a b => exact Laws.FieldsRoundTrip.pneg _ _ h
  | padd a b c => exact Laws.FieldsRoundTrip.padd _ _ _ h
  | pdbl a b => exact Laws.FieldsRoundTrip.pdbl _ _ h
  | peq a b => exact Laws.FieldsRoundTrip.peq _ _ h
  | ptst a => exact Laws.FieldsRoundTrip.ptst _ h
  | paff a b c => exact Laws.FieldsRoundTrip.paff _ _ _ h
  | precomp a => exact Laws.FieldsRoundTrip.precomp _ h
  | pmulg a b => exact Laws.FieldsRoundTrip.pmulg _ _ h
  | pmul a b c => exact Laws.FieldsRoundTrip.pmul _ _ _ h
  | pmul2 a b c d => exact Laws.FieldsRoundTrip.pmul2 _ _ _ _ h
  | ninit a b c d => exact Laws.FieldsRoundTrip.ninit _ _ _ _ h
  | ngen a => exact Laws.FieldsRoundTrip.ngen _ h

namespace Machine

open Sys2Proof.Spec

/-- The engine's turn is a step that only takes the turn off the list of events. -/
@[simp] theorem engineTurn_eq (s : State) : engineTurn s = engineStep s := rfl

@[simp] theorem readTurn_eq (a : BusAccess) (s : State) : readTurn a s = hostRead a s := rfl

@[simp] theorem writeTurn_eq (a : BusAccess) (v : Bus) (s : State) : writeTurn a v s = hostWrite a v s := rfl

@[simp] theorem resetTurn_eq (s : State) : resetTurn s = .next (resetBlock s) := rfl

/-- A word that decodes is its command's one word (R106). -/
theorem encode_of_decode {c : Bus} {i : Instr} (h : decode c = .ok i) : i.wellFormed = true ∧ encode i = c := by
  obtain ⟨a, b⟩ := encodeFields_of_decodeFields h
  exact ⟨a, by rw [encode, b, Fields.join_split]⟩

/-- The engine's turn with a legal word in flight. -/
theorem engineStep_ok {s : State} {c : Bus} {i : Instr} (hp : s.pending = some c) (hd : decode c = .ok i) :
    engineStep s = exec i s := by
  simp [engineStep, hp, hd]

/-- The engine's turn with an illegal word in flight (R106). -/
theorem engineStep_error {s : State} {c : Bus} {e : Reject} (hp : s.pending = some c) (hd : decode c = .error e) :
    engineStep s = raise .illegalCmd c s := by
  simp [engineStep, hp, hd]

theorem engineStep_idle {s : State} (hp : s.pending = none) : engineStep s = .next s := by
  simp [engineStep, hp]

@[simp] theorem failed_eq (c : ErrCode) (v : Bus) (s : State) : failed c v s = complete (recordError c v s) := rfl

@[simp] theorem recorded_eq (c : ErrCode) (v : Bus) (s : State) : recorded c v s = recordError c v s := rfl

@[simp] theorem completed_eq (s : State) : completed s = complete s := rfl

@[simp] theorem writeW_eq (r : WReg) (v : Word) (s : State) : writeW r v s = setW s r v := rfl

@[simp] theorem writeP_eq (r : PReg) (t : Triple) (s : State) : writeP r t s = setP s r t := rfl

@[simp] theorem raise_eq (c : ErrCode) (v : Bus) (s : State) : raise c v s = .next (complete (recordError c v s)) := rfl

@[simp] theorem finish_eq (s : State) : finish s = .next (complete s) := rfl

/-- The command words of an opcode, from the encoder: the listed commands are well-formed, their words are the listed words, and no
other well-formed command has the opcode. -/
theorem commandWords_of {α : Type} {opc : BitVec 8} {word : α → Bus} {cmd : α → Instr}
    (hw : ∀ x, encode (cmd x) = word x) (hf : ∀ x, (cmd x).wellFormed = true)
    (hall : ∀ i : Instr, i.wellFormed = true → (encodeFields i).opc = opc → ∃ x, i = cmd x) :
    CommandWords opc word cmd := by
  refine ⟨fun x s hp => ?_, fun c s ho hl hp => ?_⟩
  · have hd : decode (word x) = .ok (cmd x) := by
      rw [← hw x, encode, decode_join, decodeFields_encodeFields _ (hf x)]
    exact engineStep_ok hp hd
  · cases hd : decode c with
    | error e => exact engineStep_error hp hd
    | ok i =>
      obtain ⟨hwf, he⟩ := encodeFields_of_decodeFields hd
      have hc : encode i = c := by rw [encode, he, Fields.join_split]
      obtain ⟨x, rfl⟩ := hall i hwf (by rw [he]; exact ho)
      exact absurd ⟨x, by rw [← hw x, hc]⟩ hl

end Machine

end Sys2Proof
end

