-- ==== Sys2Proof/Laws/Legal.lean ====
section
/-! SUPPORT. The rows of spec/opcode_table.json (Safety.lean) against the opcode map of R105 (Decode.lean), field by field. -/

namespace Sys2Proof.Machine

open Sys2Proof.Spec

/-- The fields of a masked word. -/
theorem and_split (c m : Bus) : Fields.split (c &&& m) =
    ⟨(Fields.split c).opc &&& (Fields.split m).opc, (Fields.split c).m &&& (Fields.split m).m,
      (Fields.split c).rsv &&& (Fields.split m).rsv, (Fields.split c).rd &&& (Fields.split m).rd, (Fields.split c).rs1 &&& (Fields.split m).rs1, (Fields.split c).rs2 &&& (Fields.split m).rs2, (Fields.split c).imm &&& (Fields.split m).imm⟩ := by
  simp [Fields.split, BitVec.extractLsb'_and]

/-- mask of a row, field by field -/
def maskOf (r : Row) : Fields :=
  let reg : FieldClass → BitVec 4 := fun c => match c with | .unused => 15 | .w => 0 | .p => 8
  let imm : BitVec 8 := match r.imm with | .unused => 0xFF | .constIndex => 0 | .condition => 0xF8 | .parity => 0xFE | .width => 0 | .pointReg => 0xF8 | .extra => 0xFE
  ⟨0xFF, if r.takesM then 0 else 1, 7, reg r.rd, reg r.rs1, reg r.rs2, imm⟩

theorem table_rows : (opcodeTableA ++ opcodeTableB) = opcodeMap.map fun r => ((maskOf r).join, (⟨r.opc, 0,0,0,0,0,0⟩ : Fields).join) := by decide +kernel

theorem fieldReject_mask (k : FieldClass) (v : BitVec 4) : fieldReject k v = none ↔ v &&& (match k with | .unused => 15 | .w => 0 | .p => 8) = 0 := by
  cases k <;> revert v <;> decide

/-- A word matches a row of the table exactly when its fields pass R106's items 1 to 4 for that row and the row's fixed
immediate bits are 0. -/
theorem matches_row_iff (c : Bus) (r : Row) :
    c &&& (maskOf r).join = (⟨r.opc, 0,0,0,0,0,0⟩ : Fields).join ↔ 
     ((Fields.split c).opc = r.opc ∧ (Fields.split c).m &&& (maskOf r).m = 0 ∧ (Fields.split c).rsv = 0 ∧ fieldReject r.rd (Fields.split c).rd = none ∧ fieldReject r.rs1 (Fields.split c).rs1 = none
       ∧ fieldReject r.rs2 (Fields.split c).rs2 = none ∧ (Fields.split c).imm &&& (maskOf r).imm = 0) := by
    have : c &&& (maskOf r).join = (⟨r.opc, 0,0,0,0,0,0⟩ : Fields).join ↔ Fields.split (c &&& (maskOf r).join) = ⟨r.opc, 0,0,0,0,0,0⟩ := by
      constructor
      · intro h; rw [h, Fields.split_join]
      · intro h; rw [← h, Fields.join_split]
    rw [this, and_split, Fields.split_join]
    simp only [Fields.mk.injEq, fieldReject_mask]
    have e1 : (Fields.split c).opc &&& (maskOf r).opc = (Fields.split c).opc := BitVec.and_allOnes
    have e2 : (Fields.split c).rsv &&& (maskOf r).rsv = (Fields.split c).rsv := BitVec.and_allOnes
    rw [e1, e2]
    rfl

end Sys2Proof.Machine
end

