-- ==== Sys2Proof/Laws/Nonce.lean ====
section
/-! SUPPORT. The nonce generator's byte strings and candidate loop in the terms of Safety.lean (spec/46_nonce_generator.md R260 to
R262). -/

namespace Sys2Proof.Machine

open Sys2Proof.Spec

theorem be32_eq (v : Word) : be32 v = bytes32 v := by
  unfold be32 bytes32
  rw [List.ofFn_eq_map, ← List.map_coe_finRange_eq_range, List.map_map]
  apply List.map_congr_left
  intro i _
  simp only [Function.comp]
  congr 1
  have := i.isLt
  omega

theorem ones_eq : be32 initialV = List.replicate 32 (0x01 : Byte) := by decide +kernel

theorem seed_eq (d h : Word) (e) : seedBytes d h e = seedOf d h e := by
  unfold seedBytes seedOf
  have : residue orderN h.int = BitVec.ofNat 256 (h.toNat % orderN) := residue_ofNat _ _
  cases e <;> simp only [be32_eq, this]

theorem inRange_iff (k : Word) : (k ≠ 0 ∧ k.toNat < orderN) ↔ InRange k := by
  unfold InRange
  constructor
  · rintro ⟨h1, h2⟩
    refine ⟨?_, h2⟩
    by_contra h
    exact h1 (BitVec.eq_of_toNat_eq (by simp; omega))
  · rintro ⟨h1, h2⟩
    exact ⟨by rintro rfl; simp at h1, h2⟩

/-- Both calls of the update after a refused candidate are answered (R262, 3.2 h.3). -/
theorem refuseCandidate_eq_some {s : State} {K V K' V' : Word} (hK : hmacAnswer s K (bytes32 V ++ [0x00]) = some K')
    (hV : hmacAnswer s K' (bytes32 V) = some V') : refuseCandidate s K V = some (K', V') := by
  unfold refuseCandidate
  rw [be32_eq, hK, Option.bind_eq_bind, Option.bind_some, hV]
  rfl

/-- The update waits exactly when one of its calls has no answer (R262; spec/70_reset_and_hazards.md R363). -/
theorem refuseCandidate_eq_none_iff {s : State} {K V : Word} : refuseCandidate s K V = none ↔ UpdateUnanswered s K V := by
  unfold refuseCandidate UpdateUnanswered
  rw [be32_eq]
  cases hK : hmacAnswer s K (bytes32 V ++ [0x00]) with
  | none => simp
  | some K' => cases hV : hmacAnswer s K' (bytes32 V) <;> simp [hV]

/-- Where NGEN's loop stands at an engine turn: where the last turn left it, or at its start (R262; log 4). -/
theorem ngenStart_of {s : State} {K V : Word} (h : s.ngWork = some (K, V) ∨ (s.ngWork = none ∧ LoopStart s K V)) :
    ngenStart s = some (K, V) := by
  unfold ngenStart
  rcases h with h | ⟨h, ⟨h1, rfl, rfl⟩ | ⟨h1, h2, h3⟩⟩
  · rw [h]
  · simp [h, h1]
  · simp [h, h1, refuseCandidate_eq_some h2 h3]

/-- A later NGEN waits at its start while either update call has no answer (R262, R363). -/
theorem ngenStart_eq_none {s : State} (hw : s.ngWork = none) (hf : s.ngFirst = false)
    (h : UpdateUnanswered s s.ngK s.ngV) : ngenStart s = none := by
  simp [ngenStart, hw, hf, refuseCandidate_eq_none_iff.2 h]

end Sys2Proof.Machine
end

