-- ==== Sys2Proof/Laws/Outcome.lean ====
section
/-! SUPPORT. Everything a command can do, said once for all 36 (spec/10_state.md R45; spec/60_exceptions.md R300, R301): it commits
writes inside its frame, or it records one of its own error codes, or (NINIT, NGEN) it goes on. -/

namespace Sys2Proof.Machine

open Sys2Proof.Spec

/-- `u` is `s` with some of the writes command `i` may make, before the completion bookkeeping. -/
structure Wrote (i : Instr) (s u : State) : Prop where
  word : ∀ r, r ∉ wordDests i → getW u r = getW s r
  point : ∀ r, r ∉ pointDests i → getP u r = getP s r
  flag : ∀ f, f ∉ flagDests i → flagIn u f = flagIn s f
  table : writesTable i = false → u.tblValid = s.tblValid ∧ u.tblW = s.tblW ∧ u.tbl = s.tbl
  nonce : writesNonce i = false → u.ngK = s.ngK ∧ u.ngV = s.ngV ∧ u.ngReady = s.ngReady ∧ u.ngFirst = s.ngFirst
  control : u.ie = s.ie ∧ u.done = s.done ∧ u.cmdcnt = s.cmdcnt ∧ u.lastcmd = s.lastcmd ∧ u.pending = s.pending ∧
    u.ngWork = s.ngWork
  record : u.err = s.err ∧ u.errcode = s.errcode ∧ u.errcmd = s.errcmd
  env : u.events = s.events ∧ u.hmac = s.hmac ∧ u.resp = s.resp
  /-- The table is whole (R40). -/
  built : (u.tblValid = s.tblValid ∧ u.tblW = s.tblW ∧ u.tbl = s.tbl) ∨
    (u.tblValid = decide (u.tblW ≠ .none) ∧ u.tbl = tableEntries u.tblW)
  /-- A nonce state without NINIT is clear (R41). -/
  clear : u.ngReady = true ∨ (u.ngK = 0 ∧ u.ngV = 0 ∧ u.ngFirst = false) ∨
    (u.ngReady = s.ngReady ∧ u.ngK = s.ngK ∧ u.ngV = s.ngV ∧ u.ngFirst = s.ngFirst)

/-- The outcome of a command's rule is inside its frame, or one of its error codes. -/
def Admissible (i : Instr) (s : State) : Except ErrCode State → Prop
  | .ok u => Wrote i s u
  | .error c => c ∈ mayRaise i ∨ (c = .illegalCmd ∧ i.wellFormed = false)

theorem admissible_bind {i : Instr} {s : State} {α : Type} {r : Except ErrCode α} {f : α → Except ErrCode State}
    (he : ∀ c, r = .error c → c ∈ mayRaise i ∨ (c = .illegalCmd ∧ i.wellFormed = false))
    (hf : ∀ a, r = .ok a → Admissible i s (f a)) : Admissible i s (r >>= f) := by
  cases r with
  | ok a => exact hf a rfl
  | error c => exact he c rfl

theorem readCanon_cases {s : State} {m : Modulus} {r : WReg} {c : ErrCode} (h : readCanon s m r = .error c) :
    c = overflowCode m := by
  unfold readCanon at h; split at h <;> cases h; rfl

theorem readScalar_cases {s : State} {r : WReg} {c : ErrCode} (h : readScalar s r = .error c) :
    c = .scalarOverflow := by
  unfold readScalar at h; split at h <;> cases h; rfl

theorem readPoint_cases {s : State} {r : PReg} {c : ErrCode} (h : readPoint s r = .error c) : c = .invalidPoint := by
  unfold readPoint at h; split at h <;> cases h; rfl

theorem readCoord_cases {s : State} {r : WReg} {c : ErrCode} (h : readCoord s r = .error c) : c = .invalidPoint := by
  unfold readCoord at h; split at h <;> cases h; rfl

theorem readPrivateKey_cases {s : State} {r : WReg} {c : ErrCode} (h : readPrivateKey s r = .error c) :
    c = .invalidPrivateKey := by
  unfold readPrivateKey at h; split at h <;> cases h; rfl

theorem readConst_cases {idx : BitVec 8} {c : ErrCode} (h : readConst idx = .error c) :
    c = .illegalCmd ∧ legalConstIndex idx = false := by
  have hn : ¬ ∃ v, readConst idx = .ok v := by rw [h]; rintro ⟨v, e⟩; cases e
  rw [readConst_isOk_iff] at hn
  refine ⟨?_, by simpa using hn⟩
  unfold readConst at h; split at h <;> cases h; rfl

theorem readWidth_cases {w : BitVec 8} {c : ErrCode} (h : readWidth w = .error c) :
    c = .illegalCmd ∧ legalWidth w = false := by
  have hn : ¬ ∃ v, readWidth w = .ok v := by rw [h]; rintro ⟨v, e⟩; cases e
  rw [readWidth_isOk_iff] at hn
  refine ⟨?_, by simpa using hn⟩
  unfold readWidth at h; split_ifs at h; cases h; rfl

theorem overflowCode_eq (m : Modulus) : overflowCode m = ovf m := by cases m <;> rfl

/-- Writing one word register. -/
theorem wrote_setW {i : Instr} {s : State} {r : WReg} (v : Word) (h : r ∈ wordDests i) : Wrote i s (setW s r v) where
  word q hq := getW_setW_ne s v fun e => hq (e ▸ h)
  point _ _ := rfl
  flag f _ := by cases f <;> rfl
  table _ := ⟨rfl, rfl, rfl⟩
  nonce _ := ⟨rfl, rfl, rfl, rfl⟩
  control := ⟨rfl, rfl, rfl, rfl, rfl, rfl⟩
  record := ⟨rfl, rfl, rfl⟩
  env := ⟨rfl, rfl, rfl⟩
  built := .inl ⟨rfl, rfl, rfl⟩
  clear := .inr (.inr ⟨rfl, rfl, rfl, rfl⟩)

/-- Writing one point register. -/
theorem wrote_setP {i : Instr} {s : State} {r : PReg} (t : Triple) (h : r ∈ pointDests i) : Wrote i s (setP s r t) where
  word _ _ := rfl
  point q hq := getP_setP_ne s t fun e => hq (e ▸ h)
  flag f _ := by cases f <;> rfl
  table _ := ⟨rfl, rfl, rfl⟩
  nonce _ := ⟨rfl, rfl, rfl, rfl⟩
  control := ⟨rfl, rfl, rfl, rfl, rfl, rfl⟩
  record := ⟨rfl, rfl, rfl⟩
  env := ⟨rfl, rfl, rfl⟩
  built := .inl ⟨rfl, rfl, rfl⟩
  clear := .inr (.inr ⟨rfl, rfl, rfl, rfl⟩)

/-- Writing nothing. -/
theorem wrote_refl (i : Instr) (s : State) : Wrote i s s where
  word _ _ := rfl
  point _ _ := rfl
  flag _ _ := rfl
  table _ := ⟨rfl, rfl, rfl⟩
  nonce _ := ⟨rfl, rfl, rfl, rfl⟩
  control := ⟨rfl, rfl, rfl, rfl, rfl, rfl⟩
  record := ⟨rfl, rfl, rfl⟩
  env := ⟨rfl, rfl, rfl⟩
  built := .inl ⟨rfl, rfl, rfl⟩
  clear := .inr (.inr ⟨rfl, rfl, rfl, rfl⟩)

/-- Two writes, one after the other. -/
theorem Wrote.trans {i : Instr} {s u v : State} (h : Wrote i s u) (h' : Wrote i u v) : Wrote i s v where
  word q hq := (h'.word q hq).trans (h.word q hq)
  point q hq := (h'.point q hq).trans (h.point q hq)
  flag f hf := (h'.flag f hf).trans (h.flag f hf)
  table ht := by
    obtain ⟨a, b, c⟩ := h.table ht
    obtain ⟨a', b', c'⟩ := h'.table ht
    exact ⟨a'.trans a, b'.trans b, c'.trans c⟩
  nonce ht := by
    obtain ⟨a, b, c, d⟩ := h.nonce ht
    obtain ⟨a', b', c', d'⟩ := h'.nonce ht
    exact ⟨a'.trans a, b'.trans b, c'.trans c, d'.trans d⟩
  control := by
    obtain ⟨a, b, c, d, e, f⟩ := h.control
    obtain ⟨a', b', c', d', e', f'⟩ := h'.control
    exact ⟨a'.trans a, b'.trans b, c'.trans c, d'.trans d, e'.trans e, f'.trans f⟩
  record := by
    obtain ⟨a, b, c⟩ := h.record
    obtain ⟨a', b', c'⟩ := h'.record
    exact ⟨a'.trans a, b'.trans b, c'.trans c⟩
  env := by
    obtain ⟨a, b, c⟩ := h.env
    obtain ⟨a', b', c'⟩ := h'.env
    exact ⟨a'.trans a, b'.trans b, c'.trans c⟩
  built := by
    rcases h'.built with ⟨a', b', c'⟩ | h1
    · rcases h.built with ⟨a, b, c⟩ | ⟨a, b⟩
      · exact .inl ⟨a'.trans a, b'.trans b, c'.trans c⟩
      · exact .inr ⟨by rw [a', b', a], by rw [c', b', b]⟩
    · exact .inr h1
  clear := by
    rcases h'.clear with h1 | h1 | ⟨a', b', c', d'⟩
    · exact .inl h1
    · exact .inr (.inl h1)
    · rcases h.clear with h2 | ⟨a, b, c⟩ | ⟨a, b, c, d⟩
      · exact .inl (a'.trans h2)
      · exact .inr (.inl ⟨b'.trans a, c'.trans b, d'.trans c⟩)
      · exact .inr (.inr ⟨a'.trans a, b'.trans b, c'.trans c, d'.trans d⟩)

/-- Writing flags the command may write. -/
theorem wrote_flags {i : Instr} {s : State} (a b c d : Bool) (ha : .eq ∈ flagDests i ∨ a = s.eq)
    (hb : .lt ∈ flagDests i ∨ b = s.lt) (hc : .odd ∈ flagDests i ∨ c = s.odd) (hd : .inf ∈ flagDests i ∨ d = s.inf) :
    Wrote i s { s with eq := a, lt := b, odd := c, inf := d } where
  word _ _ := rfl
  point _ _ := rfl
  flag f hf := by
    cases f with
    | eq => exact ha.resolve_left hf
    | lt => exact hb.resolve_left hf
    | odd => exact hc.resolve_left hf
    | inf => exact hd.resolve_left hf
  table _ := ⟨rfl, rfl, rfl⟩
  nonce _ := ⟨rfl, rfl, rfl, rfl⟩
  control := ⟨rfl, rfl, rfl, rfl, rfl, rfl⟩
  record := ⟨rfl, rfl, rfl⟩
  env := ⟨rfl, rfl, rfl⟩
  built := .inl ⟨rfl, rfl, rfl⟩
  clear := .inr (.inr ⟨rfl, rfl, rfl, rfl⟩)

theorem wrote_setInf {i : Instr} {s : State} (b : Bool) (h : .inf ∈ flagDests i) : Wrote i s (setInf s b) :=
  wrote_flags _ _ _ _ (.inr rfl) (.inr rfl) (.inr rfl) (.inl h)

theorem wrote_setOdd {i : Instr} {s : State} (b : Bool) (h : .odd ∈ flagDests i) : Wrote i s (setOdd s b) :=
  wrote_flags _ _ _ _ (.inr rfl) (.inr rfl) (.inl h) (.inr rfl)

theorem wrote_setRootFlags {i : Instr} {s : State} (r : Word) (he : .eq ∈ flagDests i) (ho : .odd ∈ flagDests i) :
    Wrote i s (setRootFlags s r) :=
  wrote_flags _ _ _ _ (.inl he) (.inr rfl) (.inl ho) (.inr rfl)

theorem wrote_setEq {i : Instr} {s : State} (b : Bool) (h : .eq ∈ flagDests i) : Wrote i s (setEq s b) :=
  wrote_flags _ _ _ _ (.inl h) (.inr rfl) (.inr rfl) (.inr rfl)

theorem wrote_setPInf {i : Instr} {s : State} {r : PReg} (t : Triple) (h : r ∈ pointDests i) (hf : .inf ∈ flagDests i) :
    Wrote i s (setPInf s r t) := (wrote_setP t h).trans (wrote_setInf _ hf)

/-- Building or dropping the table. -/
theorem wrote_setTable {i : Instr} {s : State} (w : TblWidth) (h : writesTable i = true) : Wrote i s (setTable w s) where
  word _ _ := rfl
  point _ _ := rfl
  flag f _ := by cases f <;> rfl
  table ht := by rw [h] at ht; cases ht
  nonce _ := ⟨rfl, rfl, rfl, rfl⟩
  control := ⟨rfl, rfl, rfl, rfl, rfl, rfl⟩
  record := ⟨rfl, rfl, rfl⟩
  env := ⟨rfl, rfl, rfl⟩
  built := .inr ⟨rfl, rfl⟩
  clear := .inr (.inr ⟨rfl, rfl, rfl, rfl⟩)

/-- What ZEROIZE writes. -/
theorem wrote_zeroize (s : State) : Wrote .zeroize s (zeroizeState s) where
  word q hq := absurd (List.mem_finRange q) hq
  point q hq := absurd (List.mem_finRange q) hq
  flag f hf := absurd (by cases f <;> decide) hf
  table _ := ⟨rfl, rfl, rfl⟩
  nonce h := by cases h
  control := ⟨rfl, rfl, rfl, rfl, rfl, rfl⟩
  record := ⟨rfl, rfl, rfl⟩
  env := ⟨rfl, rfl, rfl⟩
  built := .inl ⟨rfl, rfl, rfl⟩
  clear := .inr (.inl ⟨rfl, rfl, rfl⟩)

/-- What one command can do (R45, R301, R363; log 4). -/
def Outcomes (i : Instr) (s t : State) : Prop :=
  (∃ u, Wrote i s u ∧ t = complete u) ∨
  (∃ c, (c ∈ mayRaise i ∨ (c = .illegalCmd ∧ i.wellFormed = false)) ∧ t = complete (recordError c (encode i) s)) ∨
  (writesNonce i = true ∧ (t = s ∨ (∃ wk kv, i = .ngen wk ∧ s.ngReady = true ∧ t = { s with ngWork := some kv })))

theorem outcomes_commit {i : Instr} {s : State} (r : Except ErrCode State) (he : exec i s = commit i s r)
    (h : Admissible i s r) : ∃ t, exec i s = .next t ∧ Outcomes i s t := by
  rw [he]
  cases r with
  | ok u => exact ⟨_, rfl, .inl ⟨u, h, rfl⟩⟩
  | error c => exact ⟨_, rfl, .inr (.inl ⟨c, h, rfl⟩)⟩

theorem admissible_pure {i : Instr} {s u : State} (h : Wrote i s u) : Admissible i s (pure u) := h

theorem admissible_ite {i : Instr} {s : State} {c : Prop} [Decidable c] {a b : Except ErrCode State}
    (ha : Admissible i s a) (hb : Admissible i s b) : Admissible i s (if c then a else b) := by
  by_cases h : c
  · rw [if_pos h]; exact ha
  · rw [if_neg h]; exact hb

/-- Every command answers a next state, and that state is one of its outcomes. -/
theorem exec_outcomes (i : Instr) (s : State) : ∃ t, exec i s = .next t ∧ Outcomes i s t := by
  have canon : ∀ (j : Instr) (m : Modulus) (r : WReg) (f : Word → Except ErrCode State), ovf m ∈ mayRaise j →
      (∀ a, Admissible j s (f a)) → Admissible j s (readCanon s m r >>= f) := fun j m r f h hf =>
    admissible_bind (fun c e => .inl (by rw [readCanon_cases e, overflowCode_eq]; exact h)) fun a _ => hf a
  have scalar : ∀ (j : Instr) (r : WReg) (f : Word → Except ErrCode State), .scalarOverflow ∈ mayRaise j →
      (∀ a, Admissible j s (f a)) → Admissible j s (readScalar s r >>= f) := fun j r f h hf =>
    admissible_bind (fun c e => .inl (by rw [readScalar_cases e]; exact h)) fun a _ => hf a
  have point : ∀ (j : Instr) (r : PReg) (f : Triple → Except ErrCode State), .invalidPoint ∈ mayRaise j →
      (∀ a, Admissible j s (f a)) → Admissible j s (readPoint s r >>= f) := fun j r f h hf =>
    admissible_bind (fun c e => .inl (by rw [readPoint_cases e]; exact h)) fun a _ => hf a
  have coord : ∀ (j : Instr) (r : WReg) (f : Word → Except ErrCode State), .invalidPoint ∈ mayRaise j →
      (∀ a, Admissible j s (f a)) → Admissible j s (readCoord s r >>= f) := fun j r f h hf =>
    admissible_bind (fun c e => .inl (by rw [readCoord_cases e]; exact h)) fun a _ => hf a
  have one : ∀ (j : Instr) (r : WReg) (v : Word), r ∈ wordDests j → Admissible j s (pure (setW s r v)) :=
    fun j r v h => wrote_setW v h
  cases i with
  | nop => exact outcomes_commit (.ok _) rfl (wrote_refl _ s)
  | mov rd rs => exact outcomes_commit _ rfl (one _ rd _ (by simp [wordDests]))
  | ldc rd idx =>
    exact outcomes_commit _ rfl (admissible_bind (fun c e => .inr (readConst_cases e)) fun a _ => one _ rd a (by simp [wordDests]))
  | cmp ra rb =>
    exact outcomes_commit (.ok _) rfl
      (wrote_flags _ _ _ _ (.inl (by simp [flagDests])) (.inl (by simp [flagDests])) (.inl (by simp [flagDests])) (.inr rfl))
  | zeroize => exact outcomes_commit (.ok _) rfl (wrote_zeroize s)
  | madd m rd ra rb =>
    exact outcomes_commit _ rfl (canon _ m _ _ (by simp [mayRaise]) fun _ => canon _ m _ _ (by simp [mayRaise]) fun _ =>
      one _ rd _ (by simp [wordDests]))
  | msub m rd ra rb =>
    exact outcomes_commit _ rfl (canon _ m _ _ (by simp [mayRaise]) fun _ => canon _ m _ _ (by simp [mayRaise]) fun _ =>
      one _ rd _ (by simp [wordDests]))
  | mneg m rd ra => exact outcomes_commit _ rfl (canon _ m _ _ (by simp [mayRaise]) fun _ => one _ rd _ (by simp [wordDests]))
  | mcneg m rd ra f inv =>
    exact outcomes_commit _ rfl (canon _ m _ _ (by simp [mayRaise]) fun _ => one _ rd _ (by simp [wordDests]))
  | mred m rd ra => exact outcomes_commit _ rfl (one _ rd _ (by simp [wordDests]))
  | mredw m rd rh rl => exact outcomes_commit _ rfl (one _ rd _ (by simp [wordDests]))
  | montmul m rd ra rb =>
    exact outcomes_commit _ rfl (canon _ m _ _ (by simp [mayRaise]) fun _ => canon _ m _ _ (by simp [mayRaise]) fun _ =>
      one _ rd _ (by simp [wordDests]))
  | tomont m rd ra => exact outcomes_commit _ rfl (canon _ m _ _ (by simp [mayRaise]) fun _ => one _ rd _ (by simp [wordDests]))
  | frommont m rd ra =>
    exact outcomes_commit _ rfl (canon _ m _ _ (by simp [mayRaise]) fun _ => one _ rd _ (by simp [wordDests]))
  | mmul m rd ra rb =>
    exact outcomes_commit _ rfl (canon _ m _ _ (by simp [mayRaise]) fun _ => canon _ m _ _ (by simp [mayRaise]) fun _ =>
      one _ rd _ (by simp [wordDests]))
  | msqr m rd ra => exact outcomes_commit _ rfl (canon _ m _ _ (by simp [mayRaise]) fun _ => one _ rd _ (by simp [wordDests]))
  | mpow m rd rb re =>
    exact outcomes_commit _ rfl (canon _ m _ _ (by simp [mayRaise]) fun _ => one _ rd _ (by simp [wordDests]))
  | minv m rd ra =>
    refine outcomes_commit _ rfl (canon _ m _ _ (by simp [mayRaise]) fun a => ?_)
    split
    · exact .inl (by simp [mayRaise])
    · exact one _ rd _ (by simp [wordDests])
  | msqrt rd ra =>
    refine outcomes_commit _ rfl (canon _ .p _ _ (by simp [mayRaise, ovf]) ?_)
    intro a
    generalize sqrtCandidate a.toNat = n
    refine admissible_ite ?_ ?_
    · exact admissible_pure ((wrote_setW _ (by simp [wordDests])).trans
        (wrote_setRootFlags _ (by simp [flagDests]) (by simp [flagDests])))
    · exact admissible_pure (wrote_setEq _ (by simp [flagDests]))
  | pinf pd =>
    exact outcomes_commit _ rfl (admissible_pure ((wrote_setP _ (by simp [pointDests])).trans (wrote_setInf _ (by simp [flagDests]))))
  | pgen pd =>
    exact outcomes_commit _ rfl (admissible_pure ((wrote_setP _ (by simp [pointDests])).trans (wrote_setInf _ (by simp [flagDests]))))
  | pmov pd ps => exact outcomes_commit _ rfl (admissible_pure (wrote_setP _ (by simp [pointDests])))
  | plda pd wx wy =>
    refine outcomes_commit _ rfl (coord _ _ _ (by simp [mayRaise]) fun x => coord _ _ _ (by simp [mayRaise]) fun y => ?_)
    split
    · exact .inl (by simp [mayRaise])
    · exact admissible_pure ((wrote_setP _ (by simp [pointDests])).trans (wrote_setInf _ (by simp [flagDests])))
  | plift pd wx par =>
    refine outcomes_commit _ rfl (coord _ _ _ (by simp [mayRaise]) ?_)
    intro x
    generalize modP (x.int * x.int * x.int + 7) = c
    refine admissible_ite ?_ ?_
    · exact .inl (by simp [mayRaise])
    · exact admissible_pure (((wrote_setP _ (by simp [pointDests])).trans (wrote_setInf _ (by simp [flagDests]))).trans
        (wrote_setOdd _ (by simp [flagDests])))
  | pneg pd ps =>
    refine outcomes_commit _ rfl (point _ _ _ (by simp [mayRaise]) fun t => ?_)
    split <;>
      exact admissible_pure ((wrote_setP _ (by simp [pointDests])).trans (wrote_setInf _ (by simp [flagDests])))
  | padd pd pa pb =>
    exact outcomes_commit _ rfl (point _ _ _ (by simp [mayRaise]) fun _ => point _ _ _ (by simp [mayRaise]) fun _ =>
      admissible_pure (wrote_setPInf _ (by simp [pointDests]) (by simp [flagDests])))
  | pdbl pd pa =>
    exact outcomes_commit _ rfl (point _ _ _ (by simp [mayRaise]) fun _ =>
      admissible_pure (wrote_setPInf _ (by simp [pointDests]) (by simp [flagDests])))
  | peq pa pb =>
    exact outcomes_commit _ rfl (point _ _ _ (by simp [mayRaise]) fun _ => point _ _ _ (by simp [mayRaise]) fun _ =>
      admissible_pure (wrote_setEq _ (by simp [flagDests])))
  | ptst ps =>
    exact outcomes_commit _ rfl (point _ _ _ (by simp [mayRaise]) fun _ => admissible_pure (wrote_setInf _ (by simp [flagDests])))
  | paff wx wy ps =>
    refine outcomes_commit _ rfl (point _ _ _ (by simp [mayRaise]) fun t => ?_)
    split
    · exact .inl (by simp [mayRaise])
    · exact admissible_pure (((wrote_setW _ (by simp [wordDests])).trans (wrote_setW _ (by simp [wordDests]))).trans
        (wrote_setOdd _ (by simp [flagDests])))
  | precomp w =>
    exact outcomes_commit _ rfl (admissible_bind (fun c e => .inr (readWidth_cases e)) fun a _ => admissible_pure (wrote_setTable a rfl))
  | pmulg pd wk =>
    refine outcomes_commit _ rfl (scalar _ _ _ (by simp [mayRaise]) fun k => admissible_pure ?_)
    refine Wrote.trans (u := lazyTable s) ?_ (wrote_setPInf _ (by simp [pointDests]) (by simp [flagDests]))
    unfold lazyTable
    split
    · exact wrote_refl _ s
    · exact wrote_setTable _ rfl
  | pmul pd pq wk =>
    exact outcomes_commit _ rfl (point _ _ _ (by simp [mayRaise]) fun _ => scalar _ _ _ (by simp [mayRaise]) fun _ =>
      admissible_pure (wrote_setPInf _ (by simp [pointDests]) (by simp [flagDests])))
  | pmul2 pd wk wl pq =>
    exact outcomes_commit _ rfl (scalar _ _ _ (by simp [mayRaise]) fun _ => scalar _ _ _ (by simp [mayRaise]) fun _ =>
      point _ _ _ (by simp [mayRaise]) fun _ =>
        admissible_pure (wrote_setPInf _ (by simp [pointDests]) (by simp [flagDests])))
  | ninit e we wd wh =>
    show ∃ t, execNinit e we wd wh s = .next t ∧ _
    unfold execNinit
    split
    · next h =>
      refine ⟨_, rfl, .inr (.inl ⟨_, .inr ⟨rfl, ?_⟩, rfl⟩)⟩
      simp [Instr.wellFormed, legalExtra, h.1, h.2]
    · split
      · next c h => exact ⟨_, rfl, .inr (.inl ⟨c, .inl (by rw [readPrivateKey_cases h]; simp [mayRaise]), rfl⟩)⟩
      · split
        · exact ⟨_, rfl, .inr (.inr ⟨rfl, .inl rfl⟩)⟩
        · refine ⟨_, rfl, .inl ⟨_, ?_, rfl⟩⟩
          exact ⟨fun _ _ => rfl, fun _ _ => rfl, fun f _ => by cases f <;> rfl, fun _ => ⟨rfl, rfl, rfl⟩,
            fun h => (by cases h), ⟨rfl, rfl, rfl, rfl, rfl, rfl⟩, ⟨rfl, rfl, rfl⟩, ⟨rfl, rfl, rfl⟩,
            .inl ⟨rfl, rfl, rfl⟩, .inl rfl⟩
  | ngen wk =>
    show ∃ t, execNgen wk s = .next t ∧ _
    unfold execNgen
    split
    · exact ⟨_, rfl, .inr (.inl ⟨_, .inl (by simp [mayRaise]), rfl⟩)⟩
    · next hr =>
      have hr' : s.ngReady = true := by simpa using hr
      split
      · exact ⟨_, rfl, .inr (.inr ⟨rfl, .inl rfl⟩)⟩
      · split
        · exact ⟨_, rfl, .inr (.inr ⟨rfl, .inl rfl⟩)⟩
        · next k v _ c _ =>
          split
          · refine ⟨_, rfl, .inl ⟨_, ?_, rfl⟩⟩
            have h := wrote_setW (i := .ngen wk) (s := s) (r := wk) c (by simp [wordDests])
            exact ⟨h.word, h.point, fun f _ => by cases f <;> rfl, fun _ => ⟨rfl, rfl, rfl⟩,
              fun h => (by cases h), ⟨rfl, rfl, rfl, rfl, rfl, rfl⟩, ⟨rfl, rfl, rfl⟩, ⟨rfl, rfl, rfl⟩,
              .inl ⟨rfl, rfl, rfl⟩, .inl hr'⟩
          · split
            · exact ⟨_, rfl, .inr (.inr ⟨rfl, .inl rfl⟩)⟩
            · next kv _ => exact ⟨_, rfl, .inr (.inr ⟨rfl, .inr ⟨wk, kv, rfl, hr', rfl⟩⟩)⟩

/-- The same for a command whose next state is at hand. -/
theorem outcomes_of_exec {i : Instr} {s t : State} (h : exec i s = .next t) : Outcomes i s t := by
  obtain ⟨u, hu, ho⟩ := exec_outcomes i s
  rw [hu] at h
  cases h
  exact ho

end Sys2Proof.Machine
end

