-- ==== Sys2Proof/Laws/Scalar.lean ====
section
/-! SUPPORT. Scalar multiplication computes multiples in the curve's group, and its results are normal forms, one triple per element
(spec/45_scalar_multipliers.md R241, R243 to R245, R247). -/

namespace Sys2Proof.Machine

open Sys2Proof.Spec

section

variable [Fact (Nat.Prime fieldP)]

theorem valid_jdbl {t : Triple} (hv : Valid t) : Valid (jdbl t) := by
  obtain ⟨Q, hQ⟩ := exists_denotes hv
  rw [jdbl_eq_doubled]
  refine valid_of_denotes (denotes_doubled hv hQ) ?_
  unfold doubled
  split
  · exact canonical_of_valid valid_id
  · dsimp only
    split
    · exact canonical_of_valid valid_id
    · exact fun _ => ⟨ofFp_lt _, ofFp_lt _, ofFp_lt _⟩

theorem valid_jadd {t u : Triple} (ht : Valid t) (hu : Valid u) : Valid (jadd t u) := by
  obtain ⟨Q, hQ⟩ := exists_denotes ht
  obtain ⟨R, hR⟩ := exists_denotes hu
  have hd := valid_jdbl ht
  rw [jdbl_eq_doubled] at hd
  rw [jadd_eq_added]
  refine valid_of_denotes (denotes_added ht hu hQ hR) ?_
  unfold added
  split
  · split
    · exact canonical_of_valid valid_id
    · exact canonical_of_valid hu
  · split
    · exact canonical_of_valid ht
    · dsimp only
      split
      · split
        · exact canonical_of_valid hd
        · exact canonical_of_valid valid_id
      · exact fun _ => ⟨ofFp_lt _, ofFp_lt _, ofFp_lt _⟩

theorem denotes_jdbl {t : Triple} (hv : Valid t) {Q : Pt} (hQ : Denotes t Q) : Denotes (jdbl t) (Q + Q) := by
  rw [jdbl_eq_doubled]; exact denotes_doubled hv hQ

theorem denotes_jadd {t u : Triple} (ht : Valid t) (hu : Valid u) {Q R : Pt} (hQ : Denotes t Q) (hR : Denotes u R) :
    Denotes (jadd t u) (Q + R) := by
  rw [jadd_eq_added]; exact denotes_added ht hu hQ hR

omit [Fact (Nat.Prime fieldP)] in
theorem idTriple_eq : idTriple = idPoint := rfl

omit [Fact (Nat.Prime fieldP)] in
theorem genTriple_eq : genTriple = genPoint := rfl

omit [Fact (Nat.Prime fieldP)] in
/-- G is on the curve (R4). -/
theorem valid_gen : Valid genPoint := (validTriple_iff _).1 (by decide +kernel)

/-- The double-and-add loop computes a multiple, by a valid triple. -/
theorem mulLoop_spec {q : Triple} (hv : Valid q) {Q : Pt} (hQ : Denotes q Q) (bits k : Nat) (h : k < 2 ^ bits) :
    Valid (mulLoop q bits k) ∧ Denotes (mulLoop q bits k) (k • Q) := by
  induction bits generalizing k with
  | zero =>
    obtain rfl : k = 0 := by simpa using h
    rw [zero_nsmul]
    exact ⟨valid_id, denotes_id⟩
  | succ n ih =>
    have h2 : k / 2 < 2 ^ n := by rw [Nat.pow_succ] at h; omega
    obtain ⟨hv', hd'⟩ := ih _ h2
    have hd2 := denotes_jdbl hv' hd'
    rw [← add_nsmul] at hd2
    simp only [mulLoop]
    split
    · refine ⟨valid_jadd (valid_jdbl hv') hv, ?_⟩
      have := denotes_jadd (valid_jdbl hv') hv hd2 hQ
      rw [← succ_nsmul, show k / 2 + k / 2 + 1 = k by omega] at this
      exact this
    · rw [show k / 2 + k / 2 = k by omega] at hd2
      exact ⟨valid_jdbl hv', hd2⟩

/-- k·Q (R14): a valid triple that denotes the k-th multiple. -/
theorem scalarMul_spec {q : Triple} (hv : Valid q) {Q : Pt} (hQ : Denotes q Q) (k : Word) :
    Valid (scalarMul k q) ∧ Denotes (scalarMul k q) (k.toNat • Q) := mulLoop_spec hv hQ 256 _ k.isLt

/-- x of `aff`, as the field sees it (R14). -/
theorem toFp_affX {t : Triple} (hv : Valid t) (hz : t.z ≠ 0) : toFp (affX t) * toFp t.z ^ 2 = toFp t.x := by
  have hz' := z_ne_zero hv hz
  have hn : t.z.toNat ≠ 0 := fun e => hz (BitVec.eq_of_toNat_eq e)
  have hi : (t.z.toNat : Fp) * (invMod fieldP t.z.toNat : Fp) = 1 := by
    have := mul_invMod .p hn (canonical_of_valid hv hz).2.2
    rw [← Nat.cast_mul, ← Nat.cast_one, ZMod.natCast_eq_natCast_iff, Nat.ModEq]
    exact this.trans (by decide +kernel)
  unfold affX
  rw [residue_eq_ofFp, toFp_ofFp]
  push_cast
  unfold toFp
  linear_combination (t.x.toNat : Fp) * ((t.z.toNat : Fp) * (invMod fieldP t.z.toNat : Fp) + 1) * hi

theorem toFp_affY {t : Triple} (hv : Valid t) (hz : t.z ≠ 0) : toFp (affY t) * toFp t.z ^ 3 = toFp t.y := by
  have hz' := z_ne_zero hv hz
  have hn : t.z.toNat ≠ 0 := fun e => hz (BitVec.eq_of_toNat_eq e)
  have hi : (t.z.toNat : Fp) * (invMod fieldP t.z.toNat : Fp) = 1 := by
    have := mul_invMod .p hn (canonical_of_valid hv hz).2.2
    rw [← Nat.cast_mul, ← Nat.cast_one, ZMod.natCast_eq_natCast_iff, Nat.ModEq]
    exact this.trans (by decide +kernel)
  unfold affY
  rw [residue_eq_ofFp, toFp_ofFp]
  push_cast
  unfold toFp
  generalize (t.y.toNat : Fp) = y at *
  generalize (t.z.toNat : Fp) = z at *
  generalize (invMod fieldP _ : Fp) = i at *
  linear_combination y * ((z * i) ^ 2 + z * i + 1) * hi

omit [Fact (Nat.Prime fieldP)] in
theorem affX_lt (t : Triple) : (affX t).toNat < fieldP := residue_lt fieldP_pos fieldP_le _

omit [Fact (Nat.Prime fieldP)] in
theorem affY_lt (t : Triple) : (affY t).toNat < fieldP := residue_lt fieldP_pos fieldP_le _

omit [Fact (Nat.Prime fieldP)] in
/-- NORM writes a normal form (R241). -/
theorem normal_normTriple (t : Triple) : Normal (normTriple t) := by
  unfold normTriple
  split
  · exact .inl rfl
  · exact .inr ⟨affX_lt t, affY_lt t, rfl⟩

theorem toFp_one : toFp 1 = 1 := Nat.cast_one (R := Fp)

/-- NORM keeps the group element (R241). -/
theorem denotes_normTriple {t : Triple} (hv : Valid t) {Q : Pt} (hQ : Denotes t Q) : Denotes (normTriple t) Q := by
  unfold normTriple
  split
  · next hz =>
    rw [(denotes_zero_iff hQ).1 hz]
    exact denotes_id
  · next hz =>
    cases Q with
    | zero => exact absurd hQ hz
    | some x y hn =>
      have hz' := z_ne_zero hv hz
      have hx := toFp_affX hv hz
      have hy := toFp_affY hv hz
      rw [hQ.2.1] at hx
      rw [hQ.2.2] at hy
      refine ⟨show (1 : Word) ≠ 0 by decide, ?_, ?_⟩
      · show toFp (affX t) = x * toFp 1 ^ 2
        rw [mul_right_cancel₀ (pow_ne_zero 2 hz') hx, toFp_one]; ring
      · show toFp (affY t) = y * toFp 1 ^ 3
        rw [mul_right_cancel₀ (pow_ne_zero 3 hz') hy, toFp_one]; ring

omit [Fact (Nat.Prime fieldP)] in
theorem toFp_inj {v u : Word} (hv : v.toNat < fieldP) (hu : u.toNat < fieldP) (h : toFp v = toFp u) : v = u := by
  rw [← ofFp_toFp hv, h, ofFp_toFp hu]

/-- A normal form is the only one of its element: the results do not depend on the method (R241). -/
theorem normal_unique {t u : Triple} (ht : Normal t) (hu : Normal u) {Q : Pt} (hQ : Denotes t Q) (hR : Denotes u Q) :
    t = u := by
  cases Q with
  | zero =>
    have hz : t.z = 0 := hQ
    have hz' : u.z = 0 := hR
    rcases ht with rfl | ⟨-, -, h⟩
    · rcases hu with rfl | ⟨-, -, h⟩
      · rfl
      · rw [h] at hz'; exact absurd hz' (by decide)
    · rw [h] at hz; exact absurd hz (by decide)
  | some x y hn =>
    rcases ht with rfl | ⟨hx, hy, h⟩
    · exact absurd rfl hQ.1
    · rcases hu with rfl | ⟨hx', hy', h'⟩
      · exact absurd rfl hR.1
      · obtain ⟨-, e1, e2⟩ := hQ
        obtain ⟨-, e3, e4⟩ := hR
        rw [h, toFp_one, one_pow, mul_one] at e1 e2
        rw [h', toFp_one, one_pow, mul_one] at e3 e4
        obtain ⟨tx, ty, tz⟩ := t
        obtain ⟨ux, uy, uz⟩ := u
        simp only at h h' e1 e2 e3 e4 hx hy hx' hy'
        rw [toFp_inj hx hx' (e1.trans e3.symm), toFp_inj hy hy' (e2.trans e4.symm), h, h']

/-- A normal form on the curve is valid. -/
theorem valid_of_normal {t : Triple} (h : Normal t) {Q : Pt} (hQ : Denotes t Q) : Valid t := by
  refine valid_of_denotes hQ fun hz => ?_
  rcases h with rfl | ⟨h1, h2, h3⟩
  · exact absurd rfl hz
  · exact ⟨h1, h2, by rw [h3]; decide⟩

/-- The triple that denotes a multiple of a point, in normal form. -/
theorem norm_scalarMul_spec {q : Triple} (hv : Valid q) {Q : Pt} (hQ : Denotes q Q) (k : Word) :
    Normal (normTriple (scalarMul k q)) ∧ Denotes (normTriple (scalarMul k q)) (k.toNat • Q) := by
  obtain ⟨h1, h2⟩ := scalarMul_spec hv hQ k
  exact ⟨normal_normTriple _, denotes_normTriple h1 h2⟩

/-- G has order N (R3). -/
theorem addOrderOf_gen {G : Pt} (hG : Denotes genPoint G) : addOrderOf G = orderN := by
  have key : ∀ n : Nat, n.Prime → n • G = 0 → G ≠ 0 → addOrderOf G = n := fun n hn h1 h2 => by
    have := Fact.mk hn
    exact addOrderOf_eq_prime h1 h2
  refine key orderN orderN_prime ?_ fun h => ?_
  · have hk : ∀ k : Word, (scalarMul k genPoint).z = 0 → k.toNat • G = 0 := fun k hz =>
      (denotes_zero_iff (scalarMul_spec valid_gen hG k).2).1 hz
    have hn : (BitVec.ofNat 256 orderN : Word).toNat = orderN := by decide +kernel
    rw [← hn]
    exact hk _ (by decide +kernel)
  · have := (denotes_zero_iff hG).2 h
    exact absurd this (by decide)

theorem smul_gen_eq_zero {G : Pt} (hG : Denotes genPoint G) {k : Nat} (hk : k < orderN) : k • G = 0 ↔ k = 0 := by
  rw [← addOrderOf_dvd_iff_nsmul_eq_zero, addOrderOf_gen hG]
  exact ⟨fun h => Nat.eq_zero_of_dvd_of_lt h hk, fun h => h ▸ dvd_zero _⟩

/-- A point of the curve by its x and the parity of its y. -/
def compressed : Pt → Option (Fp × Bool)
  | .zero => none
  | .some x y _ => some (x, decide (y.val % 2 = 1))

theorem compressed_injective : Function.Injective compressed := by
  intro Q R h
  cases Q with
  | zero => cases R with
    | zero => rfl
    | some x y hn => simp [compressed] at h
  | some x y hn => cases R with
    | zero => simp [compressed] at h
    | some x' y' hn' =>
      simp only [compressed, Option.some.injEq, Prod.mk.injEq, decide_eq_decide] at h
      obtain ⟨rfl, hp⟩ := h
      have e1 := (equation_curve _ _).1 hn.1
      have e2 := (equation_curve _ _).1 hn'.1
      have hs : (y - y') * (y + y') = 0 := by linear_combination e1 - e2
      have hy : y = y' := by
        rcases mul_eq_zero.1 hs with h | h
        · exact sub_eq_zero.1 h
        · by_cases h0 : y' = 0
          · rw [h0] at h ⊢; simpa using h
          · exfalso
            have hneg : y = -y' := eq_neg_of_add_eq_zero_left h
            have hval : y.val = fieldP - y'.val := by
              rw [hneg, ZMod.neg_val, if_neg h0]
            have hlt := ZMod.val_lt y'
            have hodd : fieldP % 2 = 1 := by decide +kernel
            omega
      subst hy
      rfl

theorem finite_pt : Finite Pt := Finite.of_injective _ compressed_injective

theorem card_pt_le : Nat.card Pt ≤ 2 * fieldP + 1 := by
  have : NeZero fieldP := ⟨by decide⟩
  have h := Nat.card_le_card_of_injective _ compressed_injective
  rwa [Finite.card_option, Nat.card_prod, Nat.card_zmod, Nat.card_eq_fintype_card (α := Bool), Fintype.card_bool, mul_comm] at h

/-- -7 is not a cube (spec/44_point_engines.md R205, R206, R212). -/
theorem cube_add_seven_ne_zero (x : Fp) : x ^ 3 + 7 ≠ 0 := by
  intro e
  have hx3 : x ^ 3 = ((fieldP - 7 : Nat) : Fp) := by
    rw [Nat.cast_sub (by decide +kernel), ZMod.natCast_self]
    push_cast
    linear_combination e
  have hx : x ≠ 0 := by
    rintro rfl
    exact seven_ne_zero_fp (by linear_combination e)
  have h1 : x ^ (fieldP - 1) = 1 := ZMod.pow_card_sub_one_eq_one hx
  rw [show fieldP - 1 = 3 * ((fieldP - 1) / 3) by decide +kernel, pow_mul, hx3,
    ← cast_powLoop _ _ (by decide +kernel)] at h1
  have h2 : ((powLoop fieldP 256 (fieldP - 7) ((fieldP - 1) / 3) : Nat) : Fp) = ((1 : Nat) : Fp) := by
    rw [h1, Nat.cast_one]
  rw [ZMod.natCast_eq_natCast_iff] at h2
  exact absurd h2 (by unfold Nat.ModEq; decide +kernel)

/-- No point of the curve has y = 0. -/
theorem y_ne_zero {x y : Fp} (hn : curve.Nonsingular x y) : y ≠ 0 := by
  rintro rfl
  exact cube_add_seven_ne_zero x (by linear_combination -(equation_curve _ _).1 hn.1)

/-- The curve has exactly N points: the cofactor is 1 (R3). -/
theorem card_pt : Nat.card Pt = orderN := by
  have := finite_pt
  obtain ⟨G, hG⟩ := exists_denotes valid_gen
  have hd : orderN ∣ Nat.card Pt := addOrderOf_gen hG ▸ addOrderOf_dvd_natCard G
  obtain ⟨m, hm⟩ := hd
  have hle := card_pt_le
  have hpos : 0 < Nat.card Pt := Nat.card_pos
  have hb : 2 * fieldP + 1 < orderN * 3 := by decide +kernel
  have hm3 : m < 3 := by
    by_contra h
    have : orderN * 3 ≤ orderN * m := Nat.mul_le_mul_left _ (by omega)
    omega
  have hm0 : m ≠ 0 := by
    rintro rfl
    rw [hm, mul_zero] at hpos
    exact absurd hpos (lt_irrefl 0)
  rcases (show m = 1 ∨ m = 2 by omega) with rfl | rfl
  · rw [hm, mul_one]
  · exfalso
    have := Fact.mk Nat.prime_two
    obtain ⟨Q, hQ⟩ := exists_prime_addOrderOf_dvd_card' (G := Pt) 2 ⟨orderN, by rw [hm, mul_comm]⟩
    have h2 : 2 • Q = 0 := by rw [← hQ]; exact addOrderOf_nsmul_eq_zero Q
    cases Q with
    | zero => rw [show (WeierstrassCurve.Affine.Point.zero : Pt) = 0 from rfl, addOrderOf_zero] at hQ; omega
    | some x y hn =>
      have hy := y_ne_zero hn
      have hne : y ≠ curve.negY x y := by
        rw [negY_curve]
        intro e
        have : 2 * y = 0 := by linear_combination e
        rcases mul_eq_zero.1 this with h | h
        · exact two_ne_zero_fp h
        · exact hy h
      rw [two_nsmul, WeierstrassCurve.Affine.Point.add_self_of_Y_ne hne] at h2
      exact nomatch h2

/-- Every point has order N but the identity: k·Q is the identity only if k = 0 or Q is (R244). -/
theorem smul_eq_zero_iff {Q : Pt} {k : Nat} (hk : k < orderN) : k • Q = 0 ↔ k = 0 ∨ Q = 0 := by
  constructor
  · intro h
    have := finite_pt
    have hd1 : addOrderOf Q ∣ orderN := card_pt ▸ addOrderOf_dvd_natCard Q
    rcases (Nat.dvd_prime orderN_prime).1 hd1 with h1 | h1
    · exact .inr (AddMonoid.addOrderOf_eq_one_iff.1 h1)
    · left
      rw [← addOrderOf_dvd_iff_nsmul_eq_zero, h1] at h
      exact Nat.eq_zero_of_dvd_of_lt h hk
  · rintro (rfl | rfl)
    · exact zero_nsmul Q
    · exact nsmul_zero k

/-- A table entry stands for its multiple of G (R40). -/
theorem tableElement_spec {G : Pt} (hG : Denotes genPoint G) {n : ℕ} (hn : n < 2 ^ 256) :
    Valid (tableElement n) ∧ Denotes (tableElement n) (n • G) := by
  obtain ⟨h1, h2⟩ := norm_scalarMul_spec valid_gen hG (BitVec.ofNat 256 n)
  rw [BitVec.toNat_ofNat, Nat.mod_eq_of_lt hn] at h2
  exact ⟨valid_of_normal h1 h2, h2⟩

omit [Fact (Nat.Prime fieldP)] in
/-- Row i, column j of the table (R240). -/
theorem tableEntries_lookup (w : TblWidth) (hw : w ≠ .none) {i j : ℕ} (hi : i < windowCount (widthNat w)) (hj : j < 2 ^ widthNat w - 1) :
    ((tableEntries w).getD i []).getD j 0 = (j + 1) * 2 ^ (widthNat w * i) := by
  unfold tableEntries
  cases w with
  | none => exact absurd rfl hw
  | w4 => simp [List.getD_eq_getElem?_getD, hi, hj]
  | w8 => simp [List.getD_eq_getElem?_getD, hi, hj]

/-- The window method's partial sums (R247). -/
theorem windowFold_spec (w : TblWidth) (hw : w ≠ .none) (k : Word) {G : Pt} (hG : Denotes genPoint G) (n : ℕ) (hn : n ≤ windowCount (widthNat w))
   (hle : widthNat w * windowCount (widthNat w) = 256) :
    Valid ((List.range n).foldl (windowStep (tableEntries w) (widthNat w) k) idTriple) ∧
    Denotes ((List.range n).foldl (windowStep (tableEntries w) (widthNat w) k) idTriple) ((k.toNat % 2 ^ (widthNat w * n)) • G) := by
  induction n with
  | zero => 
    rw [mul_zero, pow_zero, Nat.mod_one, zero_nsmul]
    exact ⟨valid_id, denotes_id⟩
  | succ n ih =>
    obtain ⟨h1, h2⟩ := ih (by omega)
    rw [List.range_succ, List.foldl_append]
    simp only [List.foldl_cons, List.foldl_nil]
    generalize (List.range n).foldl (windowStep (tableEntries w) (widthNat w) k) idTriple = acc at *
    have hmod : k.toNat % 2 ^ (widthNat w * (n + 1)) = k.toNat % 2 ^ (widthNat w * n) + (k.toNat / 2 ^ (widthNat w * n) % 2 ^ widthNat w) * 2 ^ (widthNat w * n) := by
      rw [Nat.mul_add, Nat.mul_one, pow_add, Nat.mod_mul, mul_comm (2 ^ (widthNat w * n))]
    rw [hmod]
    generalize hj : k.toNat / 2 ^ (widthNat w * n) % 2 ^ widthNat w = j
    have hjl : j < 2 ^ widthNat w := by rw [← hj]; exact Nat.mod_lt _ (by positivity)
    have hE : ∃ E, windowStep (tableEntries w) (widthNat w) k acc n = jadd acc E ∧ Valid E ∧ Denotes E ((j * 2 ^ (widthNat w * n)) • G) := by
      unfold windowStep
      rw [hj]
      by_cases h0 : j = 0
      · refine ⟨idTriple, by simp only [h0, if_true], valid_id, ?_⟩
        rw [h0, zero_mul, zero_nsmul]; exact denotes_id
      · refine ⟨_, by simp only [if_neg h0]; rfl, ?_⟩
        rw [tableEntries_lookup w hw (by omega) (by omega), show j - 1 + 1 = j by omega]
        apply tableElement_spec hG
        calc j * 2 ^ (widthNat w * n) < 2 ^ widthNat w * 2 ^ (widthNat w * n) := by
              apply Nat.mul_lt_mul_of_pos_right hjl (by positivity)
          _ = 2 ^ (widthNat w * (n+1)) := by rw [← pow_add]; congr 1; ring
          _ ≤ 2 ^ 256 := by
              apply Nat.pow_le_pow_right (by norm_num)
              rw [← hle]
              exact Nat.mul_le_mul_left _ hn
    obtain ⟨E, he, hv, hd⟩ := hE
    rw [he, add_nsmul]
    exact ⟨valid_jadd h1 hv, denotes_jadd h1 hv h2 hd⟩

end

end Sys2Proof.Machine
end

