-- ==== Sys2Proof/Laws/Step.lean ====
section
/-! SUPPORT. Everything a step can do, said once: the engine's turn, a host read, a host write, a reset (spec/00_scope.md R9;
spec/20_memory.md R61 to R71; spec/70_reset_and_hazards.md R340, R341). -/

namespace Sys2Proof.Machine

open Sys2Proof.Spec

theorem step_nil {s : State} (h : s.events = []) : step s = engineStep s := by
  simp [step, advance, h]

theorem step_cons {s : State} {e : Event} {rest : List Event} (h : s.events = e :: rest) :
    step s = eventStep e { s with events := rest } := by
  simp [step, advance, h]

/-- A run is its first step and the rest of the run. -/
theorem run_succ {s t : State} (n : Nat) (h : step s = .next t) :
    Host.Core.run Sys2Proof.core (n + 1) s = Host.Core.run Sys2Proof.core n t := by
  have h' : Sys2Proof.core.step s = .next t := h
  simp only [Host.Core.run, h']

/-- The engine's turn with a word in flight: an illegal word is recorded, a legal one is one of its command's outcomes. -/
theorem engineStep_cases {s : State} {c : Bus} (hp : s.pending = some c) :
    (engineStep s = .next (complete (recordError .illegalCmd c s)) ∧ ∃ e, decode c = .error e) ∨
    (∃ i t, decode c = .ok i ∧ engineStep s = .next t ∧ exec i s = .next t ∧ Outcomes i s t) := by
  cases hd : decode c with
  | error e => exact .inl ⟨engineStep_error hp hd, e, rfl⟩
  | ok i =>
    obtain ⟨t, ht, ho⟩ := exec_outcomes i s
    exact .inr ⟨i, t, rfl, (engineStep_ok hp hd).trans ht, ht, ho⟩

/-- The engine's turn always answers a next state (R301: an error is no stop). -/
theorem engineStep_next (s : State) : ∃ t, engineStep s = .next t := by
  cases hp : s.pending with
  | none => exact ⟨s, engineStep_idle hp⟩
  | some c =>
    rcases engineStep_cases hp with ⟨h, _⟩ | ⟨_, t, _, h, _⟩
    · exact ⟨_, h⟩
    · exact ⟨t, h⟩

/-- A host read that is answered changes nothing but the answer (R70). -/
theorem hostRead_next {a : BusAccess} {s t : State} (h : hostRead a s = .next t) :
    ∃ d, t = { s with resp := some (.data d) } ∧ busRead a s = .data d := by
  have hb : (∃ e, busRead a s = .error e) ∨ ∃ d, busRead a s = .data d := by
    unfold busRead
    split
    · exact .inl ⟨_, rfl⟩
    · split
      · exact .inl ⟨_, rfl⟩
      · exact .inr ⟨_, rfl⟩
  unfold hostRead answer at h
  rcases hb with ⟨e, hb⟩ | ⟨d, hb⟩
  · rw [hb] at h; cases h
  · rw [hb] at h; cases h; exact ⟨d, rfl, hb⟩

/-- A host write that is answered writes one register of the map (R64). -/
theorem hostWrite_next {a : BusAccess} {v : Bus} {s t : State} (h : hostWrite a v s = .next t) :
    ∃ r, regAt a.off = some r ∧ t = { writeReg r v s with resp := some .ack } := by
  have hb : (∃ e, (busWrite a v s).1 = .error e) ∨
      ∃ r, regAt a.off = some r ∧ busWrite a v s = (.ack, writeReg r v s) := by
    unfold busWrite
    split
    · exact .inl ⟨_, rfl⟩
    · split
      · exact .inl ⟨_, rfl⟩
      · next r hr => exact .inr ⟨r, hr, rfl⟩
  unfold hostWrite answer at h
  rcases hb with ⟨e, hb⟩ | ⟨r, hr, hb⟩
  · rw [hb] at h; cases h
  · rw [hb] at h; cases h; exact ⟨r, hr, rfl⟩

/-- A 32-bit read of a register is answered with its value. -/
theorem hostRead_word32 {off : BitVec 12} {r : Reg} (s : State) (h : regAt off = some r) :
    hostRead (word32 off) s = .next { s with resp := some (.data (readReg s r)) } := by
  unfold hostRead
  rw [busRead_word32 s h]
  rfl

/-- A 32-bit write of a register is answered OKAY. -/
theorem hostWrite_word32 {off : BitVec 12} {r : Reg} (v : Bus) (s : State) (h : regAt off = some r) :
    hostWrite (word32 off) v s = .next { writeReg r v s with resp := some .ack } := by
  unfold hostWrite
  rw [busWrite_word32 v s h]
  rfl

/-- What one host write can do to the block. -/
inductive HostWrote (s : State) : Reg → Bus → State → Prop
  | same (r : Reg) (v : Bus) : HostWrote s r v s
  | enable (v : Bus) (h : v.getLsbD 1 = false) : HostWrote s .ctrl v { s with ie := v.getLsbD 0 }
  | reset (v : Bus) (h : v.getLsbD 1 = true) : HostWrote s .ctrl v (resetBlock s)
  | status (v : Bus) : HostWrote s .status v (writeStatus v s)
  | issue (v : Bus) (h : s.pending = none) : HostWrote s .cmd v (issue v s)
  | overrun (v : Bus) (h : s.pending ≠ none) : HostWrote s .cmd v (recordError .cmdOverrun v s)
  | busy (r : Reg) (v off : Bus) (h : s.pending ≠ none) : HostWrote s r v (recordError .busyViolation off s)
  | word (i : WReg) (j : Fin 8) (v : Bus) (h : s.pending = none) (x : Word) : HostWrote s (.w i j) v (setW s i x)
  | point (k : PReg) (c : Coord) (j : Fin 8) (v : Bus) (h : s.pending = none) (t : Triple) :
      HostWrote s (.p k c j) v (setP s k t)

theorem writeReg_hostWrote (r : Reg) (v : Bus) (s : State) : HostWrote s r v (writeReg r v s) := by
  have busy_iff : busy s = true ↔ s.pending ≠ none := by simp [busy, Option.isSome_iff_ne_none]
  cases r with
  | ctrl =>
    show HostWrote s .ctrl v (writeCtrl v s)
    unfold writeCtrl
    split
    · next h => exact .reset v h
    · next h => exact .enable v (by simpa using h)
  | status => exact .status v
  | cmd =>
    show HostWrote s .cmd v (writeCmd v s)
    unfold writeCmd
    split
    · next h => exact .overrun v (busy_iff.1 h)
    · next h => exact .issue v (by simpa [busy_iff] using h)
  | w i j =>
    simp only [writeReg, writeData]
    split
    · next h => exact .busy _ v _ (busy_iff.1 h)
    · next h => exact .word i j v (by simpa [busy_iff] using h) _
  | p k c j =>
    simp only [writeReg, writeData]
    split
    · next h => exact .busy _ v _ (busy_iff.1 h)
    · next h => exact .point k c j v (by simpa [busy_iff] using h) _
  | _ => exact .same _ v

/-- Everything a step can do, by the event at the head of the list. -/
theorem step_cases {s t : State} (h : step s = .next t) :
    (s.events = [] ∧ engineStep s = .next t) ∨
    (∃ rest, s.events = .engine :: rest ∧ engineStep { s with events := rest } = .next t) ∨
    (∃ rest, s.events = .hardReset :: rest ∧ t = resetBlock { s with events := rest }) ∨
    (∃ a rest d, s.events = .read a :: rest ∧ t = { s with events := rest, resp := some (.data d) }) ∨
    (∃ a v rest r, s.events = .write a v :: rest ∧ regAt a.off = some r ∧
      t = { writeReg r v { s with events := rest } with resp := some .ack }) := by
  cases he : s.events with
  | nil => exact .inl ⟨rfl, (step_nil he).symm.trans h⟩
  | cons e rest =>
    rw [step_cons he] at h
    cases e with
    | engine => exact .inr (.inl ⟨rest, rfl, h⟩)
    | hardReset => cases h; exact .inr (.inr (.inl ⟨rest, rfl, rfl⟩))
    | read a =>
      obtain ⟨d, hd, _⟩ := hostRead_next h
      exact .inr (.inr (.inr (.inl ⟨a, rest, d, rfl, hd⟩)))
    | write a v =>
      obtain ⟨r, hr, ht⟩ := hostWrite_next h
      exact .inr (.inr (.inr (.inr ⟨a, v, rest, r, rfl, hr, ht⟩)))

end Sys2Proof.Machine
end

