-- ==== Sys2Proof/Laws/Window.lean ====
section
/-! SUPPORT. The register window in the terms of Safety.lean: which offsets are listed, and what a 32-bit read or write of a
register does (spec/20_memory.md R61 to R67). -/

namespace Sys2Proof.Machine

open Sys2Proof.Spec

/-- An offset selects no register exactly when the map does not list it (R63, R64). -/
theorem regAt_none_iff (off : BitVec 12) : regAt off = none ↔ ¬ Listed off := by
  have : ∀ off : BitVec 12, (regAt off).isNone = !(decide (off.toNat % 4 = 0 ∧ (off.toNat < 0x020 ∨ (0x100 ≤ off.toNat ∧ off.toNat < 0x300) ∨
    (0x400 ≤ off.toNat ∧ off.toNat < 0x800 ∧ off.toNat % 128 < 96)))) := by decide +kernel
  rw [← Option.isNone_iff_eq_none, this off]
  rw [Bool.not_eq_true', decide_eq_false_iff_not]
  rfl

/-- R62 for a read. -/
theorem shaped_iff (a : BusAccess) : accessShaped a = false ↔ a.size ≠ 4 ∨ a.off.toNat % 4 ≠ 0 := by
  unfold accessShaped; rw [Bool.and_eq_false_iff]; simp

/-- R62 for a write. -/
theorem writeShaped_iff (a : BusAccess) : (accessShaped a && a.strobe == 0xF) = false ↔ a.size ≠ 4 ∨ a.off.toNat % 4 ≠ 0 ∨ a.strobe ≠ 0xF := by
  rw [Bool.and_eq_false_iff, shaped_iff, or_assoc]; simp

/-- A 32-bit read of a register's offset (R64). -/
theorem reads_reg {off : BitVec 12} {r : Reg} (s : State) (h : regAt off = some r) : Reads off s (readReg s r) := by
  unfold Reads; rw [readTurn_eq]; exact hostRead_word32 s h

/-- A 32-bit write of a register's offset (R64). -/
theorem writes_reg {off : BitVec 12} {r : Reg} (v : Bus) (s : State) (h : regAt off = some r) : Writes off v s (writeReg r v s) := by
  unfold Writes; rw [writeTurn_eq]; exact hostWrite_word32 v s h

/-- The bits of STATUS (R32). -/
theorem status_bits (a b c d e : Bool) (f : ErrCode) (g : TblWidth) :
    let v : Bus := 0#8 ++ errBits f ++ 0#4 ++ BitVec.ofNat 4 (widthNat g) ++ 0#3 ++ BitVec.ofBool e
      ++ BitVec.ofBool d ++ BitVec.ofBool c ++ BitVec.ofBool b ++ BitVec.ofBool a
    v.getLsbD 0 = a ∧ v.getLsbD 1 = b ∧ v.getLsbD 2 = c ∧ v.getLsbD 3 = d ∧
      v.getLsbD 4 = e ∧ v.extractLsb' 5 3 = 0 ∧ v.extractLsb' 8 4 = widthOf g ∧
      v.extractLsb' 12 4 = 0 ∧ v.extractLsb' 16 8 = codeOf f ∧ v.extractLsb' 24 8 = 0 := by
  revert a b c d e
  cases f <;> cases g <;> decide +kernel

theorem laneOf_getLsbD (a : Word) (j : Fin 8) (b : Nat) (hb : b < 32) : (laneOf a j).getLsbD b = a.getLsbD (224 - 32 * j.val + b) := by
  simp [laneOf, hb]

/-- What a word write leaves (R66). -/
theorem laneWritten_setLane (v : Word) (j : Fin 8) (x : Bus) : LaneWritten v (setLane v j x) j x := by
  intro b hb
  have := j.isLt
  rw [setLane_getLsbD _ _ _ _ hb]
  congr 1
  simp; omega

theorem regAt_wordOff (i : WReg) (j : Fin 8) : regAt (wordOff i j) = some (.w i j) := regAt_regOffset (.w i j)

/-- Coordinates by number. -/
def coordNo (c : Fin 3) : Coord := if c = 0 then .x else if c = 1 then .y else .z

theorem pointOff_eq (k : PReg) (c : Fin 3) (j : Fin 8) : pointOff k c j = pOffset k (coordNo c) j := by
  fin_cases c <;> rfl
theorem regAt_pointOff (k : PReg) (c : Fin 3) (j : Fin 8) : regAt (pointOff k c j) = some (.p k (coordNo c) j) := by
  rw [pointOff_eq]; exact regAt_regOffset (.p k (coordNo c) j)
theorem coordinate_eq (t : Triple) (c : Fin 3) : coordinate t c = coordOf t (coordNo c) := by
  fin_cases c <;> rfl

/-- What a 32-bit read answers. -/
theorem reads_iff {off s v} {r : Reg} (h : regAt off = some r) : Reads off s v ↔ readReg s r = v := by
  have h1 := reads_reg s h
  unfold Reads at *
  rw [h1]
  constructor
  · intro h; injection h with h; have := congrArg State.resp h; injection this with this; injection this
  · rintro rfl; rfl

/-- A reset leaves the values of R47. -/
theorem resetValues_resetBlock (s : State) : ResetValues s (resetBlock s) := by
  have h1 : ∀ r, getW State.reset r = 0 := by decide
  have h2 : ∀ r, getP State.reset r = ⟨0, 0, 0⟩ := by decide
  refine ⟨fun r => ?_, fun r => ?_, rfl, rfl, rfl, rfl, rfl, rfl, rfl, rfl, rfl, rfl, rfl, rfl, rfl, rfl, rfl, rfl, rfl, rfl, rfl, rfl, rfl, rfl⟩
  · exact h1 r
  · exact h2 r

/-- The stored table, in the terms of Safety.lean (R40). -/
theorem tableEntries_eq_table (w : TblWidth) : tableEntries w = table w := by cases w <;> rfl

end Sys2Proof.Machine
end

