-- ==== Sys2Proof/Tests/Slice0.lean ====
section
/-! SUPPORT. This model's own tests: well-formedness, decoding of words written out from spec/30_encoding.md R101 and R105, single
steps with the results of spec/95_test_vectors.md, and for every statement with hypotheses a state that meets them. -/

namespace Sys2Proof.Tests

set_option Elab.async false

open Sys2Proof Sys2Proof.Machine Sys2Proof.Spec

/-! ### Well-formedness -/

theorem test_wf_ldc_index : (Instr.ldc 0 11).wellFormed = true ∧ (Instr.ldc 0 12).wellFormed = false := by decide

theorem test_wf_precomp_width : (Instr.precomp 8).wellFormed = true ∧ (Instr.precomp 5).wellFormed = false := by decide

theorem test_wf_ninit_extra : (Instr.ninit true 3 1 2).wellFormed = true ∧ (Instr.ninit false 3 1 2).wellFormed = false := by
  decide

/-- The words of ill-formed commands are rejected, each by its own item of R106. -/
theorem test_wf_encodings_rejected :
    (match decode (encode (.ldc 0 12)) with | .error .immediate => true | _ => false) = true ∧
    (match decode (encode (.precomp 5)) with | .error .immediate => true | _ => false) = true ∧
    (match decode (encode (.ninit false 3 1 2)) with | .error .extraRegister => true | _ => false) = true := by
  decide +kernel

/-! ### Decoding: OPC, M, RSV, RD, RS1, RS2, IMM8, bit by bit (R101, R105) -/

/-- The word decodes to the command. -/
def reads (e : Bus × Instr) : Bool := decide (decode e.1 = .ok e.2)

theorem test_decode_sequencer : ([
    (0b00000000_0_000_0000_0000_0000_00000000, .nop),
    (0b00000001_0_000_0010_0001_0000_00000000, .mov 2 1),
    (0b00000010_0_000_1111_0000_0000_00001011, .ldc 15 11),
    (0b00000011_0_000_0000_0001_0010_00000000, .cmp 1 2),
    (0b00001111_0_000_0000_0000_0000_00000000, .zeroize)] : List (Bus × Instr)).all reads = true := by decide +kernel

theorem test_decode_adder : ([
    (0b00010000_1_000_0011_0001_0010_00000000, .madd .n 3 1 2),
    (0b00010001_0_000_0100_0101_0110_00000000, .msub .p 4 5 6),
    (0b00010010_1_000_1010_1011_0000_00000000, .mneg .n 10 11),
    (0b00010011_0_000_0000_0001_0000_00000100, .mcneg .p 0 1 .eq true),
    (0b00010011_1_000_0010_0001_0000_00000001, .mcneg .n 2 1 .lt false),
    (0b00010011_0_000_0000_0001_0000_00000110, .mcneg .p 0 1 .odd true),
    (0b00010011_0_000_0000_0001_0000_00000011, .mcneg .p 0 1 .inf false),
    (0b00010100_1_000_0111_0101_0000_00000000, .mred .n 7 5),
    (0b00010101_0_000_0001_0010_0011_00000000, .mredw .p 1 2 3)] : List (Bus × Instr)).all reads = true := by decide +kernel

theorem test_decode_multiplier : ([
    (0b00100000_0_000_0100_0101_0110_00000000, .montmul .p 4 5 6),
    (0b00100001_1_000_0001_0010_0000_00000000, .tomont .n 1 2),
    (0b00100010_0_000_0001_0010_0000_00000000, .frommont .p 1 2),
    (0b00100011_1_000_1001_0111_0001_00000000, .mmul .n 9 7 1),
    (0b00100100_0_000_1000_0001_0000_00000000, .msqr .p 8 1),
    (0b00100101_1_000_0001_0010_0100_00000000, .mpow .n 1 2 4),
    (0b00110000_1_000_0010_0010_0000_00000000, .minv .n 2 2),
    (0b00110001_0_000_0001_1000_0000_00000000, .msqrt 1 8)] : List (Bus × Instr)).all reads = true := by decide +kernel

theorem test_decode_points : ([
    (0b01000000_0_000_0111_0000_0000_00000000, .pinf 7),
    (0b01000001_0_000_0001_0000_0000_00000000, .pgen 1),
    (0b01000010_0_000_0001_0100_0000_00000000, .pmov 1 4),
    (0b01000011_0_000_0010_0001_1111_00000000, .plda 2 1 15),
    (0b01000100_0_000_0000_0001_0000_00000001, .plift 0 1 true),
    (0b01000101_0_000_0101_0000_0000_00000000, .pneg 5 0),
    (0b01000110_0_000_0010_0000_0001_00000000, .padd 2 0 1),
    (0b01000111_0_000_0001_0011_0000_00000000, .pdbl 1 3),
    (0b01001000_0_000_0000_0001_0011_00000000, .peq 1 3),
    (0b01001001_0_000_0000_0110_0000_00000000, .ptst 6),
    (0b01001010_0_000_0101_0010_0110_00000000, .paff 5 6 2)] : List (Bus × Instr)).all reads = true := by decide +kernel

theorem test_decode_scalar_nonce : ([
    (0b01010000_0_000_0000_0000_0000_00001000, .precomp 8),
    (0b01010001_0_000_0011_0100_0000_00000000, .pmulg 3 4),
    (0b01010010_0_000_0001_0010_0011_00000000, .pmul 1 2 3),
    (0b01010011_0_000_0010_1111_0011_00000001, .pmul2 2 15 3 1),
    (0b01100000_0_000_0000_0001_0010_00000000, .ninit false 0 1 2),
    (0b01100000_0_000_0011_0001_0010_00000001, .ninit true 3 1 2),
    (0b01100001_0_000_0100_0000_0000_00000000, .ngen 4)] : List (Bus × Instr)).all reads = true := by decide +kernel

/-- ENC-5 to ENC-24: the illegal words. -/
theorem test_decode_illegal : ([0x10131200, 0x01800000, 0x0100000F, 0x01000100, 0x40080000, 0x46000800, 0x0200000C,
    0x13001008, 0x44001002, 0x50000001, 0x53034508, 0x60031200, 0x31801000, 0x04000000, 0x16000000, 0x4B000000, 0x62000000,
    0xFF000000, 0xFFFFFFFF, 0x61001000] : List Bus).all (fun c => match decode c with | .error _ => true | .ok _ => false) = true := by
  decide +kernel

theorem test_decode_table_word : decodeTableWord 32 0x46020100 = some (.padd 2 0 1) ∧ decodeTableWord 32 0x70000000 = none := by
  decide +kernel

/-! ### One command from a small state (tables CTL to SM) -/

/-- The reset state with some registers written. -/
def start (ws : List (WReg × Word)) (ps : List (PReg × Triple)) : State :=
  ps.foldl (fun s e => setP s e.1 e.2) (ws.foldl (fun s e => setW s e.1 e.2) State.reset)

/-- The step that runs the word answers a next state that passes the check. -/
def after (s : State) (word : Nat) (check : State → Bool) : Bool :=
  match step (s.withFetchWord 32 word) with
  | .next t => check t
  | _ => false

/-- The host's transaction answers a next state that passes the check. -/
def afterEvent (s : State) (e : Event) (check : State → Bool) : Bool :=
  match step { s with events := [e] } with
  | .next t => check t
  | _ => false

def vP : Word := 0xFFFFFFFFFFFFFFFFFFFFFFFFFFFFFFFFFFFFFFFFFFFFFFFFFFFFFFFEFFFFFC2F
def vN : Word := 0xFFFFFFFFFFFFFFFFFFFFFFFFFFFFFFFEBAAEDCE6AF48A03BBFD25E8CD0364141
def vGX : Word := 0x79BE667EF9DCBBAC55A06295CE870B07029BFCDB2DCE28D959F2815B16F81798
def vGY : Word := 0x483ADA7726A3C4655DA4FBFC0E1108A8FD17B448A68554199C47D08FFB10D4B8
/-- P - GY (PT-96). -/
def vGYneg : Word := 0xB7C52588D95C3B9AA25B0403F1EEF75702E84BB7597AABE663B82F6F04EF2777
/-- JDBL(G), not normalised (PT-99). -/
def v2G : Triple :=
  ⟨0x7D152C041EA8E1DC2191843D1FA9DB55B68F88FEF695E2C791D40444B365AFC2,
   0x56915849F52CC8F76F5FD7E4BF60DB4A43BF633E1B1383F85FE89164BFADCBDB,
   0x9075B4EE4D4788CABB49F7F81C221151FA2F68914D0AA833388FA11FF621A970⟩

/-- CTL-1: NOP -/
theorem test_nop_ctl1 : after (start [] []) 0x00000000 (fun t => decide (t.cmdcnt = 1 ∧ t.done = true)) = true := by
  decide +kernel

/-- CTL-2: MOV w2, w1 -/
theorem test_mov_ctl2 : after (start [(1, 0xDEADBEEF), (2, 0x5)] []) 0x01021000 (fun t => decide (getW t 2 = 0xDEADBEEF)) = true := by
  decide +kernel

/-- CTL-6: LDC w0, P -/
theorem test_ldc_ctl6 : after (start [] []) 0x02000002 (fun t => decide (getW t 0 = vP)) = true := by
  decide +kernel

/-- CTL-15: LDC w0, R2N -/
theorem test_ldc_ctl15 : after (start [] []) 0x0200000B (fun t => decide (getW t 0 = 0x9D671CD581C69BC5E697F5E45BCD07C6741496C20E7CF878896CF21467D7D140)) = true := by
  decide +kernel

/-- CTL-17: CMP w1, w2 -/
theorem test_cmp_ctl17 : after (start [(1, 0x3), (2, 0x5)] []) 0x03001200 (fun t => decide (t.eq = false ∧ t.lt = true ∧ t.odd = true)) = true := by
  decide +kernel

/-- CTL-20: CMP w1, w2 -/
theorem test_cmp_ctl20 : after (start [(1, 0xFFFFFFFFFFFFFFFFFFFFFFFFFFFFFFFFFFFFFFFFFFFFFFFFFFFFFFFFFFFFFFFF), (2, vP)] []) 0x03001200 (fun t => decide (t.eq = false ∧ t.lt = false ∧ t.odd = true)) = true := by
  decide +kernel

/-- CTL-21: ZEROIZE -/
theorem test_zeroize_ctl21 : after { setTable .w8 (start [(5, 0x7)] [(3, ⟨vGX, vGY, 0x1⟩)]) with eq := true, lt := true, odd := true, inf := true, ngReady := true, ngFirst := false, ngK := 17, ngV := 34 } 0x0F000000 (fun t => decide (getW t 5 = 0x0 ∧ getP t 3 = ⟨0x0, 0x0, 0x0⟩ ∧ t.eq = false ∧ t.lt = false ∧ t.odd = false ∧ t.inf = false ∧ t.tblW = .w8 ∧ t.ngReady = false ∧ t.ngFirst = false ∧ t.ngK = 0)) = true := by
  decide +kernel

/-- MAS-22: MADD.P w0, w1, w2 -/
theorem test_madd_mas22 : after (start [(1, 0xFFFFFFFFFFFFFFFFFFFFFFFFFFFFFFFFFFFFFFFFFFFFFFFFFFFFFFFEFFFFFC2E), (2, 0x2)] []) 0x10001200 (fun t => decide (getW t 0 = 0x1 ∧ t.err = false)) = true := by
  decide +kernel

/-- MAS-26: MADD.N w0, w1, w2 -/
theorem test_madd_mas26 : after (start [(1, 0x1), (2, vN)] []) 0x10801200 (fun t => decide (getW t 0 = 0x0 ∧ (errBits t.errcode).toNat = 3)) = true := by
  decide +kernel

/-- MAS-28: MSUB.P w0, w1, w2 -/
theorem test_msub_mas28 : after (start [(1, 0x1), (2, 0x2)] []) 0x11001200 (fun t => decide (getW t 0 = 0xFFFFFFFFFFFFFFFFFFFFFFFFFFFFFFFFFFFFFFFFFFFFFFFFFFFFFFFEFFFFFC2E ∧ t.err = false)) = true := by
  decide +kernel

/-- MAS-29: MSUB.N w0, w1, w2 -/
theorem test_msub_mas29 : after (start [(1, 0x1), (2, 0x2)] []) 0x11801200 (fun t => decide (getW t 0 = 0xFFFFFFFFFFFFFFFFFFFFFFFFFFFFFFFEBAAEDCE6AF48A03BBFD25E8CD0364140 ∧ t.err = false)) = true := by
  decide +kernel

/-- MAS-31: MNEG.P w0, w1 -/
theorem test_mneg_mas31 : after (start [(1, 0x0)] []) 0x12001000 (fun t => decide (getW t 0 = 0x0 ∧ t.err = false)) = true := by
  decide +kernel

/-- MAS-33: MNEG.N w1, w1 -/
theorem test_mneg_mas33 : after (start [(1, 0xFFFFFFFFFFFFFFFFFFFFFFFFFFFFFFFEBAAEDCE6AF48A03BBFD25E8CD0364140)] []) 0x12811000 (fun t => decide (getW t 1 = 0x1 ∧ t.err = false)) = true := by
  decide +kernel

/-- MAS-34: MCNEG.N w0, w1, LT -/
theorem test_mcneg_mas34 : after { start [(1, 0x5)] [] with eq := false, lt := true, odd := false, inf := false } 0x13801001 (fun t => decide (getW t 0 = 0xFFFFFFFFFFFFFFFFFFFFFFFFFFFFFFFEBAAEDCE6AF48A03BBFD25E8CD036413C ∧ t.err = false)) = true := by
  decide +kernel

/-- MAS-36: MCNEG.P w0, w1, !ODD -/
theorem test_mcneg_mas36 : after { start [(1, 0x5)] [] with eq := false, lt := false, odd := false, inf := false } 0x13001006 (fun t => decide (getW t 0 = 0xFFFFFFFFFFFFFFFFFFFFFFFFFFFFFFFFFFFFFFFFFFFFFFFFFFFFFFFEFFFFFC2A ∧ t.err = false)) = true := by
  decide +kernel

/-- MAS-39: MRED.P w0, w1 -/
theorem test_mred_mas39 : after (start [(1, 0xFFFFFFFFFFFFFFFFFFFFFFFFFFFFFFFFFFFFFFFFFFFFFFFFFFFFFFFFFFFFFFFF)] []) 0x14001000 (fun t => decide (getW t 0 = 0x1000003D0 ∧ t.err = false)) = true := by
  decide +kernel

/-- MAS-40: MRED.N w0, w1 -/
theorem test_mred_mas40 : after (start [(1, 0xFFFFFFFFFFFFFFFFFFFFFFFFFFFFFFFFFFFFFFFFFFFFFFFFFFFFFFFFFFFFFFFF)] []) 0x14801000 (fun t => decide (getW t 0 = 0x14551231950B75FC4402DA1732FC9BEBE ∧ t.err = false)) = true := by
  decide +kernel

/-- MAS-43: MREDW.P w0, w1, w2 -/
theorem test_mredw_mas43 : after (start [(1, 0x1), (2, 0x0)] []) 0x15001200 (fun t => decide (getW t 0 = 0x1000003D1 ∧ t.err = false)) = true := by
  decide +kernel

/-- MAS-44: MREDW.N w0, w1, w2 -/
theorem test_mredw_mas44 : after (start [(1, 0xFFFFFFFFFFFFFFFFFFFFFFFFFFFFFFFFFFFFFFFFFFFFFFFFFFFFFFFFFFFFFFFF), (2, 0xFFFFFFFFFFFFFFFFFFFFFFFFFFFFFFFFFFFFFFFFFFFFFFFFFFFFFFFFFFFFFFFF)] []) 0x15801200 (fun t => decide (getW t 0 = 0x9D671CD581C69BC5E697F5E45BCD07C6741496C20E7CF878896CF21467D7D13F ∧ t.err = false)) = true := by
  decide +kernel

/-- MM-46: MONTMUL.P w0, w1, w2 -/
theorem test_montmul_mm46 : after (start [(1, 0x2), (2, 0x3)] []) 0x20001200 (fun t => decide (getW t 0 = 0xBA6E961E7FF51599A9A8908F83B04C4A6C2CD7F928DBC21B115036B23270A640 ∧ t.err = false)) = true := by
  decide +kernel

/-- MM-47: MONTMUL.N w0, w1, w2 -/
theorem test_montmul_mm47 : after (start [(1, 0x2), (2, 0x3)] []) 0x20801200 (fun t => decide (getW t 0 = 0x1B7336505B7D9D7538FB2486EEDE0435C0FCA9859173284046D2F6B4F27F3A3F ∧ t.err = false)) = true := by
  decide +kernel

/-- MM-51: TOMONT.P w0, w1 -/
theorem test_tomont_mm51 : after (start [(1, 0x2)] []) 0x21001000 (fun t => decide (getW t 0 = 0x2000007A2 ∧ t.err = false)) = true := by
  decide +kernel

/-- MM-52: TOMONT.N w0, w1 -/
theorem test_tomont_mm52 : after (start [(1, 0x2)] []) 0x21801000 (fun t => decide (getW t 0 = 0x28AA24632A16EBF88805B42E65F937D7E ∧ t.err = false)) = true := by
  decide +kernel

/-- MM-55: FROMMONT.P w0, w1 -/
theorem test_frommont_mm55 : after (start [(1, 0x1)] []) 0x22001000 (fun t => decide (getW t 0 = 0xC9BD1905155383999C46C2C295F2B761BCB223FEDC24A059D838091D0868192A ∧ t.err = false)) = true := by
  decide +kernel

/-- MM-56: FROMMONT.N w0, w1 -/
theorem test_frommont_mm56 : after (start [(1, 0x1)] []) 0x22801000 (fun t => decide (getW t 0 = 0xD9E8890D6494EF93897F30C127CFAB5D3BBBD4567FA50C3C80FD22938097C016 ∧ t.err = false)) = true := by
  decide +kernel

/-- MM-57: MMUL.P w0, w1, w2 -/
theorem test_mmul_mm57 : after (start [(1, 0xFFFFFFFFFFFFFFFFFFFFFFFFFFFFFFFFFFFFFFFFFFFFFFFFFFFFFFFEFFFFFC2E), (2, 0xFFFFFFFFFFFFFFFFFFFFFFFFFFFFFFFFFFFFFFFFFFFFFFFFFFFFFFFEFFFFFC2E)] []) 0x23001200 (fun t => decide (getW t 0 = 0x1 ∧ t.err = false)) = true := by
  decide +kernel

/-- MM-58: MMUL.N w0, w1, w2 -/
theorem test_mmul_mm58 : after (start [(1, 0xFFFFFFFFFFFFFFFFFFFFFFFFFFFFFFFEBAAEDCE6AF48A03BBFD25E8CD0364140), (2, 0x2)] []) 0x23801200 (fun t => decide (getW t 0 = 0xFFFFFFFFFFFFFFFFFFFFFFFFFFFFFFFEBAAEDCE6AF48A03BBFD25E8CD036413F ∧ t.err = false)) = true := by
  decide +kernel

/-- MM-60: MSQR.P w0, w1 -/
theorem test_msqr_mm60 : after (start [(1, 0x100000000000000000000000000000000)] []) 0x24001000 (fun t => decide (getW t 0 = 0x1000003D1 ∧ t.err = false)) = true := by
  decide +kernel

/-- MM-61: MSQR.N w1, w1 -/
theorem test_msqr_mm61 : after (start [(1, 0xFFFFFFFFFFFFFFFFFFFFFFFFFFFFFFFEBAAEDCE6AF48A03BBFD25E8CD0364140)] []) 0x24811000 (fun t => decide (getW t 1 = 0x1 ∧ t.err = false)) = true := by
  decide +kernel

/-- MM-62: MPOW.P w0, w1, w2 -/
theorem test_mpow_mm62 : after (start [(1, 0x0), (2, 0x0)] []) 0x25001200 (fun t => decide (getW t 0 = 0x1 ∧ t.err = false)) = true := by
  decide +kernel

/-- MM-63: MPOW.P w0, w1, w2 -/
theorem test_mpow_mm63 : after (start [(1, 0x2), (2, 0xFFFFFFFFFFFFFFFFFFFFFFFFFFFFFFFFFFFFFFFFFFFFFFFFFFFFFFFFFFFFFFFF)] []) 0x25001200 (fun t => decide (getW t 0 = 0x8DEF9A2D066170A549DA6A66080937DB048EFE08772C8F7C20E351DFB71856E0 ∧ t.err = false)) = true := by
  decide +kernel

/-- INV-68: MINV.N w0, w1 -/
theorem test_minv_inv68 : after (start [(1, 0x2)] []) 0x30801000 (fun t => decide (getW t 0 = 0x7FFFFFFFFFFFFFFFFFFFFFFFFFFFFFFF5D576E7357A4501DDFE92F46681B20A1 ∧ t.err = false)) = true := by
  decide +kernel

/-- INV-73: MINV.P w0, w1 -/
theorem test_minv_inv73 : after (start [(1, 0x0), (0, 0x9)] []) 0x30001000 (fun t => decide (getW t 0 = 0x9 ∧ (errBits t.errcode).toNat = 4)) = true := by
  decide +kernel

/-- INV-76: MSQRT w0, w1 -/
theorem test_msqrt_inv76 : after (start [(1, 0x2)] []) 0x31001000 (fun t => decide (getW t 0 = 0x210C790573632359B1EDB4302C117D8A132654692C3FEEB7DE3A86AC3F3B53F7 ∧ t.eq = true ∧ t.odd = true ∧ t.err = false)) = true := by
  decide +kernel

/-- INV-78: MSQRT w0, w1 -/
theorem test_msqrt_inv78 : after { start [(1, 0x5), (0, 0x9)] [] with eq := true, lt := false, odd := true, inf := false } 0x31001000 (fun t => decide (getW t 0 = 0x9 ∧ t.eq = false ∧ t.odd = true ∧ t.err = false)) = true := by
  decide +kernel

/-- PT-82: PINF p0 -/
theorem test_pinf_pt82 : after (start [] [(0, ⟨vGX, vGY, 0x1⟩)]) 0x40000000 (fun t => decide (getP t 0 = ⟨0x1, 0x1, 0x0⟩ ∧ t.inf = true ∧ t.err = false)) = true := by
  decide +kernel

/-- PT-83: PGEN p7 -/
theorem test_pgen_pt83 : after { start [] [] with eq := false, lt := false, odd := false, inf := true } 0x41070000 (fun t => decide (getP t 7 = ⟨vGX, vGY, 0x1⟩ ∧ t.inf = false ∧ t.err = false)) = true := by
  decide +kernel

/-- PT-85: PMOV p1, p0 -/
theorem test_pmov_pt85 : after (start [] [(0, ⟨0x5, 0x6, 0x7⟩)]) 0x42010000 (fun t => decide (getP t 1 = ⟨0x5, 0x6, 0x7⟩ ∧ t.err = false)) = true := by
  decide +kernel

/-- PT-86: PLDA p0, w1, w2 -/
theorem test_plda_pt86 : after (start [(1, vGX), (2, vGY)] []) 0x43001200 (fun t => decide (getP t 0 = ⟨vGX, vGY, 0x1⟩ ∧ t.inf = false ∧ t.err = false)) = true := by
  decide +kernel

/-- PT-87: PLDA p0, w1, w2 -/
theorem test_plda_pt87 : after (start [(1, vGX), (2, 0x483ADA7726A3C4655DA4FBFC0E1108A8FD17B448A68554199C47D08FFB10D4B9)] []) 0x43001200 (fun t => decide (getP t 0 = ⟨0x0, 0x0, 0x0⟩ ∧ (errBits t.errcode).toNat = 5)) = true := by
  decide +kernel

/-- PT-91: PLIFT p0, w1, ODD -/
theorem test_plift_pt91 : after (start [(1, vGX)] []) 0x44001001 (fun t => decide (getP t 0 = ⟨vGX, vGYneg, 0x1⟩ ∧ t.odd = true ∧ t.err = false)) = true := by
  decide +kernel

/-- PT-93: PLIFT p0, w1, EVEN -/
theorem test_plift_pt93 : after (start [(1, 0x0)] []) 0x44001000 (fun t => decide (getP t 0 = ⟨0x0, 0x0, 0x0⟩ ∧ (errBits t.errcode).toNat = 5)) = true := by
  decide +kernel

/-- PT-96: PNEG p1, p0 -/
theorem test_pneg_pt96 : after (start [] [(0, ⟨vGX, vGY, 0x1⟩)]) 0x45010000 (fun t => decide (getP t 1 = ⟨vGX, vGYneg, 0x1⟩ ∧ t.inf = false ∧ t.err = false)) = true := by
  decide +kernel

/-- PT-97: PNEG p1, p0 -/
theorem test_pneg_pt97 : after (start [] [(0, ⟨0x0, 0x0, 0x0⟩)]) 0x45010000 (fun t => decide (getP t 1 = ⟨0x1, 0x1, 0x0⟩ ∧ t.inf = true ∧ t.err = false)) = true := by
  decide +kernel

/-- PT-99: PDBL p1, p0 -/
theorem test_pdbl_pt99 : after (start [] [(0, ⟨vGX, vGY, 0x1⟩)]) 0x47010000 (fun t => decide (getP t 1 = v2G ∧ t.inf = false ∧ t.err = false)) = true := by
  decide +kernel

/-- PT-100: PDBL p1, p0 -/
theorem test_pdbl_pt100 : after (start [] [(0, ⟨0x0, 0x0, 0x0⟩)]) 0x47010000 (fun t => decide (getP t 1 = ⟨0x1, 0x1, 0x0⟩ ∧ t.inf = true ∧ t.err = false)) = true := by
  decide +kernel

/-- PT-101: PADD p2, p0, p1 -/
theorem test_padd_pt101 : after (start [] [(0, ⟨vGX, vGY, 0x1⟩), (1, v2G)]) 0x46020100 (fun t => decide (getP t 2 = ⟨0x32A43BE6C1B5FAD475943A45178C20F2F637E1D645A21880DBE5E8D63C226120, 0x1AD7F3B00BDC6AAE827FC54C6EB0595D3F5B7C3FB5940C1652249EBAB2EE90DA, 0x2485F538173E47477FD4D41D6DB79F97890A7FD344BDD29020BB8CD55536BB25⟩ ∧ t.inf = false ∧ t.err = false)) = true := by
  decide +kernel

/-- PT-104: PADD p2, p0, p1 -/
theorem test_padd_pt104 : after (start [] [(0, ⟨vGX, vGY, 0x1⟩), (1, ⟨vGX, vGYneg, 0x1⟩)]) 0x46020100 (fun t => decide (getP t 2 = ⟨0x1, 0x1, 0x0⟩ ∧ t.inf = true ∧ t.err = false)) = true := by
  decide +kernel

/-- PT-108: PEQ p0, p1 -/
theorem test_peq_pt108 : after (start [] [(0, v2G), (1, ⟨0xC6047F9441ED7D6D3045406E95C07CD85C778E4B8CEF3CA7ABAC09B95C709EE5, 0x1AE168FEA63DC339A3C58419466CEAEEF7F632653266D0E1236431A950CFE52A, 0x1⟩)]) 0x48000100 (fun t => decide (t.eq = true ∧ t.err = false)) = true := by
  decide +kernel

/-- PT-111: PEQ p0, p1 -/
theorem test_peq_pt111 : after (start [] [(0, ⟨0x0, 0x0, 0x0⟩), (1, ⟨vGX, vGY, 0x1⟩)]) 0x48000100 (fun t => decide (t.eq = false ∧ t.err = false)) = true := by
  decide +kernel

/-- PT-112: PTST p0 -/
theorem test_ptst_pt112 : after (start [] [(0, ⟨0x3, 0x4, 0x0⟩)]) 0x49000000 (fun t => decide (t.inf = true ∧ t.err = false)) = true := by
  decide +kernel

/-- PT-114: PTST p0 -/
theorem test_ptst_pt114 : after (start [] [(0, ⟨vGX, vGY, 0xFFFFFFFFFFFFFFFFFFFFFFFFFFFFFFFFFFFFFFFFFFFFFFFFFFFFFFFEFFFFFC30⟩)]) 0x49000000 (fun t => decide (t.inf = false ∧ (errBits t.errcode).toNat = 5)) = true := by
  decide +kernel

/-- PT-115: PAFF w0, w1, p0 -/
theorem test_paff_pt115 : after (start [] [(0, v2G)]) 0x4A000100 (fun t => decide (getW t 0 = 0xC6047F9441ED7D6D3045406E95C07CD85C778E4B8CEF3CA7ABAC09B95C709EE5 ∧ getW t 1 = 0x1AE168FEA63DC339A3C58419466CEAEEF7F632653266D0E1236431A950CFE52A ∧ t.odd = false ∧ t.err = false)) = true := by
  decide +kernel

/-- PT-116: PAFF w0, w0, p0 -/
theorem test_paff_pt116 : after (start [] [(0, ⟨vGX, vGY, 0x1⟩)]) 0x4A000000 (fun t => decide (getW t 0 = vGY ∧ t.odd = false ∧ t.err = false)) = true := by
  decide +kernel

/-- SM-118: PRECOMP #4 -/
theorem test_precomp_sm118 : after (start [] []) 0x50000004 (fun t => decide (t.tblW = .w4 ∧ t.tblValid = true ∧ t.err = false)) = true := by
  decide +kernel

/-- SM-119: PRECOMP #0 -/
theorem test_precomp_sm119 : after (setTable .w8 (start [] [])) 0x50000000 (fun t => decide (t.tblW = .none ∧ t.tblValid = false ∧ t.err = false)) = true := by
  decide +kernel

/-- SM-123: PMULG p0, w1 -/
theorem test_pmulg_sm123 : after (start [(1, 0xFFFFFFFFFFFFFFFFFFFFFFFFFFFFFFFEBAAEDCE6AF48A03BBFD25E8CD0364140)] []) 0x51001000 (fun t => decide (getP t 0 = ⟨vGX, vGYneg, 0x1⟩ ∧ t.err = false)) = true := by
  decide +kernel

/-- SM-127: PMULG p0, w1 -/
theorem test_pmulg_sm127 : after (start [(1, vN)] []) 0x51001000 (fun t => decide (getP t 0 = ⟨0x0, 0x0, 0x0⟩ ∧ t.tblW = .none ∧ (errBits t.errcode).toNat = 3)) = true := by
  decide +kernel

/-- SM-128: PMUL p1, p0, w1 -/
theorem test_pmul_sm128 : after (start [(1, 0x3)] [(0, ⟨0xC6047F9441ED7D6D3045406E95C07CD85C778E4B8CEF3CA7ABAC09B95C709EE5, 0x1AE168FEA63DC339A3C58419466CEAEEF7F632653266D0E1236431A950CFE52A, 0x1⟩)]) 0x52010100 (fun t => decide (getP t 1 = ⟨0xFFF97BD5755EEEA420453A14355235D382F6472F8568A18B2F057A1460297556, 0xAE12777AACFBB620F3BE96017F45C560DE80F0F6518FE4A03C870C36B075F297, 0x1⟩ ∧ t.inf = false ∧ t.err = false)) = true := by
  decide +kernel

/-- SM-132: PMUL p1, p0, w1 -/
theorem test_pmul_sm132 : after (start [(1, vN)] [(0, ⟨0x1, 0x2, 0x1⟩)]) 0x52010100 (fun t => decide (getP t 1 = ⟨0x0, 0x0, 0x0⟩ ∧ (errBits t.errcode).toNat = 5)) = true := by
  decide +kernel

/-- SM-133: PMUL2 p1, w1, w2, p0 -/
theorem test_pmul2_sm133 : after (start [(1, 0x2), (2, 0x3)] [(0, ⟨vGX, vGY, 0x1⟩)]) 0x53011200 (fun t => decide (getP t 1 = ⟨0x2F8BDE4D1A07209355B4A7250A5C5128E88B84BDDC619AB7CBA8D569B240EFE4, 0xD8AC222636E5E3D6D4DBA9DDA6C9C426F788271BAB0D6840DCA87D3AA6AC62D6, 0x1⟩ ∧ t.inf = false ∧ t.err = false)) = true := by
  decide +kernel

/-- SM-137: PMUL2 p1, w1, w2, p0 -/
theorem test_pmul2_sm137 : after (start [(1, vN), (2, 0x0)] [(0, ⟨0x1, 0x2, 0x1⟩)]) 0x53011200 (fun t => decide (getP t 1 = ⟨0x0, 0x0, 0x0⟩ ∧ (errBits t.errcode).toNat = 3)) = true := by
  decide +kernel

/-! ### The nonce generator against HMAC-SHA-256 (table NG) -/

/-- SHA-256("Satoshi Nakamoto") (95_test_vectors, its head). -/
def hSatoshi : Word := 0xA0DC65FFCA799873CBEA0AC274015B9526505DAAAED385155425F7337704883E

/-- The five HMAC-SHA-256 calls of NG-1's NINIT and first NGEN; NG_K, NG_V and k are the table's, the two inner values were
computed outside the model. -/
def ngTable : List HmacEntry :=
  let seed := bytes32 1 ++ bytes32 hSatoshi
  let ones := List.replicate 32 (0x01 : Byte)
  let k1 : Word := 0xB663006E369D6851668B59760C0CFBAA5D09E23E6F916443B3DE4D558BF91B7
  let v1 : Word := 0x616CAD1051AEBE08197D002DBDB90BDC2BB6B65B3D768C518863056A840C03F0
  let k2 : Word := 0xF457C01688026EE0B9236E5C7FF1478007AD0B697855F592EFA9468ECF0C1F86
  let v2 : Word := 0xA196437A8F26FBC9E519E4FD4B5D10D62E6A5306C98CA431B96131F403BFF4AE
  [ ⟨0, ones ++ [0x00] ++ seed, some k1⟩, ⟨k1, ones, some v1⟩, ⟨k1, bytes32 v1 ++ [0x01] ++ seed, some k2⟩,
    ⟨k2, bytes32 v1, some v2⟩, ⟨k2, bytes32 v2, some 0x8F8A276C19F4149656B280621E358CCE24F5F52542772691EE69063B74F15D15⟩ ]

/-- NG-1's state after NINIT. -/
def ngReadyState : State :=
  { State.reset with hmac := ngTable, ngReady := true, ngFirst := true, ngK := 0xF457C01688026EE0B9236E5C7FF1478007AD0B697855F592EFA9468ECF0C1F86, ngV := 0xA196437A8F26FBC9E519E4FD4B5D10D62E6A5306C98CA431B96131F403BFF4AE }

/-- NG-1: NINIT w1, w2 -/
theorem test_ninit_ng1 : after { start [(1, 1), (2, hSatoshi)] [] with hmac := ngTable } 0x60001200
    (fun t => decide (t.ngK = ngReadyState.ngK ∧ t.ngV = ngReadyState.ngV ∧ t.ngReady = true ∧ t.ngFirst = true)) = true := by
  decide +kernel

/-- NG-8: NINIT with d = 0 -/
theorem test_ninit_ng8 : after (start [(1, 0), (2, 5)] []) 0x60001200
    (fun t => decide ((errBits t.errcode).toNat = 7 ∧ t.ngReady = false)) = true := by decide +kernel

/-- NG-1: NGEN w4 -/
theorem test_ngen_ng1 : after ngReadyState 0x61040000
    (fun t => decide (getW t 4 = 0x8F8A276C19F4149656B280621E358CCE24F5F52542772691EE69063B74F15D15 ∧ t.ngFirst = false)) = true := by
  decide +kernel

/-- NG-10: NGEN without NINIT -/
theorem test_ngen_ng10 : after (start [] []) 0x61040000 (fun t => decide ((errBits t.errcode).toNat = 8)) = true := by
  decide +kernel

/-! ### The register window (table BUS) and errors (table ERR) -/

theorem test_bus_read_id : afterEvent State.reset (.read (fullWord 0x000)) (fun t => decide (t.resp = some (.data 0x5EC10007))) = true := by
  decide +kernel

/-- BUS-4, words 0 and 7. -/
theorem test_bus_word_order : afterEvent (start [(0, vGX)] []) (.read (fullWord 0x100)) (fun t => decide (t.resp = some (.data 0x79BE667E))) = true ∧
    afterEvent (start [(0, vGX)] []) (.read (fullWord 0x11C)) (fun t => decide (t.resp = some (.data 0x16F81798))) = true := by
  decide +kernel

/-- BUS-5. -/
theorem test_bus_write_last_word : afterEvent State.reset (.write (fullWord 0x2FC) 0xFFFFFFFF) (fun t => decide (getW t 15 = 0xFFFFFFFF)) = true := by
  decide +kernel

/-- BUS-7: Z word 7 of P0. -/
theorem test_bus_point_z : afterEvent (start [] [(0, ⟨vGX, vGY, 1⟩)]) (.read (fullWord 0x45C)) (fun t => decide (t.resp = some (.data 1))) = true := by
  decide +kernel

/-- BUS-8 to BUS-11. -/
theorem test_bus_errors : ([fullWord 0x460, fullWord 0x020, fullWord 0x300, fullWord 0x800, fullWord 0xFFC, fullWord 0x102,
    ⟨0x100, 1, 0x1⟩, ⟨0x100, 2, 0x3⟩] : List BusAccess).all (fun a => match busRead a State.reset with | .error _ => true | _ => false) = true := by
  decide +kernel

/-- BUS-14. -/
theorem test_bus_ctrl : afterEvent State.reset (.write (fullWord 0x004) 0xFFFFFFFD) (fun t => decide (t.ie = true ∧ readReg t .ctrl = 1)) = true := by
  decide +kernel

/-- BUS-16. -/
theorem test_bus_status_clear :
    afterEvent { State.reset with done := true, err := true, errcode := .invalidFieldElement } (.write (fullWord 0x008) 4)
      (fun t => decide (t.err = false ∧ t.errcode = .noError ∧ t.done = true)) = true := by
  decide +kernel

/-- ERR-1. -/
theorem test_err_illegal : after State.reset 0x70000000 (fun t => decide (statusWord t = 0x00010006 ∧ t.errcmd = 0x70000000 ∧
    t.cmdcnt = 1 ∧ t.lastcmd = 0x70000000)) = true := by decide +kernel

/-- ERR-6: a busy write is dropped. -/
theorem test_err_busy : afterEvent (issue 0x51001000 State.reset) (.write (fullWord 0x100) 5)
    (fun t => decide (getW t 0 = 0 ∧ statusWord t = 0x00090005 ∧ t.errcmd = 0x100)) = true := by decide +kernel

/-- ERR-7: a busy command is dropped. -/
theorem test_err_overrun : afterEvent (issue 0x51001000 State.reset) (.write (fullWord 0x010) 0x61000000)
    (fun t => decide ((errBits t.errcode).toNat = 10 ∧ t.errcmd = 0x61000000 ∧ t.lastcmd = 0x51001000)) = true := by decide +kernel

/-- ERR-8: a soft reset while busy. -/
theorem test_err_soft_reset : afterEvent (issue 0x51001000 { State.reset with cmdcnt := 7, ie := true }) (.write (fullWord 0x004) 3)
    (fun t => decide (t = { State.reset with resp := some .ack })) = true := by decide +kernel


/-! ### Witnesses: for each statement with hypotheses, a state and operands that meet them -/

/-- A command in flight. -/
def flight (c : Bus) (s : State) : State := { s with pending := some c, lastcmd := c }

/-- W1 = a and W2 = b. -/
def pair (a b : Word) : State := start [(1, a), (2, b)] []

/-- A triple that fails `valid` (PT-98). -/
def badPoint : Triple := ⟨1, 2, 1⟩

theorem badPoint_not_valid : ¬ Valid badPoint := fun h => absurd ((validTriple_iff _).2 h) (by decide +kernel)

theorem v2G_valid : Valid v2G := (validTriple_iff _).1 (by decide +kernel)

theorem witness_DecodeEncodeRoundTrip : (Instr.ninit true 15 15 15).wellFormed = true ∧ (Instr.ninit false 0 15 15).wellFormed = true := by
  decide

theorem witness_OneWordPerCommand : decode 0x53077777 = .error .immediate ∧ decode 0x5307FF07 = .ok (.pmul2 7 15 15 7) := by
  decide +kernel

theorem witness_LegalWordsAreTheOpcodeTable : LegalWord 0x0200000B ∧ LegalWord 0x50000004 ∧ LegalWord 0x600F1201 ∧
    ¬ LegalWord 0x0200000C ∧ ¬ LegalWord 0x50000005 ∧ ¬ LegalWord 0x600F1200 ∧
    (flight 0x600F1200 State.reset).pending = some 0x600F1200 := by
  unfold LegalWord ExtraLegal
  exact ⟨by decide +kernel, by decide +kernel, by decide +kernel, by decide +kernel, by decide +kernel, by decide +kernel, rfl⟩

/-- The first and last opcode of each unassigned range, and one reserved bit. -/
theorem witness_UnassignedAndReservedIllegal : ([0x04000000, 0x0E000000, 0x16000000, 0x1F000000, 0x26000000, 0x2F000000,
    0x32000000, 0x3F000000, 0x4B000000, 0x4F000000, 0x54000000, 0x5F000000, 0x62000000, 0xFF000000, 0x00100000] : List Bus).all
    (fun c => decide ((let o := (c.extractLsb' 24 8).toNat
      (0x04 ≤ o ∧ o ≤ 0x0E) ∨ (0x16 ≤ o ∧ o ≤ 0x1F) ∨ (0x26 ≤ o ∧ o ≤ 0x2F) ∨ (0x32 ≤ o ∧ o ≤ 0x3F) ∨
        (0x4B ≤ o ∧ o ≤ 0x4F) ∨ (0x54 ≤ o ∧ o ≤ 0x5F) ∨ (0x62 ≤ o ∧ o ≤ 0xFF)) ∨
      c.extractLsb' 20 3 ≠ 0) && decide ((flight c State.reset).pending = some c)) = true := by
  decide +kernel

theorem witness_EncodingExamples : (flight 0x70000000 State.reset).pending = some 0x70000000 := rfl

/-- LOWS at HALF_N, HALF_N + 1 and N - 1. -/
theorem witness_PseudoExpansions : (2 : WReg) ≠ 1 ∧
    (getW (pair 0x7FFFFFFFFFFFFFFFFFFFFFFFFFFFFFFF5D576E7357A4501DDFE92F46681B20A0 0) 1).toNat < orderN ∧
    (getW (pair 0x7FFFFFFFFFFFFFFFFFFFFFFFFFFFFFFF5D576E7357A4501DDFE92F46681B20A1 0) 1).toNat < orderN ∧
    (getW (pair (vN - 1) 0) 1).toNat < orderN := by decide +kernel

theorem witness_StepRunsDecodedCommand : (flight 0x01021000 State.reset).pending = some 0x01021000 ∧
    decode 0x01021000 = .ok (.mov 2 1) ∧ (flight 0x01021000 State.reset).events = [] ∧ (Instr.mov 2 1).wellFormed = true := by
  decide +kernel

theorem witness_IssueStep : State.reset.pending = none := rfl

theorem witness_CompletionBookkeeping : (flight 0 { State.reset with cmdcnt := 0xFFFFFFFF }).pending = some 0 ∧
    ∃ t, engineTurn (flight 0 { State.reset with cmdcnt := 0xFFFFFFFF }) = .next t := ⟨rfl, _, rfl⟩

/-- An NGEN without NINIT, behind an older error. -/
theorem witness_FailedCommandWritesNothing :
    let s : State := flight 0x61010000 { State.reset with err := true, errcode := .illegalCmd, errcmd := 0x70000000 }
    s.pending = some 0x61010000 ∧ ∃ t, engineTurn { s with err := false } = .next t ∧ t.err = true := by
  intro s
  refine ⟨rfl, complete (recordError .nonceState 0x61010000 { s with err := false }), ?_, rfl⟩
  rw [engineTurn_eq, engineStep_ok (c := 0x61010000) (i := .ngen 1) rfl (by decide +kernel)]
  rfl

/-- An error kept (a NOP completes), and one cleared by STATUS. -/
theorem witness_FirstErrorIsKept :
    let s : State := { State.reset with err := true, errcode := .nonceState, errcmd := 0x61010000 }
    s.err = true ∧ (∃ t, step (flight 0 s) = .next t) ∧ (∃ t, step { s with events := [.write (fullWord 0x008) 4] } = .next t) ∧
      ∃ t, step { s with events := [.hardReset] } = .next t := ⟨rfl, ⟨_, rfl⟩, ⟨_, rfl⟩, _, rfl⟩

theorem witness_ErrorCodesByCommand : (Instr.ngen 1).wellFormed = true ∧
    ∃ t, exec (.ngen 1) State.reset = .next t ∧ State.reset.err = false ∧ t.err = true := ⟨rfl, _, rfl, rfl, rfl⟩

theorem witness_CommandFrame : ∃ t, exec (.mov 2 1) (pair 5 6) = .next t := ⟨_, rfl⟩

theorem witness_OperandsStandStillWhileBusy : let s := flight 0x51001000 State.reset
    s.pending = some 0x51001000 ∧ (∃ t, readTurn (fullWord 0x008) s = .next t) ∧
      ∃ t, writeTurn (fullWord 0x100) 5 s = .next t ∧ ¬ ((fullWord 0x100).off = 0x004 ∧ (5 : Bus).getLsbD 1 = true) :=
  ⟨rfl, ⟨_, rfl⟩, _, rfl, by decide⟩

/-- A completion, and a command abandoned by a reset. -/
theorem witness_DoneProvesCompletion : let s := flight 0 State.reset
    (∃ t, step s = .next t ∧ s.done = false ∧ t.done = true ∧ s.pending ≠ none ∧ t.pending = none) ∧
      ∃ t, step { s with events := [.hardReset] } = .next t ∧ s.pending ≠ none ∧ t.pending = none :=
  ⟨⟨_, rfl, rfl, rfl, by decide, rfl⟩, _, rfl, by decide, rfl⟩

/-- A busy state with an error, a table and a nonce state. -/
theorem witness_InvariantKept : let s : State := { setTable .w4 (flight 0x61040000 State.reset) with
      err := true, errcode := .busyViolation, errcmd := 0x100, ngReady := true, ngFirst := true, ngK := 1, ngV := 2
      ngWork := some (1, 2), events := [.read (fullWord 0x008)] }
    Inv s ∧ ∃ t, step s = .next t := by
  refine ⟨⟨by decide, by decide, by decide, by decide +kernel, by decide, fun c h => ⟨rfl, by cases h; rfl⟩, fun _ => ⟨rfl, 4, rfl⟩⟩, _, rfl⟩

/-- A misaligned read and a read of slot padding. -/
theorem witness_StopsOnlyAtBusErrors : (∃ f, step { State.reset with events := [.read (fullWord 0x102)] } = .fault f) ∧
    ∃ f, step { State.reset with events := [.read (fullWord 0x460)] } = .fault f := ⟨⟨_, rfl⟩, _, rfl⟩

theorem witness_NothingDependsOnTheTable : SameButTable State.reset (setTable .w8 State.reset) ∧ (0x100 : BitVec 12) ≠ 0x008 ∧
    ∃ v, Reads 0x100 State.reset v := ⟨rfl, by decide, _, rfl⟩

theorem witness_NonceStateIsSecret :
    SameButNonce { ngReadyState with pending := some 0x01021000 } { ngReadyState with pending := some 0x01021000, ngK := 1, ngV := 2 } ∧
    ∀ wk, ({ ngReadyState with pending := some 0x01021000 } : State).pending ≠ some (cmdWord 0x61 0 (wField wk) 0 0 0) := by
  refine ⟨rfl, ?_⟩
  show ∀ wk : WReg, some (0x01021000 : Bus) ≠ some (cmdWord 0x61 0 (wField wk) 0 0 0)
  decide +kernel

/-- The first and last offsets of each listed and unlisted range, and each wrong shape. -/
theorem witness_BusErrors :
    ([0x000, 0x01C, 0x100, 0x2FC, 0x400, 0x45C, 0x780, 0x7DC] : List (BitVec 12)).all (fun o => decide ((fullWord o).size = 4 ∧
      (fullWord o).strobe = 0xF ∧ o.toNat % 4 = 0 ∧ (o.toNat < 0x020 ∨ (0x100 ≤ o.toNat ∧ o.toNat < 0x300) ∨
        (0x400 ≤ o.toNat ∧ o.toNat < 0x800 ∧ o.toNat % 128 < 96)))) = true ∧
    ([0x020, 0x0FC, 0x300, 0x3FC, 0x460, 0x47C, 0x7E0, 0x800, 0xFFC] : List (BitVec 12)).all (fun o => decide (o.toNat % 4 = 0 ∧
      ¬ (o.toNat < 0x020 ∨ (0x100 ≤ o.toNat ∧ o.toNat < 0x300) ∨
        (0x400 ≤ o.toNat ∧ o.toNat < 0x800 ∧ o.toNat % 128 < 96)))) = true ∧
    (⟨0x100, 2, 0x3⟩ : BusAccess).size ≠ 4 ∧ (fullWord 0x102).off.toNat % 4 ≠ 0 ∧ (⟨0x100, 4, 0x7⟩ : BusAccess).strobe ≠ 0xF := by
  decide +kernel

theorem witness_ControlRegisterWrites : (0xFFFFFFFD : Bus).getLsbD 1 = false := by decide

theorem witness_RegisterWindows : State.reset.pending = none ∧ wordOff 15 7 = 0x2FC ∧ pointOff 7 2 7 = 0x7DC := by decide

theorem witness_BusyDiscipline : (flight 0x51001000 State.reset).pending = some 0x51001000 := rfl

theorem witness_ReadsHaveNoSideEffect : ∃ t, readTurn (fullWord 0x7DC) State.reset = .next t := ⟨_, rfl⟩

theorem witness_ResetLeavesResetValues : (0x00000003 : Bus).getLsbD 1 = true := by decide

theorem witness_InterruptLine : (∃ t, Writes 0x008 6 { State.reset with ie := true, done := true, err := true } t) ∧
    (6 : Bus).getLsbD 1 = true ∧ (6 : Bus).getLsbD 2 = true ∧ (∃ t, Writes 0x004 0 { State.reset with ie := true, done := true } t) ∧
    (0 : Bus).getLsbD 0 = false ∧ (∃ t, Writes 0x010 0 { State.reset with ie := true, done := true } t) ∧
    ∃ t, resetTurn { State.reset with ie := true, done := true } = .next t :=
  ⟨⟨writeStatus 6 _, rfl⟩, by decide, by decide, ⟨writeCtrl 0 _, rfl⟩, by decide, ⟨writeCmd 0 _, rfl⟩, _, rfl⟩

/-- The hypotheses of `Performs` and `OtherWordsIllegal` (in every CommandWords clause): an unlisted word of an opcode. -/
theorem witness_CommandWords : ((0x00000001 : Bus).extractLsb' 24 8 = 0x00 ∧ ¬ ∃ _ : Unit, (0x00000001 : Bus) = 0x00000000) ∧
    (flight 0x00000001 State.reset).pending = some 0x00000001 := by
  refine ⟨⟨by decide, ?_⟩, rfl⟩
  rintro ⟨_, h⟩
  exact absurd h (by decide)

theorem witness_LdcResult : romEntries[(0 : Fin 12).val]? = some 0 ∧ romEntries[(11 : Fin 12).val]? =
    some 0x9D671CD581C69BC5E697F5E45BCD07C6741496C20E7CF878896CF21467D7D140 := by decide +kernel

/-- Both operands at m - 1, then one at m, for both moduli (MADD, MSUB, MNEG, MCNEG, MONTMUL, TOMONT, FROMMONT, MMUL, MSQR, MPOW,
MINV, MSQRT). -/
theorem witness_canonical_operands :
    (getW (pair (vP - 1) (vP - 1)) 1).toNat < modulus .p ∧ (getW (pair (vP - 1) (vP - 1)) 2).toNat < modulus .p ∧
    (getW (pair (vN - 1) (vN - 1)) 1).toNat < modulus .n ∧ (getW (pair (vN - 1) (vN - 1)) 2).toNat < modulus .n ∧
    modulus .p ≤ (getW (pair vP 0) 1).toNat ∧ modulus .p ≤ (getW (pair 0 vP) 2).toNat ∧
    modulus .n ≤ (getW (pair vN 0) 1).toNat ∧ modulus .n ≤ (getW (pair 0 vN) 2).toNat := by decide +kernel

theorem witness_MinvResult : (getW (pair (vP - 1) 0) 1).toNat ≠ 0 ∧ (getW (pair 0 0) 1).toNat = 0 := by decide +kernel

/-- A residue (4) and a non-residue (5) modulo P (INV-75, INV-78). -/
theorem witness_MsqrtResult :
    (let r := powMod fieldP 4 ((fieldP + 1) / 4); r * r % fieldP = 4) ∧ (let r := powMod fieldP 5 ((fieldP + 1) / 4); r * r % fieldP ≠ 5) ∧
    (getW (pair 4 5) 1).toNat = 4 ∧ (getW (pair 4 5) 2).toNat = 5 ∧ ∃ y, y * y % fieldP = (getW (pair 4 5) 1).toNat :=
  ⟨by decide +kernel, by decide +kernel, by decide +kernel, by decide +kernel, 2, by decide +kernel⟩

/-- The generator is on the curve; its neighbour and x at P are not taken. -/
theorem witness_PldaResult :
    (vGX.toNat < fieldP ∧ vGY.toNat < fieldP ∧ vGY.toNat ^ 2 % fieldP = (vGX.toNat ^ 3 + 7) % fieldP) ∧
    (vGY + 1).toNat ^ 2 % fieldP ≠ (vGX.toNat ^ 3 + 7) % fieldP ∧ fieldP ≤ vP.toNat := by decide +kernel

/-- x = GX lifts (its c is GY squared), x = 5 does not, x = 0 is in range, x = P is out of it (PT-91, PT-94, PT-95). -/
theorem witness_PliftResult :
    (let c := (vGX.toNat ^ 3 + 7) % fieldP; let r := powMod fieldP c ((fieldP + 1) / 4); r * r % fieldP = c) ∧
    (let c := (5 ^ 3 + 7) % fieldP; let r := powMod fieldP c ((fieldP + 1) / 4); r * r % fieldP ≠ c) ∧ fieldP ≤ vP.toNat ∧
    vGY.toNat * vGY.toNat % fieldP = (vGX.toNat ^ 3 + 7) % fieldP ∧ (getW State.reset 0).toNat = 0 := by
  decide +kernel

/-- Valid finite and identity triples, and one that is not valid (PNEG, PADD, PDBL, PEQ, PTST, PAFF, PMUL, PMUL2). -/
theorem witness_point_operands : let s := start [] [(0, genPoint), (1, v2G), (2, badPoint), (3, ⟨7, 7, 0⟩)]
    (Valid (getP s 0) ∧ (getP s 0).z ≠ 0) ∧ (Valid (getP s 1) ∧ (getP s 1).z ≠ 0) ∧ ¬ Valid (getP s 2) ∧
      Valid (getP s 3) ∧ (getP s 3).z = 0 := by
  intro s
  have h0 : getP s 0 = genPoint := by decide +kernel
  have h1 : getP s 1 = v2G := by decide +kernel
  have h2 : getP s 2 = badPoint := by decide +kernel
  have h3 : getP s 3 = ⟨7, 7, 0⟩ := by decide +kernel
  rw [h0, h1, h2, h3]
  exact ⟨⟨valid_gen, by decide⟩, ⟨v2G_valid, by decide +kernel⟩, badPoint_not_valid, .inl rfl, rfl⟩

theorem witness_GroupLaw : Nat.Prime fieldP ∧ Valid genPoint ∧ Valid v2G ∧ genPoint.z ≠ 0 ∧ Valid idPoint :=
  ⟨fieldP_prime, valid_gen, v2G_valid, by decide, valid_id⟩

/-- Scalars 0, N - 1 and N, and the elements G and 2G denote (PMULG, PMUL, PMUL2, PmulIdentityExactly, WindowMethodAgrees). -/
theorem witness_scalar_operands : Nat.Prime fieldP ∧ (getW (pair (vN - 1) vN) 1).toNat < orderN ∧
    orderN ≤ (getW (pair (vN - 1) vN) 2).toNat ∧ (getW (pair 0 0) 1).toNat < orderN ∧ TblWidth.w8 ≠ .none ∧
    ∀ [Fact (Nat.Prime fieldP)], (∃ G : Pt, Denotes genPoint G) ∧ Valid v2G ∧ ∃ Q : Pt, Denotes v2G Q :=
  ⟨fieldP_prime, by decide +kernel, by decide +kernel, by decide +kernel, by decide, exists_denotes valid_gen, v2G_valid,
    exists_denotes v2G_valid⟩

/-- Keys 1 and N - 1 are in range, 0 and N are not; the four calls of NG-1 are answered, or the first never is. -/
theorem witness_NinitResult :
    let s : State := { pair 1 hSatoshi with hmac := ngTable }
    let seed := seedOf (getW s 1) (getW s 2) none
    let ones := List.replicate 32 (0x01 : Byte)
    (1 ≤ (getW s 1).toNat ∧ (getW s 1).toNat < orderN) ∧ (vN - 1).toNat < orderN ∧ orderN ≤ vN.toNat ∧
    (∃ k1 v1 k2 v2, hmacAnswer s 0 (ones ++ [0x00] ++ seed) = some k1 ∧ hmacAnswer s k1 ones = some v1 ∧
      hmacAnswer s k1 (bytes32 v1 ++ [0x01] ++ seed) = some k2 ∧ hmacAnswer s k2 (bytes32 v1) = some v2) ∧
    hmacAnswer { s with hmac := [⟨0, ones ++ [0x00] ++ seed, none⟩] } 0 (ones ++ [0x00] ++ seed) = none := by
  refine ⟨by decide +kernel, by decide +kernel, by decide +kernel, ⟨_, _, _, _, rfl, rfl, rfl, rfl⟩, by decide +kernel⟩

/-- A state whose HMAC service answers the candidate N first, then 1. -/
def refusingState : State :=
  { State.reset with
    ngReady := true, ngFirst := true, ngK := 1, ngV := 2
    hmac := [⟨1, bytes32 2, some vN⟩, ⟨1, bytes32 vN ++ [0x00], some 3⟩, ⟨3, bytes32 vN, some 4⟩, ⟨3, bytes32 4, some 1⟩,
      ⟨5, bytes32 6, none⟩] }

/-- A candidate refused, one accepted, a call without an answer, and NGEN without NINIT. -/
theorem witness_NgenTurn : let s := refusingState
    State.reset.ngReady = false ∧ s.ngReady = true ∧ s.ngWork = none ∧ LoopStart s 1 2 ∧
    (hmacAnswer s 1 (bytes32 2) = some vN ∧ ¬ InRange vN ∧ hmacAnswer s 1 (bytes32 vN ++ [0x00]) = some 3 ∧
      hmacAnswer s 3 (bytes32 vN) = some 4) ∧
    (hmacAnswer s 3 (bytes32 4) = some 1 ∧ InRange 1) ∧ InRange (vN - 1) ∧ ¬ InRange 0 ∧ hmacAnswer s 5 (bytes32 6) = none := by
  unfold InRange
  exact ⟨rfl, rfl, rfl, .inl ⟨rfl, rfl, rfl⟩, by decide +kernel, by decide +kernel, by decide +kernel, by decide +kernel,
    by decide +kernel⟩

/-- Each call at which NGEN may wait: K's and V's update at the start, K's and V's after the refused candidate N. -/
theorem witness_NgenTurn_waits : let s := refusingState
    let t : State := { s with ngFirst := false }
    (t.ngReady = true ∧ t.ngWork = none ∧ t.ngFirst = false ∧
      UpdateUnanswered { t with hmac := [⟨1, bytes32 2 ++ [0x00], none⟩] } 1 2 ∧
      UpdateUnanswered { t with hmac := [⟨1, bytes32 2 ++ [0x00], some 3⟩, ⟨3, bytes32 2, none⟩] } 1 2) ∧
    (hmacAnswer { s with hmac := [⟨1, bytes32 2, some vN⟩, ⟨1, bytes32 vN ++ [0x00], none⟩] } 1 (bytes32 2) = some vN ∧
      ¬ InRange vN ∧ UpdateUnanswered { s with hmac := [⟨1, bytes32 2, some vN⟩, ⟨1, bytes32 vN ++ [0x00], none⟩] } 1 vN ∧
      UpdateUnanswered { s with hmac := [⟨1, bytes32 vN ++ [0x00], some 3⟩, ⟨3, bytes32 vN, none⟩] } 1 vN) := by
  refine ⟨⟨rfl, rfl, rfl, .inl ?_, .inr ⟨3, ?_, ?_⟩⟩, ?_, ?_, .inl ?_, .inr ⟨3, ?_, ?_⟩⟩
  all_goals first | (unfold InRange; decide +kernel) | decide +kernel

/-- Two engine turns: one candidate refused, the second taken. -/
theorem witness_NgenReturnsFirstCandidateInRange :
    let s : State := { refusingState with pending := some (cmdWord 0x61 0 (wField 4) 0 0 0) }
    s.events = [] ∧ s.ngReady = true ∧ s.ngWork = none ∧ LoopStart s 1 2 ∧ Candidate (hmacAnswer s) 1 1 2 3 1 := by
  refine ⟨rfl, rfl, rfl, .inl ⟨rfl, rfl, rfl⟩, .refuse (k := vN) (K' := 3) (V' := 4) ?_ ?_ ?_ ?_ (.accept ?_ ?_)⟩
  all_goals first | (unfold InRange; decide +kernel) | decide +kernel

end Sys2Proof.Tests
end

section
/-! SUPPORT. The register window (spec/20_memory.md R64 to R66): what the control and status registers read, and the words of the
word registers. -/

namespace Sys2Proof.Machine

open Sys2Proof.Spec

/-- While no command is in flight the store of a W or P word takes place (R69). -/
theorem writeData_idle {s : State} (off : BitVec 12) (store : State → State) (h : s.pending = none) :
    writeData off store s = store s := by
  simp [writeData, busy, h]

/-- While no command is in flight a write of word j of W[i] is `setLane` on that register (R66). -/
theorem writeReg_w_idle {s : State} (i : WReg) (j : Fin 8) (x : Bus) (h : s.pending = none) :
    writeReg (.w i j) x s = writeW i (setLane (getW s i) j x) s := by
  simp only [writeReg, writeData_idle _ _ h, writeW_eq]

/-- Settles O24: the offset selects word j of W[i], which reads as `laneOf` and is written by `setLane`. -/
theorem wordRegisterWindow : Obligations.WordRegisterWindow := by
  intro i j x s
  have hreg : regAt (wordOff i j) = some (.w i j) := regAt_wordOff i j
  refine ⟨⟨laneOf (getW s i) j, reads_reg s hreg, laneOf_getLsbD _ j⟩, fun hidle => ?_⟩
  refine ⟨setLane (getW s i) j x, laneWritten_setLane _ j x, ?_⟩
  rw [← writeReg_w_idle i j x hidle]
  exact writes_reg x s hreg

/-- Settles O22: each offset selects its register, and `status_bits` takes the word STATUS reads apart. -/
theorem controlRegisterReads : Obligations.ControlRegisterReads := by
  intro s
  have reads (r : Reg) : Reads (regOffset r) s (readReg s r) := reads_reg s (regAt_regOffset r)
  have hstatus := status_bits (busy s) s.done s.err s.tblValid s.ngReady s.errcode s.tblW
  exact ⟨reads .id, reads .ctrl, ⟨statusWord s, reads .status, hstatus⟩,
    reads .flags, reads .cmd, reads .cmdcnt, reads .lastcmd, reads .errcmd⟩

end Sys2Proof.Machine
end

section
/-! SUPPORT. The encoding's illegal words and examples, and the pseudo-instruction LOWS (spec/30_encoding.md R106, R107, R112, R113). -/

namespace Sys2Proof.Machine

open Sys2Proof.Spec

/-! ### Illegal words -/

/-- A word in flight that the decoder rejects completes with ILLEGAL_CMD and no other effect (R106). -/
theorem engineTurn_of_decode_error {s : State} {c : Bus} {e : Reject} (hp : s.pending = some c)
    (hd : decode c = .error e) : engineTurn s = .next (failed .illegalCmd c s) :=
  engineStep_error hp hd

/-- The seven unassigned opcode ranges of R107. -/
def UnassignedOpcode (o : Nat) : Prop :=
  (0x04 ≤ o ∧ o ≤ 0x0E) ∨ (0x16 ≤ o ∧ o ≤ 0x1F) ∨ (0x26 ≤ o ∧ o ≤ 0x2F) ∨ (0x32 ≤ o ∧ o ≤ 0x3F) ∨
    (0x4B ≤ o ∧ o ≤ 0x4F) ∨ (0x54 ≤ o ∧ o ≤ 0x5F) ∨ (0x62 ≤ o ∧ o ≤ 0xFF)

/-- The opcode map leaves out exactly the ranges of R107. -/
theorem rowOf_eq_none_iff (o : BitVec 8) : rowOf o = none ↔ UnassignedOpcode o.toNat := by
  unfold UnassignedOpcode
  revert o
  decide

/-- A word whose opcode has no row fails R106's item 1. -/
theorem decode_of_rowOf_none {c : Bus} (h : rowOf (Fields.split c).opc = none) :
    decode c = .error .unassignedOpcode := by
  simp [decode, decodeFields, h]

theorem decode_unassigned {c : Bus} (h : UnassignedOpcode (c.extractLsb' 24 8).toNat) :
    decode c = .error .unassignedOpcode :=
  decode_of_rowOf_none ((rowOf_eq_none_iff _).2 h)

/-- A set RSV bit fails R106's item 2 for every row of the opcode map. -/
theorem rowReject_reserved (r : Row) {f : Fields} (h : f.rsv ≠ 0) : rowReject r f = some .reservedBits := if_pos h

theorem decode_reserved {c : Bus} (h : c.extractLsb' 20 3 ≠ 0) : ∃ e, decode c = .error e := by
  have hrej (r : Row) : rowReject r (Fields.split c) = some .reservedBits := rowReject_reserved r h
  cases hrow : rowOf (Fields.split c).opc with
  | none => exact ⟨_, decode_of_rowOf_none hrow⟩
  | some r => exact ⟨.reservedBits, by simp [decode, decodeFields, hrow, hrej r]⟩

/-- Settles O4: the decoder rejects a word of an unassigned opcode and a word with a reserved bit set. -/
theorem unassignedAndReservedIllegal : Obligations.UnassignedAndReservedIllegal := by
  rintro c s hp (hopc | hrsv)
  · exact engineTurn_of_decode_error hp (decode_unassigned hopc)
  · obtain ⟨e, he⟩ := decode_reserved hrsv
    exact engineTurn_of_decode_error hp he

/-! ### LOWS, command by command (R112) -/

/-- HALF_N = (N - 1)/2, entry 7 of the constant ROM (R28). -/
def halfN : Word := BitVec.ofNat 256 ((orderN - 1) / 2)

theorem halfN_toNat : halfN.toNat = (orderN - 1) / 2 := by decide

theorem halfN_parity : halfN.parity = false := by decide

theorem readConst_halfN : readConst 7 = .ok halfN := by decide

/-- LDC with a legal index writes the constant (R132). -/
theorem exec_ldc_ok {idx : BitVec 8} {v : Word} (h : readConst idx = .ok v) (rd : WReg) (s : State) :
    exec (.ldc rd idx) s = .next (complete (setW s rd v)) :=
  (commit_bind_ok h).trans (commit_ok ..)

/-- CMP compares any two words (R133). -/
theorem exec_cmp (ra rb : WReg) (s : State) :
    exec (.cmp ra rb) s = .next (complete (setCmpFlags s (getW s ra) (getW s rb))) := rfl

/-- MCNEG of a canonical operand (R153). -/
theorem exec_mcneg_ok {m : Modulus} {ra : WReg} {s : State} (h : (getW s ra).toNat < modulus m) (rd : WReg) (f : Flag)
    (inv : Bool) : exec (.mcneg m rd ra f inv) s = .next (complete (setW s rd
      (if (flagOf s f ^^ inv) then BitVec.ofNat 256 ((modulus m - (getW s ra).toNat) % modulus m) else getW s ra))) := by
  rw [← residue_neg m h]
  exact (commit_bind_ok (readCanon_ok h)).trans (commit_ok ..)

/-- A command that answers a next state hands it to the commands after it (R352). -/
theorem inSequence_cons {i : Instr} {s t : State} (h : exec i s = .next t) (rest : List Instr) :
    inSequence (i :: rest) s = inSequence rest t := by
  simp only [inSequence, h]

/-- What MCNEG.N writes when LT says whether HALF_N < a: the smaller of a and its negation (R112). -/
theorem lows_value {a : Word} (h : a.toNat < orderN) :
    (if (decide ((orderN - 1) / 2 < a.toNat) ^^ false) then BitVec.ofNat 256 ((orderN - a.toNat) % orderN) else a) =
      if a.toNat ≤ (orderN - 1) / 2 then a else BitVec.ofNat 256 (orderN - a.toNat) := by
  by_cases hle : a.toNat ≤ (orderN - 1) / 2
  · rw [if_pos hle, if_neg (by simpa using hle)]
  · rw [if_neg hle, if_pos (by simpa using hle), Nat.mod_eq_of_lt (by omega)]

/-- The state after LDC wt, HALF_N and CMP wt, ws. -/
def lowsCompared (ws wt : WReg) (s : State) : State :=
  complete (setCmpFlags (complete (setW s wt halfN)) halfN (getW s ws))

/-- LOWS compares its operand with HALF_N and then runs MCNEG.N (R112). -/
theorem inSequence_lows {ws wt : WReg} (hne : wt ≠ ws) (wd : WReg) (s : State) :
    inSequence (expandPseudo (.lows wd ws wt)) s = inSequence [.mcneg .n wd ws .lt false] (lowsCompared ws wt s) := by
  have hcmp : exec (.cmp wt ws) (complete (setW s wt halfN)) = .next (lowsCompared ws wt s) := by
    rw [exec_cmp, getW_complete, getW_complete, getW_setW_same, getW_setW_ne s halfN hne.symm, lowsCompared]
  exact (inSequence_cons (exec_ldc_ok readConst_halfN wt s) _).trans (inSequence_cons hcmp _)

/-- The comparison leaves LOWS's operand. -/
theorem getW_lowsCompared {ws wt : WReg} (hne : wt ≠ ws) (s : State) : getW (lowsCompared ws wt s) ws = getW s ws := by
  simp [lowsCompared, getW_setW_ne s halfN hne.symm]

/-- LT, ODD and EQ after the comparison (R133). -/
theorem lowsCompared_flags (ws wt : WReg) (s : State) :
    (lowsCompared ws wt s).lt = decide ((orderN - 1) / 2 < (getW s ws).toNat) ∧ (lowsCompared ws wt s).odd = false ∧
      (lowsCompared ws wt s).eq = decide ((getW s ws).toNat = (orderN - 1) / 2) := by
  have heq : halfN = getW s ws ↔ (getW s ws).toNat = (orderN - 1) / 2 := by
    rw [← halfN_toNat, BitVec.toNat_inj, eq_comm]
  exact ⟨by simp [lowsCompared, halfN_toNat], halfN_parity, by simp [lowsCompared, heq]⟩

/-- Settles O6: the expansions are the table's; LOWS is LDC and CMP (`inSequence_lows`), then MCNEG.N by the LT they leave. -/
theorem pseudoExpansions : Obligations.PseudoExpansions := by
  refine ⟨fun _ => rfl, fun _ => rfl, fun _ _ _ => rfl, fun _ _ _ _ _ => rfl, fun _ _ _ => rfl, fun _ _ _ _ => rfl,
    fun _ _ => rfl, fun wd ws wt s hne hs => ?_⟩
  have hkeep := getW_lowsCompared hne s
  obtain ⟨hlt, hodd, heq⟩ := lowsCompared_flags ws wt s
  have hmcneg := exec_mcneg_ok (m := .n) (s := lowsCompared ws wt s) (ra := ws) (by rw [hkeep]; exact hs) wd .lt false
  refine ⟨_, (inSequence_lows hne wd s).trans (inSequence_cons hmcneg []), ?_, hlt, hodd, heq⟩
  rw [getW_complete, getW_setW_same, hkeep]
  simp only [flagOf, hlt]
  exact lows_value hs

/-! ### The examples (R113) -/

/-- Settles O5: each example word decodes to its command, so it is that command's one word (R106); each illegal word is
rejected by the item of R106 that R113 names. -/
theorem encodingExamples : Obligations.EncodingExamples := by
  refine ⟨fun e he => ?_, fun c hc s hp => ?_⟩
  · have hdec : decode e.1 = .ok e.2.1 := by revert e; decide
    have hasm : asmOf e.2.1 = e.2.2 := by revert e; decide
    exact ⟨hdec, (encode_of_decode hdec).2, hasm⟩
  · simp only [List.mem_cons, List.not_mem_nil, or_false] at hc
    obtain rfl | rfl | rfl | rfl | rfl | rfl := hc
    · exact engineTurn_of_decode_error (e := .reservedBits) hp (by decide)
    · exact engineTurn_of_decode_error (e := .pointRegister) hp (by decide)
    · exact engineTurn_of_decode_error (e := .modulusBit) hp (by decide)
    · exact engineTurn_of_decode_error (e := .immediate) hp (by decide)
    · exact engineTurn_of_decode_error (e := .unassignedOpcode) hp (by decide)
    · exact engineTurn_of_decode_error (e := .extraRegister) hp (by decide)

end Sys2Proof.Machine
end

section
/-! SUPPORT. The sequencer commands NOP, MOV, LDC, CMP and ZEROIZE (spec/40_control.md R130 to R134): their command words, read off
the decoder's row of the opcode, and the state each completes in. -/

namespace Sys2Proof.Machine

open Sys2Proof.Spec

/-! ### The command words of an opcode, from its row of the opcode map (R105) -/

/-- A well-formed command is the one its opcode's row builds from its fields (R105, R106). -/
theorem eq_buildInstr_of_opc {i : Instr} {op : Op} (hwf : i.wellFormed = true)
    (hop : (rowOf (encodeFields i).opc).map Row.op = some op) : i = buildInstr op (encodeFields i) := by
  obtain ⟨row, hrow, -, hi⟩ := decodeFields_ok (decodeFields_encodeFields i hwf)
  rw [hrow] at hop
  cases hop
  exact hi

/-- `commandWords_of` with the opcode's row in place of all commands: it is enough that each well-formed command the row builds is a
listed one. -/
theorem commandWords_of_op {α : Type} {opc : BitVec 8} {op : Op} {word : α → Bus} {cmd : α → Instr}
    (hop : (rowOf opc).map Row.op = some op) (hword : ∀ x, encode (cmd x) = word x)
    (hwf : ∀ x, (cmd x).wellFormed = true)
    (hbuild : ∀ f, (buildInstr op f).wellFormed = true → ∃ x, buildInstr op f = cmd x) : CommandWords opc word cmd := by
  refine commandWords_of hword hwf fun i hi hopc => ?_
  have hieq : i = buildInstr op (encodeFields i) := eq_buildInstr_of_opc hi (hopc ▸ hop)
  rw [hieq]
  exact hbuild _ (hieq ▸ hi)

/-! ### NOP and MOV (R130, R131) -/

/-- NOP only completes (R130). -/
theorem exec_nop (s : State) : exec .nop s = .next (complete s) := rfl

/-- MOV copies any word (R131). -/
theorem exec_mov (rd rs : WReg) (s : State) : exec (.mov rd rs) s = .next (complete (setW s rd (getW s rs))) := rfl

/-- Settles O30: both opcodes' words by `commandWords_of_op`, both commands by their completion. -/
theorem nopMovResults : Obligations.NopMovResults := by
  refine ⟨?nopWords, exec_nop, ?movWords, exec_mov⟩
  case nopWords =>
    exact commandWords_of_op (op := .nop) rfl (fun _ => rfl) (fun _ => rfl) fun _ _ => ⟨(), rfl⟩
  case movWords =>
    exact commandWords_of_op (op := .mov) rfl (fun _ => rfl) (fun _ => rfl) fun _ _ => ⟨(_, _), rfl⟩

/-! ### LDC (R132) -/

/-- The model's constant ROM is the one of R28. -/
theorem constRom_eq_romEntries : constRom = romEntries := rfl

theorem readConst_of_romEntries {idx : BitVec 8} {v : Word} (h : romEntries[idx.toNat]? = some v) :
    readConst idx = .ok v := by
  simp only [readConst, constRom_eq_romEntries, h]

/-- A constant's index is IMM8's value (R104). -/
theorem toNat_constIndex (idx : Fin 12) : (BitVec.ofNat 8 idx.val).toNat = idx.val :=
  (BitVec.toNat_ofNat _ _).trans (Nat.mod_eq_of_lt (by omega))

/-- Settles O31: a legal IMM8 is the index of a constant (R108), and LDC reads that constant. -/
theorem ldcResult : Obligations.LdcResult := by
  refine ⟨commandWords_of_op (op := .ldc) rfl (fun _ => rfl) (fun x => ?legal) (fun f hf => ?listed),
    fun rd idx v s hv => ?result⟩
  case legal =>
    have hlt : (BitVec.ofNat 8 x.2.val).toNat < 12 := by rw [toNat_constIndex]; exact x.2.isLt
    exact decide_eq_true hlt
  case listed =>
    have hlt : f.imm.toNat < 12 := of_decide_eq_true hf
    have himm : BitVec.ofNat 8 f.imm.toNat = f.imm := by simp
    exact ⟨(wregOfBits f.rd, ⟨f.imm.toNat, hlt⟩), congrArg (Instr.ldc _) himm.symm⟩
  case result =>
    rw [← toNat_constIndex] at hv
    exact exec_ldc_ok (readConst_of_romEntries hv) rd s

/-! ### CMP (R133) -/

/-- Settles O32: `setCmpFlags` compares the words as the unsigned integers they stand for. -/
theorem cmpResult : Obligations.CmpResult := by
  refine ⟨commandWords_of_op (op := .cmp) rfl (fun _ => rfl) (fun _ => rfl) fun _ _ => ⟨(_, _), rfl⟩, fun ra rb s => ?_⟩
  rw [exec_cmp, setCmpFlags, parity_eq]
  simp only [← BitVec.toNat_inj, completed_eq]

/-! ### ZEROIZE (R134) -/

@[simp] theorem getW_zeroizeState (s : State) (r : WReg) : getW (zeroizeState s) r = 0 := Vector.getElem_replicate r.isLt

@[simp] theorem getP_zeroizeState (s : State) (r : PReg) : getP (zeroizeState s) r = zeroTriple :=
  Vector.getElem_replicate r.isLt

theorem exec_zeroize (s : State) : exec .zeroize s = .next (complete (zeroizeState s)) := rfl

/-- Settles O33: ZEROIZE completes in `zeroizeState`, which keeps every field the statement does not name. -/
theorem zeroizeResult : Obligations.ZeroizeResult := by
  refine ⟨commandWords_of_op (op := .zeroize) rfl (fun _ => rfl) (fun _ => rfl) fun _ _ => ⟨(), rfl⟩, fun s => ?_⟩
  exact ⟨complete (zeroizeState s), exec_zeroize s, getW_zeroizeState s, getP_zeroizeState s, rfl⟩

end Sys2Proof.Machine
end

section
/-! SUPPORT. The modular commands MADD, MSUB, MNEG, MCNEG, MRED and MREDW (spec/41_modular_add_sub.md R150 to R155): how a command
that checks canonical operands ends, the residues the adder computes, and the six commands. -/

namespace Sys2Proof.Machine

open Sys2Proof.Spec

/-! ### Commands with canonical operands (R103) -/

/-- A command whose canonical operand is not below m ends with OVF(M), whatever follows (R103, R302). -/
theorem commit_canon_error {m : Modulus} {ra : WReg} {s : State} (h : modulus m ≤ (getW s ra).toNat) (i : Instr)
    (f : Word → Except ErrCode State) : commit i s (readCanon s m ra >>= f) = .next (failed (ovf m) (encode i) s) := by
  rw [← overflowCode_eq]
  exact commit_bind_error (readCanon_error h)

/-- A command with two canonical operands goes on with both values. -/
theorem commit_canon_canon_ok {m : Modulus} {ra rb : WReg} {s : State} (ha : (getW s ra).toNat < modulus m)
    (hb : (getW s rb).toNat < modulus m) (i : Instr) (f : Word → Word → Except ErrCode State) :
    commit i s (readCanon s m ra >>= fun a => readCanon s m rb >>= f a) = commit i s (f (getW s ra) (getW s rb)) :=
  (commit_bind_ok (readCanon_ok ha)).trans (commit_bind_ok (readCanon_ok hb))

/-- A command with two canonical operands ends with OVF(M) if either is not below m: the order of the checks does not show. -/
theorem commit_canon_canon_error {m : Modulus} {ra rb : WReg} {s : State}
    (h : modulus m ≤ (getW s ra).toNat ∨ modulus m ≤ (getW s rb).toNat) (i : Instr)
    (f : Word → Word → Except ErrCode State) :
    commit i s (readCanon s m ra >>= fun a => readCanon s m rb >>= f a) = .next (failed (ovf m) (encode i) s) := by
  by_cases ha : modulus m ≤ (getW s ra).toNat
  · exact commit_canon_error ha i _
  · rw [commit_bind_ok (readCanon_ok (Nat.not_le.1 ha))]
    exact commit_canon_error (h.resolve_left ha) i _

/-! ### The residues (R11, R156) -/

/-- The sum's residue (R150). -/
theorem residue_add (m : Nat) (a b : Word) :
    residue m (a.int + b.int) = BitVec.ofNat 256 ((a.toNat + b.toNat) % m) :=
  residue_ofNat m (a.toNat + b.toNat)

/-- The difference's residue, as the sum with the subtrahend's negation (R151). -/
theorem residue_sub {m : Nat} (a : Word) {b : Word} (hb : b.toNat < m) :
    residue m (a.int - b.int) = BitVec.ofNat 256 ((a.toNat + (m - b.toNat)) % m) := by
  have hsum : ((a.toNat + (m - b.toNat) : Nat) : Int) = a.int - b.int + m := by
    simp only [Word.int]
    omega
  rw [← residue_ofNat, hsum]
  exact residue_congr (Int.add_emod_right ..).symm

/-- The residue of a 512-bit value given as two words, high word first (R155). -/
theorem residue_wide (m : Nat) (hi lo : Word) :
    residue m (hi.int * (montR : Int) + lo.int) = BitVec.ofNat 256 ((hi.toNat * 2 ^ 256 + lo.toNat) % m) :=
  residue_ofNat m (hi.toNat * montR + lo.toNat)

/-! ### MADD and MSUB (R150, R151) -/

/-- MADD of canonical operands (R150). -/
theorem exec_madd_ok {m : Modulus} {ra rb : WReg} {s : State} (ha : (getW s ra).toNat < modulus m)
    (hb : (getW s rb).toNat < modulus m) (rd : WReg) : exec (.madd m rd ra rb) s =
      .next (complete (setW s rd (BitVec.ofNat 256 (((getW s ra).toNat + (getW s rb).toNat) % modulus m)))) := by
  rw [← residue_add]
  exact commit_canon_canon_ok ha hb ..

/-- MSUB of canonical operands (R151). -/
theorem exec_msub_ok {m : Modulus} {ra rb : WReg} {s : State} (ha : (getW s ra).toNat < modulus m)
    (hb : (getW s rb).toNat < modulus m) (rd : WReg) : exec (.msub m rd ra rb) s = .next (complete (setW s rd
      (BitVec.ofNat 256 (((getW s ra).toNat + (modulus m - (getW s rb).toNat)) % modulus m)))) := by
  rw [← residue_sub _ hb]
  exact commit_canon_canon_ok ha hb ..

/-- Settles O34: the words by `commandWords_of_op`; canonical operands by `exec_madd_ok` and `exec_msub_ok`, others by the check
both commands begin with. -/
theorem maddMsubResults : Obligations.MaddMsubResults := by
  refine ⟨?maddWords, ?msubWords, fun m rd ra rb s => ⟨fun ha hb => ?canonical, fun hovf => ?overflow⟩⟩
  case maddWords =>
    exact commandWords_of_op (op := .madd) rfl (fun _ => rfl) (fun _ => rfl) fun _ _ => ⟨(_, _, _, _), rfl⟩
  case msubWords =>
    exact commandWords_of_op (op := .msub) rfl (fun _ => rfl) (fun _ => rfl) fun _ _ => ⟨(_, _, _, _), rfl⟩
  case canonical => exact ⟨exec_madd_ok ha hb rd, exec_msub_ok ha hb rd⟩
  case overflow => exact ⟨commit_canon_canon_error hovf .., commit_canon_canon_error hovf ..⟩

/-! ### MNEG and MCNEG (R152, R153) -/

/-- MNEG of a canonical operand (R152). -/
theorem exec_mneg_ok {m : Modulus} {ra : WReg} {s : State} (h : (getW s ra).toNat < modulus m) (rd : WReg) :
    exec (.mneg m rd ra) s =
      .next (complete (setW s rd (BitVec.ofNat 256 ((modulus m - (getW s ra).toNat) % modulus m)))) := by
  rw [← residue_neg m h]
  exact (commit_bind_ok (readCanon_ok h)).trans (commit_ok ..)

/-- The flag MCNEG selects, as the statements read it (R104). -/
theorem flagOf_eq_flagIn (s : State) (f : Flag) : flagOf s f = flagIn s f := by cases f <;> rfl

/-- Settles O35: the words by `commandWords_of_op`; a canonical operand by `exec_mneg_ok` and `exec_mcneg_ok`, another by the check
both commands begin with. -/
theorem mnegMcnegResults : Obligations.MnegMcnegResults := by
  refine ⟨?mnegWords, ?mcnegWords, fun m rd ra f inv s => ⟨fun ha => ?canonical, fun hovf => ?overflow⟩⟩
  case mnegWords =>
    exact commandWords_of_op (op := .mneg) rfl (fun _ => rfl) (fun _ => rfl) fun _ _ => ⟨(_, _, _), rfl⟩
  case mcnegWords =>
    exact commandWords_of_op (op := .mcneg) rfl (fun _ => rfl) (fun _ => rfl) fun _ _ => ⟨(_, _, _, _, _), rfl⟩
  case canonical =>
    rw [← flagOf_eq_flagIn]
    exact ⟨exec_mneg_ok ha rd, exec_mcneg_ok ha rd f inv⟩
  case overflow => exact ⟨commit_canon_error hovf .., commit_canon_error hovf ..⟩

/-! ### MRED and MREDW (R154, R155) -/

/-- MRED reduces any word (R154). -/
theorem exec_mred (m : Modulus) (rd ra : WReg) (s : State) : exec (.mred m rd ra) s =
    .next (complete (setW s rd (BitVec.ofNat 256 ((getW s ra).toNat % modulus m)))) := by
  rw [← residue_ofNat]
  rfl

/-- MREDW reduces any pair of words (R155). -/
theorem exec_mredw (m : Modulus) (rd rhi rlo : WReg) (s : State) : exec (.mredw m rd rhi rlo) s = .next (complete (setW s rd
    (BitVec.ofNat 256 (((getW s rhi).toNat * 2 ^ 256 + (getW s rlo).toNat) % modulus m)))) := by
  rw [← residue_wide]
  rfl

/-- Settles O36: the words by `commandWords_of_op`; neither command checks an operand. -/
theorem mredMredwResults : Obligations.MredMredwResults := by
  refine ⟨?mredWords, ?mredwWords, fun m rd ra rb s => ⟨exec_mred m rd ra s, exec_mredw m rd ra rb s⟩⟩
  case mredWords =>
    exact commandWords_of_op (op := .mred) rfl (fun _ => rfl) (fun _ => rfl) fun _ _ => ⟨(_, _, _), rfl⟩
  case mredwWords =>
    exact commandWords_of_op (op := .mredw) rfl (fun _ => rfl) (fun _ => rfl) fun _ _ => ⟨(_, _, _, _), rfl⟩

end Sys2Proof.Machine
end

section
/-! SUPPORT. The Montgomery multiplier (spec/42_montgomery_multiplier.md R170 to R175): the residues it computes, with R^-1 told by
R·R^-1 = 1 alone (R176), and its six commands. -/

namespace Sys2Proof.Machine

open Sys2Proof.Spec

/-! ### The residues (R11, R170 to R175) -/

/-- The product's residue (R173). -/
theorem residue_mul (m : Nat) (a b : Word) : residue m (a.int * b.int) = BitVec.ofNat 256 (a.toNat * b.toNat % m) :=
  residue_ofNat m (a.toNat * b.toNat)

/-- The residue of a value moved to Montgomery form (R171). -/
theorem residue_mul_montR (m : Nat) (a : Word) :
    residue m (a.int * (montR : Int)) = BitVec.ofNat 256 (a.toNat * 2 ^ 256 % m) :=
  residue_ofNat m (a.toNat * montR)

/-- A residue modulo m fits a word. -/
theorem toNat_ofNat_mod (m : Modulus) (n : Nat) : (BitVec.ofNat 256 (n % modulus m)).toNat = n % modulus m := by
  rw [BitVec.toNat_ofNat, Nat.mod_eq_of_lt ((Nat.mod_lt n (modulus_pos m)).trans_le (modulus_le m))]

/-- Montgomery reduction x·R^-1 mod m is canonical and is told by R times it (R170, R172). -/
theorem residue_montRinv_spec (m : Modulus) (x : Nat) :
    (residue (modulus m) ((x : Int) * (montRinv m : Int))).toNat < modulus m ∧
      (residue (modulus m) ((x : Int) * (montRinv m : Int))).toNat * 2 ^ 256 % modulus m = x % modulus m :=
  ⟨residue_lt (modulus_pos m) (modulus_le m) _, residue_montRinv_mul m x⟩

/-- Montgomery reduction gives back a canonical value that was multiplied by R (R172's corner case). -/
theorem residue_montR_montRinv (m : Modulus) {a : Word} (h : a.toNat < modulus m) :
    residue (modulus m) (Word.int (BitVec.ofNat 256 (a.toNat * 2 ^ 256 % modulus m)) * (montRinv m : Int)) = a := by
  have hcancel : a.toNat * 2 ^ 256 % modulus m * montRinv m % modulus m = a.toNat := by
    calc a.toNat * 2 ^ 256 % modulus m * montRinv m % modulus m
        = a.toNat * (montRinv m * montR) % modulus m := by rw [Nat.mod_mul_mod, mul_assoc, mul_comm (montRinv m), montR]
      _ = a.toNat % modulus m := by rw [Nat.mul_mod, montRinv_mul_montR, mul_one, Nat.mod_mod]
      _ = a.toNat := Nat.mod_eq_of_lt h
  rw [Word.int, toNat_ofNat_mod, ← Int.natCast_mul, residue_ofNat, hcancel, BitVec.ofNat_toNat, BitVec.setWidth_eq]

/-! ### MONTMUL, TOMONT and FROMMONT (R170 to R172) -/

/-- MONTMUL of canonical operands (R170). -/
theorem exec_montmul_ok {m : Modulus} {ra rb : WReg} {s : State} (ha : (getW s ra).toNat < modulus m)
    (hb : (getW s rb).toNat < modulus m) (rd : WReg) : exec (.montmul m rd ra rb) s = .next (complete (setW s rd
      (residue (modulus m) ((getW s ra).int * (getW s rb).int * (montRinv m : Int))))) :=
  commit_canon_canon_ok ha hb ..

/-- TOMONT of a canonical operand (R171). -/
theorem exec_tomont_ok {m : Modulus} {ra : WReg} {s : State} (ha : (getW s ra).toNat < modulus m) (rd : WReg) :
    exec (.tomont m rd ra) s =
      .next (complete (setW s rd (BitVec.ofNat 256 ((getW s ra).toNat * 2 ^ 256 % modulus m)))) := by
  rw [← residue_mul_montR]
  exact commit_bind_ok (readCanon_ok ha)

/-- FROMMONT of a canonical operand (R172). -/
theorem exec_frommont_ok {m : Modulus} {ra : WReg} {s : State} (ha : (getW s ra).toNat < modulus m) (rd : WReg) :
    exec (.frommont m rd ra) s =
      .next (complete (setW s rd (residue (modulus m) ((getW s ra).int * (montRinv m : Int))))) :=
  commit_bind_ok (readCanon_ok ha)

/-- FROMMONT after TOMONT leaves the canonical operand in RD (R172). -/
theorem inSequence_tomont_frommont {m : Modulus} {ra : WReg} {s : State} (ha : (getW s ra).toNat < modulus m) (rd : WReg) :
    ∃ t, inSequence [.tomont m rd ra, .frommont m rd rd] s = .next t ∧ getW t rd = getW s ra := by
  obtain ⟨u, htomont, hu⟩ : ∃ u, exec (.tomont m rd ra) s = .next u ∧
      getW u rd = BitVec.ofNat 256 ((getW s ra).toNat * 2 ^ 256 % modulus m) :=
    ⟨_, exec_tomont_ok ha rd, getW_setW_same s rd _⟩
  have hlt : (getW u rd).toNat < modulus m := by
    rw [hu, toNat_ofNat_mod]
    exact Nat.mod_lt _ (modulus_pos m)
  refine ⟨_, (inSequence_cons htomont _).trans (inSequence_cons (exec_frommont_ok hlt rd) []), ?_⟩
  rw [getW_complete, getW_setW_same, hu, residue_montR_montRinv m ha]

/-- Settles O37: the words by `commandWords_of_op`; MONTMUL's and FROMMONT's results are Montgomery reductions of a·b and of a,
which `residue_montRinv_spec` tells; other operands by the check all three commands begin with. -/
theorem montgomeryResults : Obligations.MontgomeryResults := by
  refine ⟨?montmulWords, ?tomontWords, ?frommontWords, fun m rd ra rb s => ⟨fun ha => ?canonical, fun hovf => ?overflow,
    fun hovf => commit_canon_canon_error hovf ..⟩⟩
  case montmulWords =>
    exact commandWords_of_op (op := .montmul) rfl (fun _ => rfl) (fun _ => rfl) fun _ _ => ⟨(_, _, _, _), rfl⟩
  case tomontWords =>
    exact commandWords_of_op (op := .tomont) rfl (fun _ => rfl) (fun _ => rfl) fun _ _ => ⟨(_, _, _), rfl⟩
  case frommontWords =>
    exact commandWords_of_op (op := .frommont) rfl (fun _ => rfl) (fun _ => rfl) fun _ _ => ⟨(_, _, _), rfl⟩
  case canonical =>
    obtain ⟨hlt, hval⟩ := residue_montRinv_spec m (getW s ra).toNat
    refine ⟨fun hb => ?montmul, exec_tomont_ok ha rd, ⟨_, hlt, hval.trans (Nat.mod_eq_of_lt ha), exec_frommont_ok ha rd⟩,
      inSequence_tomont_frommont ha rd⟩
    case montmul =>
      obtain ⟨hlt, hval⟩ := residue_montRinv_spec m ((getW s ra).toNat * (getW s rb).toNat)
      exact ⟨_, hlt, hval, exec_montmul_ok ha hb rd⟩
  case overflow => exact ⟨commit_canon_error hovf .., commit_canon_error hovf ..⟩

/-! ### MMUL and MSQR (R173, R174) -/

/-- MMUL of canonical operands (R173). -/
theorem exec_mmul_ok {m : Modulus} {ra rb : WReg} {s : State} (ha : (getW s ra).toNat < modulus m)
    (hb : (getW s rb).toNat < modulus m) (rd : WReg) : exec (.mmul m rd ra rb) s =
      .next (complete (setW s rd (BitVec.ofNat 256 ((getW s ra).toNat * (getW s rb).toNat % modulus m)))) := by
  rw [← residue_mul]
  exact commit_canon_canon_ok ha hb ..

/-- MSQR of a canonical operand (R174). -/
theorem exec_msqr_ok {m : Modulus} {ra : WReg} {s : State} (ha : (getW s ra).toNat < modulus m) (rd : WReg) :
    exec (.msqr m rd ra) s =
      .next (complete (setW s rd (BitVec.ofNat 256 ((getW s ra).toNat * (getW s ra).toNat % modulus m)))) := by
  rw [← residue_mul]
  exact commit_bind_ok (readCanon_ok ha)

/-- Settles O38: the words by `commandWords_of_op`; canonical operands by `exec_mmul_ok` and `exec_msqr_ok`, others by the check
both commands begin with. -/
theorem mmulMsqrResults : Obligations.MmulMsqrResults := by
  refine ⟨?mmulWords, ?msqrWords, fun m rd ra rb s => ⟨fun ha => ⟨fun hb => exec_mmul_ok ha hb rd, exec_msqr_ok ha rd⟩,
    fun hovf => commit_canon_error hovf .., fun hovf => commit_canon_canon_error hovf ..⟩⟩
  case mmulWords =>
    exact commandWords_of_op (op := .mmul) rfl (fun _ => rfl) (fun _ => rfl) fun _ _ => ⟨(_, _, _, _), rfl⟩
  case msqrWords =>
    exact commandWords_of_op (op := .msqr) rfl (fun _ => rfl) (fun _ => rfl) fun _ _ => ⟨(_, _, _), rfl⟩

/-! ### MPOW (R175) -/

/-- MPOW of a canonical base and any exponent (R175). -/
theorem exec_mpow_ok {m : Modulus} {ra : WReg} {s : State} (ha : (getW s ra).toNat < modulus m) (rd re : WReg) :
    exec (.mpow m rd ra re) s =
      .next (complete (setW s rd (BitVec.ofNat 256 ((getW s ra).toNat ^ (getW s re).toNat % modulus m)))) := by
  rw [← powMod_word]
  exact commit_bind_ok (readCanon_ok ha)

/-- Settles O39: the words by `commandWords_of_op`; a canonical base by `exec_mpow_ok`, another by the check MPOW begins with. -/
theorem mpowResult : Obligations.MpowResult := by
  refine ⟨?mpowWords, fun m rd ra re s => ⟨fun ha => exec_mpow_ok ha rd re, fun hovf => commit_canon_error hovf ..⟩⟩
  case mpowWords =>
    exact commandWords_of_op (op := .mpow) rfl (fun _ => rfl) (fun _ => rfl) fun _ _ => ⟨(_, _, _, _), rfl⟩

end Sys2Proof.Machine
end

section
/-! SUPPORT. The field inverter (spec/43_field_inverter.md R190, R191): the Fermat inverse and the candidate root, and the two
commands. -/

namespace Sys2Proof.Machine

open Sys2Proof.Spec

/-! ### MINV (R190) -/

/-- The word of the Fermat inverse holds it whole. -/
theorem toNat_ofNat_invMod (m : Modulus) (a : Nat) :
    (BitVec.ofNat 256 (invMod (modulus m) a)).toNat = invMod (modulus m) a :=
  (BitVec.toNat_ofNat _ _).trans (Nat.mod_eq_of_lt ((invMod_lt m a).trans_le (modulus_le m)))

/-- MINV of a canonical operand that is not 0 (R190). -/
theorem exec_minv_ok {m : Modulus} {ra : WReg} {s : State} (ha : (getW s ra).toNat < modulus m)
    (h0 : (getW s ra).toNat ≠ 0) (rd : WReg) : exec (.minv m rd ra) s =
      .next (complete (setW s rd (BitVec.ofNat 256 (invMod (modulus m) (getW s ra).toNat)))) := by
  have hne : getW s ra ≠ 0 := fun h => h0 (congrArg BitVec.toNat h)
  exact (commit_bind_ok (readCanon_ok ha)).trans (congrArg (commit _ s) (if_neg hne))

/-- MINV of 0: the operand passes the canonical check and has no inverse (R190). -/
theorem exec_minv_zero {m : Modulus} {ra : WReg} {s : State} (h0 : (getW s ra).toNat = 0) (rd : WReg) :
    exec (.minv m rd ra) s = .next (failed .invalidFieldElement (encode (.minv m rd ra)) s) := by
  have ha : (getW s ra).toNat < modulus m := h0 ▸ modulus_pos m
  exact (commit_bind_ok (readCanon_ok ha)).trans (congrArg (commit _ s) (if_pos (BitVec.eq_of_toNat_eq h0)))

/-- Settles O40: the words by `commandWords_of_op`; the result by `invMod_eq`, `invMod_lt` and `mul_invMod` (Fermat); 0 by
`exec_minv_zero`, and a value at or above m by the check MINV begins with. -/
theorem minvResult : Obligations.MinvResult := by
  refine ⟨?minvWords, fun m rd ra s => ⟨fun ha h0 => ?inverse, fun h0 => exec_minv_zero h0 rd,
    fun hovf => commit_canon_error hovf ..⟩⟩
  case minvWords =>
    exact commandWords_of_op (op := .minv) rfl (fun _ => rfl) (fun _ => rfl) fun _ _ => ⟨(_, _, _), rfl⟩
  case inverse =>
    have hv := toNat_ofNat_invMod m (getW s ra).toNat
    refine ⟨_, hv.trans (invMod_eq (modulus_le m)), hv.trans_lt (invMod_lt m _), ?_, exec_minv_ok ha h0 rd⟩
    rw [hv]
    exact mul_invMod m h0 ha

/-! ### MSQRT (R191) -/

/-- A canonical number squares to a word's value in MSQRT's integers exactly when it does so in the naturals (R191). -/
theorem modP_sq_eq_int_iff {r : Nat} (hr : r < fieldP) (a : Word) :
    modP (Word.int (BitVec.ofNat 256 r) * Word.int (BitVec.ofNat 256 r)) = a.int ↔ r * r % fieldP = a.toNat := by
  rw [int_ofNat hr, ← Int.natCast_mul, modP_natCast]
  exact Int.natCast_inj

/-- MSQRT of a canonical operand whose candidate is a root (R191). -/
theorem exec_msqrt_root {ra : WReg} {s : State} {r : Nat} (ha : (getW s ra).toNat < fieldP)
    (hr : sqrtCandidate (getW s ra).toNat = r) (hroot : r * r % fieldP = (getW s ra).toNat) (rd : WReg) :
    exec (.msqrt rd ra) s = .next (complete (setRootFlags (setW s rd (BitVec.ofNat 256 r)) (BitVec.ofNat 256 r))) := by
  subst hr
  exact (commit_bind_ok (readCanon_ok (m := .p) ha)).trans
    (congrArg (commit _ s) (if_pos ((modP_sq_eq_int_iff (sqrtCandidate_lt _) _).2 hroot)))

/-- MSQRT of a canonical operand whose candidate is no root (R191). -/
theorem exec_msqrt_noRoot {ra : WReg} {s : State} {r : Nat} (ha : (getW s ra).toNat < fieldP)
    (hr : sqrtCandidate (getW s ra).toNat = r) (hroot : r * r % fieldP ≠ (getW s ra).toNat) (rd : WReg) :
    exec (.msqrt rd ra) s = .next (complete (setEq s false)) := by
  subst hr
  exact (commit_bind_ok (readCanon_ok (m := .p) ha)).trans
    (congrArg (commit _ s) (if_neg (mt (modP_sq_eq_int_iff (sqrtCandidate_lt _) _).1 hroot)))

/-- Settles O41: the words by `commandWords_of_op`; r is the candidate by `sqrtCandidate_eq`, both outcomes by the root test, and
that a square's candidate is a root by `sqrtCandidate_of_square`. -/
theorem msqrtResult : Obligations.MsqrtResult := by
  refine ⟨?msqrtWords, fun rd ra s => ⟨fun ha => ?canonical, fun hovf => commit_canon_error (m := .p) hovf ..⟩⟩
  case msqrtWords =>
    exact commandWords_of_op (op := .msqrt) rfl (fun _ => rfl) (fun _ => rfl) fun _ _ => ⟨(_, _), rfl⟩
  case canonical =>
    have hr := sqrtCandidate_eq (getW s ra).toNat
    refine ⟨fun hroot => ?root, fun hroot => exec_msqrt_noRoot ha hr hroot rd,
      fun hsquare => hr ▸ sqrtCandidate_of_square ha hsquare⟩
    case root =>
      rw [← parity_ofNat]
      exact exec_msqrt_root ha hr hroot rd

end Sys2Proof.Machine
end

section
/-! SUPPORT. The point operands (spec/30_encoding.md R103; spec/44_point_engines.md R200): how a command that checks points or
coordinates goes on or ends. -/

namespace Sys2Proof.Machine

open Sys2Proof.Spec

/-- A command whose point is valid goes on with the triple (R103). -/
theorem commit_point_ok {ps : PReg} {s : State} (h : Valid (getP s ps)) (i : Instr) (f : Triple → Except ErrCode State) :
    commit i s (readPoint s ps >>= f) = commit i s (f (getP s ps)) :=
  commit_bind_ok (readPoint_ok ((validTriple_iff _).2 h))

/-- A command whose point is not valid ends with INVALID_POINT, whatever follows (R103, R302). -/
theorem commit_point_error {ps : PReg} {s : State} (h : ¬ Valid (getP s ps)) (i : Instr)
    (f : Triple → Except ErrCode State) :
    commit i s (readPoint s ps >>= f) = .next (failed .invalidPoint (encode i) s) :=
  commit_bind_error (readPoint_error ((validTriple_eq_false_iff _).2 h))

/-- A command with two valid points goes on with both triples. -/
theorem commit_point_point_ok {pa pb : PReg} {s : State} (ha : Valid (getP s pa)) (hb : Valid (getP s pb)) (i : Instr)
    (f : Triple → Triple → Except ErrCode State) :
    commit i s (readPoint s pa >>= fun a => readPoint s pb >>= f a) = commit i s (f (getP s pa) (getP s pb)) :=
  (commit_point_ok ha i _).trans (commit_point_ok hb i _)

/-- A command with two points ends with INVALID_POINT if either is not valid: the order of the checks does not show. -/
theorem commit_point_point_error {pa pb : PReg} {s : State} (h : ¬ Valid (getP s pa) ∨ ¬ Valid (getP s pb)) (i : Instr)
    (f : Triple → Triple → Except ErrCode State) :
    commit i s (readPoint s pa >>= fun a => readPoint s pb >>= f a) = .next (failed .invalidPoint (encode i) s) := by
  by_cases ha : Valid (getP s pa)
  · rw [commit_point_ok ha]
    exact commit_point_error (h.resolve_left (not_not_intro ha)) i _
  · exact commit_point_error ha i _

/-- A command whose coordinate is not below P ends with INVALID_POINT, whatever follows (R204, R205). -/
theorem commit_coord_error {r : WReg} {s : State} (h : fieldP ≤ (getW s r).toNat) (i : Instr)
    (f : Word → Except ErrCode State) :
    commit i s (readCoord s r >>= f) = .next (failed .invalidPoint (encode i) s) :=
  commit_bind_error (readCoord_error h)

end Sys2Proof.Machine
end

section
/-! SUPPORT. The group law (spec/44_point_engines.md R209, R213, R214): equality by the Jacobian weights is equality of elements, and
the additions whose result is an exact triple. -/

namespace Sys2Proof.Machine

open Sys2Proof.Spec

/-! ### Equality by the Jacobian weights (R209) -/

/-- An identity equals identities only. -/
theorem sameElement_of_identity {t u : Triple} (h : t.z = 0 ∨ u.z = 0) :
    sameElement t u = decide (t.z = 0 ∧ u.z = 0) := by
  rw [sameElement, if_pos h, Bool.decide_and]

/-- Finite triples are compared in the field, cross-multiplied by the weights. -/
theorem sameElement_of_finite {t u : Triple} (ht : t.z ≠ 0) (hu : u.z ≠ 0) :
    sameElement t u = decide (toFp t.x * toFp u.z ^ 2 = toFp u.x * toFp t.z ^ 2 ∧
      toFp t.y * toFp u.z ^ 3 = toFp u.y * toFp t.z ^ 3) := by
  rw [sameElement, if_neg (not_or_intro ht hu), ← Bool.decide_and, decide_eq_decide]
  simp only [modP_eq_zero, Int.cast_sub, Int.cast_mul, ← toFp_eq_int, sub_eq_zero, pow_succ, pow_zero, one_mul]

/-- The weights compare the elements the triples denote. -/
theorem sameElement_iff [Fact (Nat.Prime fieldP)] {t u : Triple} (ht : Valid t) (hu : Valid u) {Q R : Pt}
    (hQ : Denotes t Q) (hR : Denotes u R) : sameElement t u = true ↔ Q = R := by
  cases Q with
  | zero =>
    have htz : t.z = 0 := hQ
    rw [sameElement_of_identity (.inl htz), decide_eq_true_iff, denotes_zero_iff hR]
    exact ⟨fun h => h.2.symm, fun h => ⟨htz, h.symm⟩⟩
  | some x1 y1 h1 =>
    cases R with
    | zero =>
      have huz : u.z = 0 := hR
      rw [sameElement_of_identity (.inr huz), decide_eq_true_iff]
      exact ⟨fun h => absurd h.1 hQ.1, fun h => nomatch h⟩
    | some x2 y2 h2 =>
      obtain ⟨htz, hx1, hy1⟩ := hQ
      obtain ⟨huz, hx2, hy2⟩ := hR
      have hz1 := z_ne_zero ht htz
      have hz2 := z_ne_zero hu huz
      rw [sameElement_of_finite htz huz, decide_eq_true_iff, WeierstrassCurve.Affine.Point.some.injEq, hx1, hy1, hx2, hy2,
        mul_right_comm x2, mul_right_comm y2, mul_left_inj' (pow_ne_zero 2 hz2), mul_left_inj' (pow_ne_zero 2 hz1),
        mul_left_inj' (pow_ne_zero 3 hz2), mul_left_inj' (pow_ne_zero 3 hz1)]

/-! ### Exact additions (R213, R214) -/

/-- JADD of a triple and itself is JDBL, by the doubling branch or as two identities. -/
theorem jadd_self (t : Triple) : jadd t t = jdbl t := by
  by_cases hz : t.z = 0
  · rw [jadd, if_pos hz, if_pos hz, jdbl, if_pos hz]
  · rw [jadd_eq_added, jdbl_eq_doubled, added, if_neg hz, if_neg hz]
    simp only [sub_self, mul_zero, if_true]

/-- An identity adds nothing to a finite triple on its left (R213). -/
theorem jadd_identity {t u : Triple} (ht : t.z ≠ 0) (hu : u.z = 0) : jadd t u = t := by
  rw [jadd, if_neg ht, if_pos hu]

/-- An identity adds nothing to a finite triple on its right (R213). -/
theorem identity_jadd {t u : Triple} (ht : t.z = 0) (hu : u.z ≠ 0) : jadd t u = u := by
  rw [jadd, if_pos ht, if_neg hu]

/-- PEQ of two valid triples sets EQ by the weights (R209). -/
theorem exec_peq_ok {pa pb : PReg} {s : State} (ha : Valid (getP s pa)) (hb : Valid (getP s pb)) :
    exec (.peq pa pb) s = .next (complete (setEq s (sameElement (getP s pa) (getP s pb)))) :=
  commit_point_point_ok ha hb ..

/-- Settles O51: validity and the elements by the laws of the Jacobian formulas, the exact sums by `jadd_self`, `jadd_identity` and
`identity_jadd`, PEQ by `sameElement_iff`. -/
theorem groupLaw : Obligations.GroupLaw := by
  intro _ A B hA hB
  obtain ⟨Q, hQ⟩ := exists_denotes hA
  obtain ⟨R, hR⟩ := exists_denotes hB
  refine ⟨valid_jadd hA hB, valid_jdbl hA, jadd_self A, ?identity, Q, R, hQ, hR,
    denotes_jadd hA hB hQ hR, ?swapped, ?double, fun pa pb s ha hb => ?equality⟩
  case identity =>
    rintro (hz | rfl)
    · exact ⟨jadd_identity hz rfl, identity_jadd rfl hz⟩
    · exact ⟨rfl, rfl⟩
  case swapped =>
    rw [add_comm]
    exact denotes_jadd hB hA hR hQ
  case double =>
    rw [two_nsmul]
    exact denotes_jdbl hA hQ
  case equality =>
    subst ha hb
    have heq : sameElement (getP s pa) (getP s pb) = decide (Q = R) := by
      rw [Bool.eq_iff_iff, sameElement_iff hA hB hQ hR, decide_eq_true_iff]
    rw [← heq]
    exact exec_peq_ok hA hB

end Sys2Proof.Machine
end

section
/-! SUPPORT. The point engine's loads PINF, PGEN, PMOV, PLDA and PLIFT (spec/44_point_engines.md R201 to R205): the curve test on
affine coordinates, the root with the asked parity, and the five commands. -/

namespace Sys2Proof.Machine

open Sys2Proof.Spec

/-! ### PINF, PGEN and PMOV (R201 to R203) -/

/-- Settles O42: the words by `commandWords_of_op`; the three commands check nothing and complete with their triple. -/
theorem pinfPgenPmovResults : Obligations.PinfPgenPmovResults := by
  refine ⟨?pinfWords, ?pgenWords, ?pmovWords, fun pd ps s => ⟨rfl, rfl, rfl⟩⟩
  case pinfWords =>
    exact commandWords_of_op (op := .pinf) rfl (fun _ => rfl) (fun _ => rfl) fun _ _ => ⟨_, rfl⟩
  case pgenWords =>
    exact commandWords_of_op (op := .pgen) rfl (fun _ => rfl) (fun _ => rfl) fun _ _ => ⟨_, rfl⟩
  case pmovWords =>
    exact commandWords_of_op (op := .pmov) rfl (fun _ => rfl) (fun _ => rfl) fun _ _ => ⟨(_, _), rfl⟩

/-! ### PLDA (R204) -/

/-- PLDA's test on integers is the curve's congruence on natural numbers. -/
theorem modP_curve_eq_zero_iff (x y : Word) :
    modP (y.int * y.int - x.int * x.int * x.int - 7) = 0 ↔ y.toNat ^ 2 % fieldP = (x.toNat ^ 3 + 7) % fieldP := by
  have hdiff : y.int * y.int - x.int * x.int * x.int - 7 =
      ((y.toNat ^ 2 : Nat) : Int) - ((x.toNat ^ 3 + 7 : Nat) : Int) := by
    simp only [Word.int]
    push_cast
    ring
  rw [hdiff, modP, ← Int.emod_eq_emod_iff_emod_sub_eq_zero, ← Int.natCast_mod, ← Int.natCast_mod, Int.natCast_inj]

/-- PLDA of canonical coordinates goes on to the curve test (R204). -/
theorem exec_plda_coords {wx wy : WReg} {s : State} (hx : (getW s wx).toNat < fieldP) (hy : (getW s wy).toNat < fieldP)
    (pd : PReg) : exec (.plda pd wx wy) s = commit (.plda pd wx wy) s
      (if modP ((getW s wy).int * (getW s wy).int - (getW s wx).int * (getW s wx).int * (getW s wx).int - 7) ≠ 0
        then .error .invalidPoint else .ok (setInf (setP s pd ⟨getW s wx, getW s wy, 1⟩) false)) :=
  (commit_bind_ok (readCoord_ok hx)).trans (commit_bind_ok (readCoord_ok hy))

/-- Settles O43: the words by `commandWords_of_op`; the coordinates by the checks PLDA begins with, in either order, and the curve
test by `modP_curve_eq_zero_iff`. -/
theorem pldaResult : Obligations.PldaResult := by
  refine ⟨?pldaWords, fun pd wx wy s => ⟨fun hx hy hcurve => ?loaded, fun hbad => ?invalid⟩⟩
  case pldaWords =>
    exact commandWords_of_op (op := .plda) rfl (fun _ => rfl) (fun _ => rfl) fun _ _ => ⟨(_, _, _), rfl⟩
  case loaded =>
    rw [exec_plda_coords hx hy, if_neg (not_not_intro ((modP_curve_eq_zero_iff _ _).2 hcurve))]
    rfl
  case invalid =>
    rcases lt_or_ge (getW s wx).toNat fieldP with hx | hx
    · rcases lt_or_ge (getW s wy).toNat fieldP with hy | hy
      · have hcurve := (hbad.resolve_left (Nat.not_le.2 hx)).resolve_left (Nat.not_le.2 hy)
        rw [exec_plda_coords hx hy, if_pos (mt (modP_curve_eq_zero_iff _ _).1 hcurve)]
        rfl
      · exact (commit_bind_ok (readCoord_ok hx)).trans (commit_coord_error hy _ _)
    · exact commit_coord_error hx _ _

/-! ### PLIFT (R205) -/

/-- c = x³ + 7 on integers is c on natural numbers. -/
theorem modP_cube_add_seven (x : Word) :
    modP (x.int * x.int * x.int + 7) = (((x.toNat ^ 3 + 7) % fieldP : Nat) : Int) := by
  rw [← modP_natCast]
  congr 1
  simp only [Word.int]
  push_cast
  ring

/-- No x has c = 0: -7 is not a cube modulo P. -/
theorem cube_add_seven_mod_ne_zero (x : Nat) : (x ^ 3 + 7) % fieldP ≠ 0 := by
  have := Fact.mk fieldP_prime
  intro h
  refine cube_add_seven_ne_zero (x : Fp) ?_
  rw [← Nat.dvd_iff_mod_eq_zero, ← ZMod.natCast_eq_zero_iff] at h
  exact_mod_cast h

/-- 7, the c of x = 0, has no root: its candidate is none. -/
theorem sqrtCandidate_seven : sqrtCandidate 7 * sqrtCandidate 7 % fieldP ≠ 7 := by decide +kernel

/-- The root of the asked parity: r, or P - r. -/
def rootOfParity (par : Bool) (r : Nat) : Nat := if decide (r % 2 = 1) = par then r else (fieldP - r) % fieldP

/-- The two roots of a c other than 0 have different parities, since P is odd. -/
theorem parity_rootOfParity {r : Nat} (h0 : r ≠ 0) (h : r < fieldP) (par : Bool) :
    decide (rootOfParity par r % 2 = 1) = par := by
  unfold rootOfParity
  split
  · assumption
  · next hpar =>
    have hodd : fieldP % 2 = 1 := by decide
    have hflip : (fieldP - r) % fieldP % 2 = 1 ↔ ¬ r % 2 = 1 := by
      rw [Nat.mod_eq_of_lt (Nat.sub_lt fieldP_pos (Nat.pos_of_ne_zero h0))]
      omega
    rw [decide_eq_decide.2 hflip, decide_not]
    exact Bool.not_eq.2 hpar

/-- PLIFT's choice between r and its negation. -/
theorem word_rootOfParity {r : Nat} (h : r < fieldP) (par : Bool) :
    (if Word.parity (BitVec.ofNat 256 r) = par then BitVec.ofNat 256 r
      else residue fieldP ((fieldP : Int) - Word.int (BitVec.ofNat 256 r))) = BitVec.ofNat 256 (rootOfParity par r) := by
  have hr : (BitVec.ofNat 256 r : Word).toNat = r :=
    (BitVec.toNat_ofNat _ _).trans (Nat.mod_eq_of_lt (h.trans_le fieldP_le))
  have hneg := residue_neg .p (a := BitVec.ofNat 256 r) (hr.symm ▸ h)
  rw [hr] at hneg
  rw [parity_ofNat, rootOfParity, apply_ite (BitVec.ofNat 256)]
  exact congrArg _ hneg

/-- PLIFT's root test on integers is the one on natural numbers. -/
theorem modP_sq_eq_natCast_iff {r : Nat} (h : r < fieldP) (c : Nat) :
    modP (Word.int (BitVec.ofNat 256 r) * Word.int (BitVec.ofNat 256 r)) = (c : Int) ↔ r * r % fieldP = c := by
  rw [int_ofNat h, ← Int.natCast_mul, modP_natCast, Int.natCast_inj]

/-- PLIFT of a canonical coordinate goes on to the root test, with c and its candidate as natural numbers (R205). -/
theorem exec_plift_coord {wx : WReg} {s : State} {c : Nat} (hx : (getW s wx).toNat < fieldP)
    (hc : ((getW s wx).toNat ^ 3 + 7) % fieldP = c) (pd : PReg) (par : Bool) :
    exec (.plift pd wx par) s = commit (.plift pd wx par) s
      (if sqrtCandidate c * sqrtCandidate c % fieldP = c then
        .ok (setOdd (setInf (setP s pd ⟨getW s wx, BitVec.ofNat 256 (rootOfParity par (sqrtCandidate c)), 1⟩) false)
          (decide (rootOfParity par (sqrtCandidate c) % 2 = 1)))
       else .error .invalidPoint) := by
  have hlt := sqrtCandidate_lt c
  refine (commit_bind_ok (readCoord_ok hx)).trans (congrArg (commit _ s) ?_)
  dsimp only
  rw [modP_cube_add_seven, Int.toNat_natCast, hc, word_rootOfParity hlt, parity_ofNat, ite_not]
  simp only [modP_sq_eq_natCast_iff hlt]
  rfl

/-- Settles O44: the words by `commandWords_of_op`; r is the candidate by `sqrtCandidate_eq`, and PLIFT's outcomes by
`exec_plift_coord`; the parity by `parity_rootOfParity`, that a square's candidate is a root by `sqrtCandidate_of_square`. -/
theorem pliftResult : Obligations.PliftResult := by
  refine ⟨?pliftWords, fun pd wx par s => ?_⟩
  case pliftWords =>
    exact commandWords_of_op (op := .plift) rfl (fun _ => rfl) (fun _ => rfl) fun _ _ => ⟨(_, _, _), rfl⟩
  simp only [← sqrtCandidate_eq, ← rootOfParity.eq_1]
  have hne := cube_add_seven_mod_ne_zero (getW s wx).toNat
  have hlt : ((getW s wx).toNat ^ 3 + 7) % fieldP < fieldP := Nat.mod_lt _ fieldP_pos
  generalize hc : ((getW s wx).toNat ^ 3 + 7) % fieldP = c at *
  refine ⟨fun hx hroot => ⟨?lifted, ?parity⟩, hne, sqrtCandidate_of_square hlt, fun h0 => ?zero, fun hbad => ?invalid⟩
  case lifted =>
    rw [exec_plift_coord hx hc, if_pos hroot]
    generalize rootOfParity par (sqrtCandidate c) = y
    rfl
  case parity =>
    refine parity_rootOfParity (fun hr => hne ?_) (sqrtCandidate_lt c) par
    rw [← hroot, hr, mul_zero, Nat.zero_mod]
  case zero =>
    obtain rfl : 7 = c := by rw [← hc, h0]; rfl
    exact sqrtCandidate_seven
  case invalid =>
    rcases lt_or_ge (getW s wx).toNat fieldP with hx | hx
    · rw [exec_plift_coord hx hc, if_neg (hbad.resolve_left (Nat.not_le.2 hx))]
      rfl
    · exact commit_coord_error hx _ _

end Sys2Proof.Machine
end

section
/-! SUPPORT. The point engine's commands on points PNEG, PADD, PDBL, PEQ, PTST and PAFF (spec/44_point_engines.md R206 to R211). -/

namespace Sys2Proof.Machine

open Sys2Proof.Spec

/-! ### PNEG (R206) -/

/-- A valid finite triple has Y other than 0, since no point of the curve has y = 0. -/
theorem y_ne_zero_of_valid {t : Triple} (hv : Valid t) (hz : t.z ≠ 0) : t.y ≠ 0 := by
  have := Fact.mk fieldP_prime
  intro hy
  obtain ⟨Q, hQ⟩ := exists_denotes hv
  cases Q with
  | zero => exact hz hQ
  | some x y hn =>
    obtain ⟨-, -, hyz⟩ := hQ
    have h0 : toFp t.y = 0 := by rw [hy]; rfl
    exact mul_ne_zero (y_ne_zero hn) (pow_ne_zero 3 (z_ne_zero hv hz)) (hyz ▸ h0)

/-- PNEG of an identity, with any X and Y (R206). -/
theorem exec_pneg_identity {ps : PReg} {s : State} (hz : (getP s ps).z = 0) (pd : PReg) :
    exec (.pneg pd ps) s = .next (complete (setInf (setP s pd idPoint) true)) :=
  (commit_point_ok (.inl hz) ..).trans (congrArg (commit _ s) (if_pos hz))

/-- PNEG of a valid finite triple (R206). -/
theorem exec_pneg_finite {ps : PReg} {s : State} (hv : Valid (getP s ps)) (hz : (getP s ps).z ≠ 0) (pd : PReg) :
    exec (.pneg pd ps) s = .next (complete (setInf (setP s pd ⟨(getP s ps).x,
      BitVec.ofNat 256 ((fieldP - (getP s ps).y.toNat) % fieldP), (getP s ps).z⟩) false)) := by
  obtain ⟨-, hy, -⟩ := canonical_of_valid hv hz
  have hneg : residue fieldP ((fieldP : Int) - (getP s ps).y.int) =
      BitVec.ofNat 256 ((fieldP - (getP s ps).y.toNat) % fieldP) := residue_neg .p hy
  rw [← hneg]
  exact (commit_point_ok hv ..).trans (congrArg (commit _ s) (if_neg hz))

/-- Settles O45: the words by `commandWords_of_op`; Y by `y_ne_zero_of_valid`, the results by `exec_pneg_identity` and
`exec_pneg_finite`. -/
theorem pnegResult : Obligations.PnegResult := by
  refine ⟨?pnegWords, fun t => y_ne_zero_of_valid, fun pd ps s => ⟨fun _ hz => exec_pneg_identity hz pd,
    fun hv hz => exec_pneg_finite hv hz pd, fun hv => commit_point_error hv _ _⟩⟩
  case pnegWords =>
    exact commandWords_of_op (op := .pneg) rfl (fun _ => rfl) (fun _ => rfl) fun _ _ => ⟨(_, _), rfl⟩

/-! ### PADD and PDBL (R207, R208) -/

/-- PADD of valid triples writes JADD (R207). -/
theorem exec_padd_ok {pa pb : PReg} {s : State} (ha : Valid (getP s pa)) (hb : Valid (getP s pb)) (pd : PReg) :
    exec (.padd pd pa pb) s = .next (complete (setPInf s pd (jadd (getP s pa) (getP s pb)))) :=
  commit_point_point_ok ha hb ..

/-- PDBL of a valid triple writes JDBL (R208). -/
theorem exec_pdbl_ok {pa : PReg} {s : State} (ha : Valid (getP s pa)) (pd : PReg) :
    exec (.pdbl pd pa) s = .next (complete (setPInf s pd (jdbl (getP s pa)))) :=
  commit_point_ok ha ..

/-- Settles O46: the words by `commandWords_of_op`; the exact triple by `exec_padd_ok` and `jadd_eq_added`. -/
theorem paddResult : Obligations.PaddResult := by
  refine ⟨?paddWords, fun pd pa pb s => ⟨fun ha hb => ?sum, fun hbad => commit_point_point_error hbad _ _⟩⟩
  case paddWords =>
    exact commandWords_of_op (op := .padd) rfl (fun _ => rfl) (fun _ => rfl) fun _ _ => ⟨(_, _, _), rfl⟩
  case sum =>
    rw [← jadd_eq_added]
    exact exec_padd_ok ha hb pd

/-- Settles O47: the words by `commandWords_of_op`; the exact triple by `exec_pdbl_ok` and `jdbl_eq_doubled`. -/
theorem pdblResult : Obligations.PdblResult := by
  refine ⟨?pdblWords, fun pd pa s => ⟨fun ha => ?double, fun hbad => commit_point_error hbad _ _⟩⟩
  case pdblWords =>
    exact commandWords_of_op (op := .pdbl) rfl (fun _ => rfl) (fun _ => rfl) fun _ _ => ⟨(_, _), rfl⟩
  case double =>
    rw [← jdbl_eq_doubled]
    exact exec_pdbl_ok ha pd

/-! ### PEQ and PTST (R209, R210) -/

/-- Settles O48: the words by `commandWords_of_op`; EQ by `exec_peq_ok` and the two cases of the weights. -/
theorem peqResult : Obligations.PeqResult := by
  refine ⟨?peqWords, fun pa pb s => ⟨fun ha hb hz => ?identity, fun ha hb hza hzb => ?finite,
    fun hbad => commit_point_point_error hbad _ _⟩⟩
  case peqWords =>
    exact commandWords_of_op (op := .peq) rfl (fun _ => rfl) (fun _ => rfl) fun _ _ => ⟨(_, _), rfl⟩
  case identity =>
    rw [exec_peq_ok ha hb, sameElement_of_identity hz]
    rfl
  case finite =>
    rw [exec_peq_ok ha hb, sameElement_of_finite hza hzb]
    rfl

/-- Settles O49: the words by `commandWords_of_op`; PTST's answer is the check it begins with. -/
theorem ptstResult : Obligations.PtstResult := by
  refine ⟨?ptstWords, fun ps s => ⟨fun hv => commit_point_ok hv _ _, fun hv => commit_point_error hv _ _⟩⟩
  case ptstWords =>
    exact commandWords_of_op (op := .ptst) rfl (fun _ => rfl) (fun _ => rfl) fun _ _ => ⟨_, rfl⟩

/-! ### PAFF (R211) -/

/-- PAFF of a valid finite triple writes `aff`, x first (R211). -/
theorem exec_paff_finite {ps : PReg} {s : State} (hv : Valid (getP s ps)) (hz : (getP s ps).z ≠ 0) (wx wy : WReg) :
    exec (.paff wx wy ps) s = .next (complete (setOdd (setW (setW s wx (affX (getP s ps))) wy (affY (getP s ps)))
      (affY (getP s ps)).parity)) :=
  (commit_point_ok hv ..).trans (congrArg (commit _ s) (if_neg hz))

/-- PAFF of an identity, which passes the check and has no coordinates (R211). -/
theorem exec_paff_identity {ps : PReg} {s : State} (hz : (getP s ps).z = 0) (wx wy : WReg) :
    exec (.paff wx wy ps) s = .next (failed .pointAtInfinity (encode (.paff wx wy ps)) s) :=
  (commit_point_ok (.inl hz) ..).trans (congrArg (commit _ s) (if_pos hz))

/-- Settles O50: the words by `commandWords_of_op`; the coordinates by `toFp_affX` and `toFp_affY`. -/
theorem paffResult : Obligations.PaffResult := by
  have := Fact.mk fieldP_prime
  refine ⟨?paffWords, fun wx wy ps s => ⟨fun hv hz => ?finite, fun hz => exec_paff_identity hz wx wy,
    fun hv => commit_point_error hv _ _⟩⟩
  case paffWords =>
    exact commandWords_of_op (op := .paff) rfl (fun _ => rfl) (fun _ => rfl) fun _ _ => ⟨(_, _, _), rfl⟩
  case finite =>
    refine ⟨affX (getP s ps), affY (getP s ps), affX_lt _, affY_lt _, toFp_affX hv hz, toFp_affY hv hz, ?_⟩
    rw [← parity_eq]
    exact exec_paff_finite hv hz wx wy

end Sys2Proof.Machine
end

section
/-! SUPPORT. The scalar multipliers PRECOMP, PMULG, PMUL and PMUL2 (spec/45_scalar_multipliers.md R240 to R247): the checks they begin
with, the table, what each writes, and the multiples those results denote. -/

namespace Sys2Proof.Machine

open Sys2Proof.Spec

/-! ### The scalar operands (R103) -/

/-- A command whose scalar is below N goes on with its value (R103). -/
theorem commit_scalar_ok {wk : WReg} {s : State} (h : (getW s wk).toNat < orderN) (i : Instr)
    (f : Word → Except ErrCode State) : commit i s (readScalar s wk >>= f) = commit i s (f (getW s wk)) :=
  commit_bind_ok (readScalar_ok h)

/-- A command whose scalar is not below N ends with SCALAR_OVERFLOW, whatever follows (R103, R302). -/
theorem commit_scalar_error {wk : WReg} {s : State} (h : orderN ≤ (getW s wk).toNat) (i : Instr)
    (f : Word → Except ErrCode State) :
    commit i s (readScalar s wk >>= f) = .next (failed .scalarOverflow (encode i) s) :=
  commit_bind_error (readScalar_error h)

/-- A command with two scalars ends with SCALAR_OVERFLOW if either is not below N: the order of the checks does not show. -/
theorem commit_scalar_scalar_error {wk wl : WReg} {s : State}
    (h : orderN ≤ (getW s wk).toNat ∨ orderN ≤ (getW s wl).toNat) (i : Instr) (f : Word → Word → Except ErrCode State) :
    commit i s (readScalar s wk >>= fun k => readScalar s wl >>= f k) =
      .next (failed .scalarOverflow (encode i) s) := by
  rcases lt_or_ge (getW s wk).toNat orderN with hk | hk
  · rw [commit_scalar_ok hk]
    exact commit_scalar_error (h.resolve_left (Nat.not_le.2 hk)) i _
  · exact commit_scalar_error hk i _

/-! ### PRECOMP and the table (R240, R242) -/

/-- The machine's BUILD is the one of R240. -/
theorem setTable_eq_built (w : TblWidth) (s : State) : setTable w s = built w s := by
  rw [setTable, tableEntries_eq_table]
  rfl

/-- The lazy build keeps a built table and builds the one of width 8 (R243). -/
theorem lazyTable_eq (s : State) : lazyTable s = if s.tblValid = true then s else built .w8 s := by
  rw [lazyTable, setTable_eq_built]

/-- The legal widths are the numbers TBL_W holds (R104). -/
theorem legalWidth_iff (v : BitVec 8) : legalWidth v = true ↔ ∃ w, v = 0#4 ++ widthOf w := by
  constructor
  · intro h
    simp only [legalWidth, Bool.or_eq_true, beq_iff_eq] at h
    obtain (rfl | rfl) | rfl := h
    · exact ⟨.none, rfl⟩
    · exact ⟨.w4, rfl⟩
    · exact ⟨.w8, rfl⟩
  · rintro ⟨w, rfl⟩
    cases w <;> rfl

theorem readWidth_widthOf (w : TblWidth) : readWidth (0#4 ++ widthOf w) = .ok w := by cases w <;> rfl

/-- PRECOMP sets the table (R242). -/
theorem exec_precomp_ok (w : TblWidth) (s : State) :
    exec (.precomp (0#4 ++ widthOf w)) s = .next (complete (setTable w s)) := commit_bind_ok (readWidth_widthOf w)

/-- Settles O52: the words by `commandWords_of_op` and `legalWidth_iff`; the table by `setTable_eq_built`. -/
theorem precompResult : Obligations.PrecompResult := by
  refine ⟨commandWords_of_op (op := .precomp) rfl (fun _ => rfl) (fun w => (legalWidth_iff _).2 ⟨w, rfl⟩)
    (fun f hf => ?listed), fun w s => ?result⟩
  case listed =>
    obtain ⟨w, hw⟩ := (legalWidth_iff f.imm).1 hf
    exact ⟨w, congrArg Instr.precomp hw⟩
  case result =>
    rw [← setTable_eq_built]
    exact exec_precomp_ok w s

/-! ### What PMULG, PMUL and PMUL2 write (R243 to R245) -/

/-- PMULG of a scalar below N (R243). -/
theorem exec_pmulg_ok {wk : WReg} {s : State} (hk : (getW s wk).toNat < orderN) (pd : PReg) :
    exec (.pmulg pd wk) s =
      .next (complete (setPInf (lazyTable s) pd (normTriple (scalarMul (getW s wk) genTriple)))) :=
  commit_scalar_ok hk ..

/-- PMUL of a valid point and a scalar below N (R244). -/
theorem exec_pmul_ok {pq : PReg} {wk : WReg} {s : State} (hv : Valid (getP s pq)) (hk : (getW s wk).toNat < orderN)
    (pd : PReg) :
    exec (.pmul pd pq wk) s = .next (complete (setPInf s pd (normTriple (scalarMul (getW s wk) (getP s pq))))) :=
  (commit_point_ok hv ..).trans (commit_scalar_ok hk ..)

/-- PMUL2 of scalars below N and a valid point (R245). -/
theorem exec_pmul2_ok {wk wl : WReg} {pq : PReg} {s : State} (hk : (getW s wk).toNat < orderN)
    (hl : (getW s wl).toNat < orderN) (hv : Valid (getP s pq)) (pd : PReg) :
    exec (.pmul2 pd wk wl pq) s = .next (complete (setPInf s pd
      (normTriple (jadd (scalarMul (getW s wk) genTriple) (scalarMul (getW s wl) (getP s pq)))))) :=
  (commit_scalar_ok hk ..).trans ((commit_scalar_ok hl ..).trans (commit_point_ok hv ..))

/-- A point result and its flag, as the statements write them (R207, R243). -/
theorem setPInf_eq_writeP (s : State) (r : PReg) (t : Triple) :
    setPInf s r t = writeP r t { s with inf := decide (t.z = 0) } := rfl

/-- PMUL2's IMM8 is its point's field with four more zero bits (R104, R105). -/
theorem immOfPreg_eq_pField (r : PReg) : (0#5 ++ bitsOfPreg r : BitVec 8) = 0#4 ++ pField r := by revert r; decide

/-- The word of PMUL2 (R105). -/
theorem encode_pmul2 (pd : PReg) (wk wl : WReg) (pq : PReg) :
    encode (.pmul2 pd wk wl pq) = cmdWord 0x53 0 (pField pd) (wField wk) (wField wl) (0#4 ++ pField pq) := by
  rw [← immOfPreg_eq_pField]
  rfl

/-! ### The multiples the results denote (R241, R244, R247) -/

/-- A scalar is zero exactly when its number is. -/
theorem toNat_eq_zero_iff (k : Word) : k.toNat = 0 ↔ k = 0 := BitVec.toNat_inj (y := 0)

/-- Settles O53: the words by `commandWords_of_op`; the element by `norm_scalarMul_spec`, INF by G's order, the table by
`lazyTable_eq`. -/
theorem pmulgResult : Obligations.PmulgResult := by
  refine ⟨?pmulgWords, fun pd wk s => ⟨fun G hG hk => ?multiple, fun hovf => commit_scalar_error hovf _ _⟩⟩
  case pmulgWords =>
    exact commandWords_of_op (op := .pmulg) rfl (fun _ => rfl) (fun _ => rfl) fun _ _ => ⟨(_, _), rfl⟩
  case multiple =>
    obtain ⟨hnormal, hdenotes⟩ := norm_scalarMul_spec valid_gen hG (getW s wk)
    refine ⟨_, hnormal, hdenotes, ?inf, ?written⟩
    case inf => rw [denotes_zero_iff hdenotes, smul_gen_eq_zero hG hk, toNat_eq_zero_iff]
    case written =>
      rw [exec_pmulg_ok hk, genTriple_eq, setPInf_eq_writeP, lazyTable_eq]
      rfl

/-- Settles O54: the words by `commandWords_of_op`; the element by `norm_scalarMul_spec`, the errors in the order of the checks. -/
theorem pmulResult : Obligations.PmulResult := by
  refine ⟨?pmulWords, fun pd pq wk s => ⟨fun Q hv hQ hk => ?multiple, fun hv => commit_point_error hv _ _,
    fun hv hovf => (commit_point_ok hv ..).trans (commit_scalar_error hovf _ _)⟩⟩
  case pmulWords =>
    exact commandWords_of_op (op := .pmul) rfl (fun _ => rfl) (fun _ => rfl) fun _ _ => ⟨(_, _, _), rfl⟩
  case multiple =>
    obtain ⟨hnormal, hdenotes⟩ := norm_scalarMul_spec hv hQ (getW s wk)
    exact ⟨_, hnormal, hdenotes, exec_pmul_ok hv hk pd⟩

/-- Settles O55: the words by `commandWords_of_op`; the element by `scalarMul_spec` of both products and the laws of JADD and NORM, the
errors in the order of the checks. -/
theorem pmulTwoResult : Obligations.PmulTwoResult := by
  refine ⟨?pmul2Words, fun pd pq wk wl s => ⟨fun G Q hG hv hQ hk hl => ?sum, fun hovf => ?overflow,
    fun hk hl hv => ?invalid⟩⟩
  case pmul2Words =>
    exact commandWords_of_op (op := .pmul2) rfl (fun _ => encode_pmul2 _ _ _ _) (fun _ => rfl) fun _ _ =>
      ⟨(_, _, _, _), rfl⟩
  case sum =>
    obtain ⟨hvk, hdk⟩ := scalarMul_spec valid_gen hG (getW s wk)
    obtain ⟨hvl, hdl⟩ := scalarMul_spec hv hQ (getW s wl)
    refine ⟨_, normal_normTriple _, denotes_normTriple (valid_jadd hvk hvl) (denotes_jadd hvk hvl hdk hdl), ?written⟩
    case written =>
      rw [exec_pmul2_ok hk hl hv, genTriple_eq, setPInf_eq_writeP]
      rfl
  case overflow =>
    rw [← encode_pmul2]
    exact commit_scalar_scalar_error hovf _ _
  case invalid =>
    rw [← encode_pmul2]
    exact (commit_scalar_ok hk ..).trans ((commit_scalar_ok hl ..).trans (commit_point_error hv _ _))

/-- Settles O56: INF says that k·Q is the identity, and by `smul_eq_zero_iff` (the curve has N points, N prime) only k = 0 or Q the
identity make it so. -/
theorem pmulIdentityExactly : Obligations.PmulIdentityExactly := by
  have := Fact.mk fieldP_prime
  intro pd pq wk s hv hk
  obtain ⟨Q, hQ⟩ := exists_denotes hv
  obtain ⟨-, hdenotes⟩ := norm_scalarMul_spec hv hQ (getW s wk)
  refine ⟨_, exec_pmul_ok hv hk pd, ?_⟩
  calc decide ((normTriple (scalarMul (getW s wk) (getP s pq))).z = 0) = true
      ↔ (getW s wk).toNat • Q = 0 := by rw [decide_eq_true_iff, denotes_zero_iff hdenotes]
    _ ↔ getW s wk = 0 ∨ (getP s pq).z = 0 := by rw [smul_eq_zero_iff hk, toNat_eq_zero_iff, denotes_zero_iff hQ]

/-- The windows of either width cover the scalar's 256 bits exactly (R240). -/
theorem widthNat_mul_windowCount {w : TblWidth} (hw : w ≠ .none) : widthNat w * windowCount (widthNat w) = 256 := by
  cases w with
  | none => exact absurd rfl hw
  | w4 => rfl
  | w8 => rfl

/-- The window method computes the multiple of G (R247). -/
theorem denotes_windowedMul [Fact (Nat.Prime fieldP)] {w : TblWidth} (hw : w ≠ .none) {G : Pt} (hG : Denotes genPoint G)
    (k : Word) : Denotes (windowedMul w k) (k.toNat • G) := by
  have hbits := widthNat_mul_windowCount hw
  obtain ⟨hv, hdenotes⟩ := windowFold_spec w hw k hG _ le_rfl hbits
  rw [hbits, Nat.mod_eq_of_lt k.isLt] at hdenotes
  exact denotes_normTriple hv hdenotes

/-- The window method and double-and-add give one triple: both are the normal form of the same multiple (R241). -/
theorem windowedMul_eq_scalarMul {w : TblWidth} (hw : w ≠ .none) (k : Word) :
    windowedMul w k = normTriple (scalarMul k genTriple) := by
  have := Fact.mk fieldP_prime
  obtain ⟨G, hG⟩ := exists_denotes valid_gen
  obtain ⟨hnormal, hdenotes⟩ := norm_scalarMul_spec valid_gen hG k
  exact normal_unique (normal_normTriple _) hnormal (denotes_windowedMul hw hG k) hdenotes

/-- Settles O57: PMULG writes `normTriple (scalarMul k G)`, which is the window method's result by `windowedMul_eq_scalarMul`. -/
theorem windowMethodAgrees : Obligations.WindowMethodAgrees := by
  intro w pd wk s hw hk
  refine ⟨_, exec_pmulg_ok hk pd, ?_⟩
  rw [getP_complete, setPInf, getP_setInf, getP_setP_same, windowedMul_eq_scalarMul hw]

end Sys2Proof.Machine
end

section
/-! SUPPORT. The nonce generator NINIT and NGEN (spec/46_nonce_generator.md R260 to R263): what each outcome of their HMAC calls
makes of the command, and NGEN's loop over refused candidates. -/

namespace Sys2Proof.Machine

open Sys2Proof.Spec

/-! ### NGEN (R262)

A turn of NGEN goes by three answers: where its loop stands (`ngenStart`), the candidate's HMAC call, and the update after a refused
candidate (`refuseCandidate`). -/

/-- NGEN needs NINIT. -/
theorem exec_ngen_notReady {s : State} (h : s.ngReady = false) (wk : WReg) :
    exec (.ngen wk) s = .next (failed .nonceState (encode (.ngen wk)) s) := if_pos h

/-- A later NGEN waits while the update at its start is not answered (R363). -/
theorem exec_ngen_start_waits {s : State} (hready : s.ngReady = true) (hstart : ngenStart s = none) (wk : WReg) :
    exec (.ngen wk) s = .next s := by
  show execNgen wk s = .next s
  simp [execNgen, wait, hready, hstart]

section
variable {s : State} {K V : Word} (hready : s.ngReady = true) (hstart : ngenStart s = some (K, V))
include hready hstart

/-- NGEN waits while the candidate's call is not answered (R363). -/
theorem exec_ngen_candidate_waits (hcall : hmacAnswer s K (bytes32 V) = none) (wk : WReg) :
    exec (.ngen wk) s = .next s := by
  show execNgen wk s = .next s
  simp [execNgen, wait, hready, hstart, be32_eq, hcall]

/-- What an answered candidate makes of the turn: in range it completes the command, else the update decides (R262). -/
theorem exec_ngen_answered {k : Word} (hcall : hmacAnswer s K (bytes32 V) = some k) (wk : WReg) :
    exec (.ngen wk) s = if k ≠ 0 ∧ k.toNat < orderN
      then .next (completed (writeW wk k { s with ngK := K, ngV := k, ngFirst := false }))
      else (refuseCandidate s K k).elim (.next s) fun kv => .next { s with ngWork := some kv } := by
  show execNgen wk s = _
  rw [execNgen, if_neg (by simp [hready]), hstart]
  simp only [be32_eq, hcall]
  cases refuseCandidate s K k <;> rfl

/-- A candidate in range completes the command (R262). -/
theorem exec_ngen_accepts {k : Word} (hcall : hmacAnswer s K (bytes32 V) = some k) (hin : InRange k) (wk : WReg) :
    exec (.ngen wk) s = .next (completed (writeW wk k { s with ngK := K, ngV := k, ngFirst := false })) :=
  (exec_ngen_answered hready hstart hcall wk).trans (if_pos ((inRange_iff k).2 hin))

/-- A candidate out of range leaves the loop's next key and value, when the update is answered (R262, 3.2 h.3). -/
theorem exec_ngen_refuses {k : Word} {kv : Word × Word} (hcall : hmacAnswer s K (bytes32 V) = some k)
    (hout : ¬ InRange k) (hupdate : refuseCandidate s K k = some kv) (wk : WReg) :
    exec (.ngen wk) s = .next { s with ngWork := some kv } := by
  rw [exec_ngen_answered hready hstart hcall wk, if_neg ((inRange_iff k).not.2 hout), hupdate, Option.elim_some]

/-- After a candidate out of range NGEN waits while the update is not answered (R363). -/
theorem exec_ngen_update_waits {k : Word} (hcall : hmacAnswer s K (bytes32 V) = some k) (hout : ¬ InRange k)
    (hupdate : refuseCandidate s K k = none) (wk : WReg) : exec (.ngen wk) s = .next s := by
  rw [exec_ngen_answered hready hstart hcall wk, if_neg ((inRange_iff k).not.2 hout), hupdate, Option.elim_none]

end

/-- The words of opcode 0x61 (R105, R106). -/
theorem ngenWords :
    CommandWords 0x61 (fun (wk : WReg) => cmdWord 0x61 0 (wField wk) 0 0 0) (fun wk => .ngen wk) :=
  commandWords_of_op (op := .ngen) rfl (fun _ => rfl) (fun _ => rfl) fun _ _ => ⟨_, rfl⟩

/-- Settles O59: the words by `ngenWords`; each outcome by its `exec_ngen` lemma, the start by `ngenStart_of`. -/
theorem ngenTurn : Obligations.NgenTurn := by
  refine ⟨ngenWords, fun wk s => ⟨fun h => exec_ngen_notReady h wk, fun hready hwork hfirst hupdate => ?startWaits,
    fun K V hready hloop => ?candidate⟩⟩
  case startWaits => exact exec_ngen_start_waits hready (ngenStart_eq_none hwork hfirst hupdate) wk
  case candidate =>
    have hstart : ngenStart s = some (K, V) := ngenStart_of hloop
    exact ⟨fun k hcall hin => exec_ngen_accepts hready hstart hcall hin wk,
      fun k K' V' hcall hout hK hV =>
        exec_ngen_refuses hready hstart hcall hout (refuseCandidate_eq_some hK hV) wk,
      fun hcall => exec_ngen_candidate_waits hready hstart hcall wk,
      fun k hcall hout hupdate =>
        exec_ngen_update_waits hready hstart hcall hout (refuseCandidate_eq_none_iff.2 hupdate) wk⟩

/-! ### NGEN's loop (R262, R263) -/

/-- A ready NGEN is in flight, its loop stands at (K, V), and no event comes before the engine (log 2). -/
structure NgenInFlight (wk : WReg) (s : State) (K V : Word) : Prop where
  events : s.events = []
  pending : s.pending = some (cmdWord 0x61 0 (wField wk) 0 0 0)
  ready : s.ngReady = true
  start : ngenStart s = some (K, V)

/-- Every step is then a turn of that NGEN. -/
theorem NgenInFlight.step_eq {wk : WReg} {s : State} {K V : Word} (h : NgenInFlight wk s K V) :
    step s = exec (.ngen wk) s :=
  (step_nil h.events).trans (ngenWords.1 wk s h.pending)

/-- A refused candidate leaves the NGEN in flight, at the updated (K, V) (log 4). -/
theorem NgenInFlight.refused {wk : WReg} {s : State} {K V : Word} (h : NgenInFlight wk s K V) (K' V' : Word) :
    NgenInFlight wk { s with ngWork := some (K', V') } K' V' :=
  ⟨h.events, h.pending, h.ready, rfl⟩

/-- However many candidates are refused, the run ends with the first one in range. The loop's position `ngWork`, all that the
refusing turns change, is cleared by the completion. -/
theorem run_of_candidate {wk : WReg} {hmac : Word → List Byte → Option Word} {n : Nat} {K V K' k : Word}
    (hcand : Candidate hmac n K V K' k) : ∀ {s : State}, hmacAnswer s = hmac → NgenInFlight wk s K V →
      Host.Core.run Sys2Proof.core (n + 1) s =
        .next (completed (writeW wk k { s with ngK := K', ngV := k, ngFirst := false })) := by
  induction hcand with
  | accept hcall hin =>
    rintro s rfl hfly
    exact run_succ 0 (hfly.step_eq.trans (exec_ngen_accepts hfly.ready hfly.start hcall hin wk))
  | refuse hcall hout hK hV _ ih =>
    rintro s rfl hfly
    have hturn := exec_ngen_refuses hfly.ready hfly.start hcall hout (refuseCandidate_eq_some hK hV) wk
    exact (run_succ _ (hfly.step_eq.trans hturn)).trans (ih rfl (hfly.refused _ _))

/-- Settles O60, by induction over the refused candidates (`run_of_candidate`). -/
theorem ngenReturnsFirstCandidateInRange : Obligations.NgenReturnsFirstCandidateInRange := by
  intro n wk s K V K' k hevents hpending hready hwork hloop hcand
  exact run_of_candidate hcand rfl ⟨hevents, hpending, hready, ngenStart_of (.inr ⟨hwork, hloop⟩)⟩

/-! ### NINIT (R260, R261) -/

/-- The extra entropy is there exactly with E = 1, and RD is 0 without it (R106 item 6). -/
theorem legalExtra_iff (e : Bool) (we : WReg) :
    legalExtra e we = true ↔ ∃ x : Option WReg, e = x.isSome ∧ we = x.getD 0 := by
  constructor
  · intro h
    cases e with
    | true => exact ⟨some we, rfl, rfl⟩
    | false => exact ⟨none, rfl, by simpa [legalExtra] using h⟩
  · rintro ⟨x, rfl, rfl⟩
    cases x <;> rfl

/-- The words of opcode 0x60 (R105, R106). -/
theorem ninitWords :
    CommandWords 0x60 (fun (x : Option WReg × WReg × WReg) =>
        cmdWord 0x60 0 (wField (x.1.getD 0)) (wField x.2.1) (wField x.2.2) (if x.1.isSome then 1 else 0))
      (fun x => .ninit x.1.isSome (x.1.getD 0) x.2.1 x.2.2) := by
  refine commandWords_of_op (op := .ninit) rfl (fun _ => rfl) (fun x => (legalExtra_iff _ _).2 ⟨x.1, rfl, rfl⟩)
    (fun f hf => ?listed)
  case listed =>
    obtain ⟨x, he, hwe⟩ := (legalExtra_iff (f.imm.getLsbD 0) (wregOfBits f.rd)).1 hf
    exact ⟨(x, wregOfBits f.rs1, wregOfBits f.rs2), by rw [← he, ← hwe]; rfl⟩

/-- A sequence of two calls has no answer exactly when the first has none or the second, after the first's answer, has none. -/
theorem bind_eq_none_iff_exists {α β : Type} {o : Option α} {f : α → Option β} :
    o >>= f = none ↔ o = none ∨ ∃ a, o = some a ∧ f a = none := by
  cases o <;> simp

/-- V's first value as a byte string (R261, 3.2 b). -/
theorem bytes32_initialV : bytes32 initialV = List.replicate 32 (0x01 : Byte) := (be32_eq initialV).symm.trans ones_eq

/-- All four calls are answered (R261, 3.2 d to g). -/
theorem ninitCalls_eq_some {s : State} {seed : List Byte} {k1 v1 k2 v2 : Word}
    (hk1 : hmacAnswer s 0 (List.replicate 32 0x01 ++ [0x00] ++ seed) = some k1)
    (hv1 : hmacAnswer s k1 (List.replicate 32 0x01) = some v1)
    (hk2 : hmacAnswer s k1 (bytes32 v1 ++ [0x01] ++ seed) = some k2) (hv2 : hmacAnswer s k2 (bytes32 v1) = some v2) :
    ninitCalls s seed = some (k2, v2) := by
  simp only [ninitCalls, be32_eq, bytes32_initialV, Option.bind_eq_bind, hk1, hv1, hk2, hv2, Option.bind_some,
    Option.pure_def]

/-- One of NINIT's four calls has no answer (R261, R363). -/
def NinitUnanswered (s : State) (seed : List Byte) : Prop :=
  hmacAnswer s 0 (List.replicate 32 0x01 ++ [0x00] ++ seed) = none ∨
    ∃ k1, hmacAnswer s 0 (List.replicate 32 0x01 ++ [0x00] ++ seed) = some k1 ∧
      (hmacAnswer s k1 (List.replicate 32 0x01) = none ∨ ∃ v1, hmacAnswer s k1 (List.replicate 32 0x01) = some v1 ∧
        (hmacAnswer s k1 (bytes32 v1 ++ [0x01] ++ seed) = none ∨
          ∃ k2, hmacAnswer s k1 (bytes32 v1 ++ [0x01] ++ seed) = some k2 ∧ hmacAnswer s k2 (bytes32 v1) = none))

theorem ninitCalls_eq_none_iff {s : State} {seed : List Byte} : ninitCalls s seed = none ↔ NinitUnanswered s seed := by
  simp only [ninitCalls, NinitUnanswered, be32_eq, bytes32_initialV, bind_eq_none_iff_exists, Option.pure_def,
    reduceCtorEq, and_false, exists_false, or_false]

/-- A word that is listed for NINIT is not illegal by its RD (R106 item 6). -/
theorem not_illegal_extra (x : Option WReg) : ¬ (x.isSome = false ∧ x.getD 0 ≠ 0) := by
  cases x <;> simp

/-- The message's `x || hb || e` for NINIT's operands (R260). -/
theorem ninit_seed (x : Option WReg) (d h : Word) (s : State) :
    seedBytes d h (if x.isSome then some (getW s (x.getD 0)) else none) = seedOf d h (x.map (getW s)) := by
  rw [seed_eq]
  cases x <;> rfl

/-- NINIT of a key outside [1, N) (R261). -/
theorem exec_ninit_badKey {wd : WReg} {s : State} (hbad : getW s wd = 0 ∨ orderN ≤ (getW s wd).toNat) (x : Option WReg)
    (wh : WReg) : exec (.ninit x.isSome (x.getD 0) wd wh) s =
      .next (failed .invalidPrivateKey (encode (.ninit x.isSome (x.getD 0) wd wh)) s) := by
  show execNinit _ _ _ _ s = _
  simp only [execNinit, if_neg (not_illegal_extra x), readPrivateKey_error hbad]
  rfl

/-- NINIT of a legal key goes by its calls alone: answered, it keeps the last key and value; else it waits (R261, R363). -/
theorem exec_ninit_ok {wd : WReg} {s : State} (hkey : InRange (getW s wd)) (x : Option WReg) (wh : WReg) :
    exec (.ninit x.isSome (x.getD 0) wd wh) s =
      (ninitCalls s (seedOf (getW s wd) (getW s wh) (x.map (getW s)))).elim (.next s) fun last =>
        .next (completed { s with ngK := last.1, ngV := last.2, ngReady := true, ngFirst := true }) := by
  obtain ⟨hne, hlt⟩ := (inRange_iff _).2 hkey
  show execNinit _ _ _ _ s = _
  simp only [execNinit, if_neg (not_illegal_extra x), readPrivateKey_ok hne hlt, ninit_seed]
  cases ninitCalls s (seedOf (getW s wd) (getW s wh) (x.map (getW s))) <;> rfl

/-- Settles O58: the words by `ninitWords`; a legal key by `exec_ninit_ok` and the outcome of the four calls, another by
`exec_ninit_badKey`. -/
theorem ninitResult : Obligations.NinitResult := by
  refine ⟨ninitWords, fun x wd wh s => ⟨fun hpos hlt => ⟨fun k1 v1 k2 v2 hk1 hv1 hk2 hv2 => ?answered,
    fun hnone => ?waits⟩, fun hbad => ?badKey⟩⟩
  case answered => rw [exec_ninit_ok ⟨hpos, hlt⟩, ninitCalls_eq_some hk1 hv1 hk2 hv2, Option.elim_some]
  case waits => rw [exec_ninit_ok ⟨hpos, hlt⟩, ninitCalls_eq_none_iff.2 hnone, Option.elim_none]
  case badKey =>
    rw [toNat_eq_zero_iff] at hbad
    exact exec_ninit_badKey hbad x wh

end Sys2Proof.Machine
end

section
/-! SUPPORT. Errors (spec/60_exceptions.md R301): whether a completion raises an error, and which, does not depend on the error
record, so the completion from a cleared record tells what the one from the state itself does. -/

namespace Sys2Proof.Machine

open Sys2Proof.Spec

/-- A state agrees with itself after its ERR is cleared, but for the record. -/
theorem sameButRecord_clear (s : State) : SameButRecord { s with err := false } s := ⟨rfl, rfl⟩

/-- With ERR clear the record takes the code raised (R35). -/
theorem recordError_errcode_of_clear {s : State} (h : s.err = false) (c : ErrCode) (word : Bus) :
    (recordError c word s).errcode = c := by
  rw [recordError_of_clear h]

/-- From states that agree but for the record, a command ends alike, or is an NGEN that goes on to the same candidate (log 4). -/
theorem exec_twin_of_sameButRecord {s t : State} (h : SameButRecord s t) (i : Instr) :
    Twin SameButRecord i s t ∨
      ∃ kv, exec i s = .next { s with ngWork := some kv } ∧ exec i t = .next { t with ngWork := some kv } := by
  by_cases hngen : ∃ wk, i = .ngen wk
  · obtain ⟨wk, rfl⟩ := hngen
    obtain ⟨hclear, ht⟩ := h
    exact ngen_alike alike_err ⟨hclear, ht⟩ wk (by rw [ht]) (by rw [ht]) (by rw [ht]) (by rw [ht]) (by rw [ht])
      fun _ _ => ⟨hclear, by rw [ht]; rfl⟩
  · exact .inl (exec_alike alike_err h i fun wk hi => hngen ⟨wk, hi⟩)

/-- A command that raises an error with ERR clear raises it whatever the record holds, and writes nothing (R301): of its
outcomes only the error sets ERR. -/
theorem exec_failed_of_clear {i : Instr} {s t u : State} (h : SameButRecord s t) (hu : exec i s = .next u)
    (herr : u.err = true) : exec i t = .next (failed u.errcode (encode i) t) := by
  have hclear : s.err = false := h.1
  rcases exec_twin_of_sameButRecord h i with htwin | ⟨kv, hs, -⟩
  · cases htwin with
    | commit r r' hs ht hsame =>
      rw [hs] at hu
      cases hsame with
      | ok hwrote =>
        cases hu
        exact absurd (herr.symm.trans hwrote.1) (by decide)
      | error c =>
        cases hu
        rw [ht, complete_errcode, recordError_errcode_of_clear hclear]
        rfl
    | wait hs ht =>
      cases hs.symm.trans hu
      exact absurd (herr.symm.trans hclear) (by decide)
  · cases hs.symm.trans hu
    exact absurd (herr.symm.trans hclear) (by decide)

/-- Settles O10: an illegal word always completes with ILLEGAL_CMD; a legal one fails alike by `exec_failed_of_clear`, and is its
command's encoding. -/
theorem failedCommandWritesNothing : Obligations.FailedCommandWritesNothing := by
  intro c s t hp ht herr
  have hp' : State.pending { s with err := false } = some c := hp
  cases hd : decode c with
  | error e =>
    rw [engineTurn_of_decode_error hp' hd] at ht
    cases ht
    exact engineTurn_of_decode_error hp hd
  | ok i =>
    obtain ⟨-, hword⟩ := encode_of_decode hd
    rw [engineTurn_eq, engineStep_ok hp' hd] at ht
    rw [engineTurn_eq, engineStep_ok hp hd, ← hword]
    exact exec_failed_of_clear (sameButRecord_clear s) ht herr

end Sys2Proof.Machine
end

section
/-! SUPPORT. Command words (spec/30_encoding.md R101 to R109): the round trip between commands and words, and the words of
spec/opcode_table.json as the words that decode. -/

namespace Sys2Proof.Machine

open Sys2Proof.Spec

/-! ### The round trip -/

/-- A well-formed command's word decodes to it (R106). -/
theorem decode_encode {i : Instr} (h : i.wellFormed = true) : decode (encode i) = .ok i :=
  (decode_join _).trans (decodeFields_encodeFields i h)

/-- Settles O1: the word says what the fields say, and the fields of every well-formed command decode to it. -/
theorem decodeEncodeRoundTrip : Obligations.DecodeEncodeRoundTrip := fun _ h => decode_encode h

/-- Settles O2, by `encode_of_decode`: no field of a word that decodes is ignored. -/
theorem oneWordPerCommand : Obligations.OneWordPerCommand := fun _ _ h => encode_of_decode h

/-! ### The opcode table and the decoder -/

/-- What a note of the opcode table asks of a row's fields beyond its mask, by the row's class of immediate (R104). -/
def NoteHolds (k : ImmClass) (f : Fields) : Prop :=
  match k with
  | .constIndex => f.imm.toNat < 12
  | .width => f.imm = 0 ∨ f.imm = 4 ∨ f.imm = 8
  | .extra => f.imm.extractLsb' 0 1 = 0 → f.rd = 0
  | _ => True

/-- The fixed bits of an immediate together with its note are items 5 and 6 of R106. -/
theorem immLegal_iff_mask (r : Row) (f : Fields) :
    (f.imm &&& (maskOf r).imm = 0 ∧ NoteHolds r.imm f) ↔
      (immLegal r.imm f.imm = true ∧ (r.imm = .extra → f.imm = 0 → f.rd = 0)) := by
  obtain ⟨op, opc, takesM, rd, rs1, rs2, k⟩ := r
  obtain ⟨fopc, m, rsv, frd, frs1, frs2, imm⟩ := f
  cases k <;> simp only [NoteHolds, maskOf, reduceCtorEq, false_implies, true_implies, and_true]
  case extra => revert imm frd; decide
  all_goals revert imm; decide

/-- Item 3 of R106 by the mask: a row without M fixes bit 23 to 0. -/
theorem modulusBit_iff_mask (r : Row) (m : BitVec 1) : m &&& (maskOf r).m = 0 ↔ (r.takesM = false → m = 0) := by
  show m &&& (if r.takesM then 0 else 1) = 0 ↔ (r.takesM = false → m = 0)
  cases r.takesM <;> revert m <;> decide

/-- No item of R106 fails exactly when every item holds. -/
theorem rowReject_eq_none_iff {r : Row} {f : Fields} : rowReject r f = none ↔
    f.rsv = 0 ∧ (r.takesM = false → f.m = 0) ∧ fieldReject r.rd f.rd = none ∧ fieldReject r.rs1 f.rs1 = none ∧
      fieldReject r.rs2 f.rs2 = none ∧ immLegal r.imm f.imm = true ∧ (r.imm = .extra → f.imm = 0 → f.rd = 0) := by
  refine ⟨rowReject_none, fun ⟨hrsv, hm, hrd, hrs1, hrs2, himm, hextra⟩ => ?_⟩
  have hm' : ¬ (r.takesM = false ∧ f.m ≠ 0) := fun h => h.2 (hm h.1)
  have hextra' : ¬ (r.imm = .extra ∧ f.imm = 0 ∧ f.rd ≠ 0) := fun h => h.2.2 (hextra h.1 h.2.1)
  simp only [rowReject, hrsv, hm', hrd, hrs1, hrs2, himm, hextra', ne_eq, not_true_eq_false, if_false, reduceCtorEq]

/-- The three notes name their opcodes, which are the rows with those classes of immediate (R104, R105). -/
theorem extraLegal_iff {c : Bus} {r : Row} (hr : r ∈ opcodeMap) (hopc : (Fields.split c).opc = r.opc) :
    ExtraLegal c ↔ NoteHolds r.imm (Fields.split c) := by
  have hclass : ∀ r ∈ opcodeMap, (r.opc = 0x02 ↔ r.imm = .constIndex) ∧ (r.opc = 0x50 ↔ r.imm = .width) ∧
      (r.opc = 0x60 ↔ r.imm = .extra) := by decide
  obtain ⟨hconst, hwidth, hextra⟩ := hclass r hr
  have hopc' : c.extractLsb' 24 8 = r.opc := hopc
  have hE : (Fields.split c).imm.extractLsb' 0 1 = c.extractLsb' 0 1 := by
    ext i hi
    simp [Fields.split]
  unfold ExtraLegal NoteHolds
  rw [hopc', hconst, hwidth, hextra, hE]
  cases r.imm <;> simp [Fields.split]

/-- A word matches a row and meets the notes exactly when it has the row's opcode and fails no item of R106. -/
theorem matches_and_extraLegal_iff {c : Bus} {r : Row} (hr : r ∈ opcodeMap) :
    (c &&& (maskOf r).join = (⟨r.opc, 0, 0, 0, 0, 0, 0⟩ : Fields).join ∧ ExtraLegal c) ↔
      ((Fields.split c).opc = r.opc ∧ rowReject r (Fields.split c) = none) := by
  rw [matches_row_iff, rowReject_eq_none_iff, modulusBit_iff_mask]
  constructor
  · rintro ⟨⟨hopc, hm, hrsv, hrd, hrs1, hrs2, hmask⟩, hnotes⟩
    have himm := (immLegal_iff_mask r _).1 ⟨hmask, (extraLegal_iff hr hopc).1 hnotes⟩
    exact ⟨hopc, hrsv, hm, hrd, hrs1, hrs2, himm⟩
  · rintro ⟨hopc, hrsv, hm, hrd, hrs1, hrs2, himm⟩
    obtain ⟨hmask, hnote⟩ := (immLegal_iff_mask r _).2 himm
    exact ⟨⟨hopc, hm, hrsv, hrd, hrs1, hrs2, hmask⟩, (extraLegal_iff hr hopc).2 hnote⟩

/-- No two rows have one opcode (R105), so a row of the map is the one the decoder finds. -/
theorem rowOf_opc {r : Row} (hr : r ∈ opcodeMap) : rowOf r.opc = some r := by
  revert r; decide

/-- The decoder accepts a word exactly when a row of the map has its opcode and rejects nothing (R106). -/
theorem decode_isOk_iff (c : Bus) : (∃ i, decode c = .ok i) ↔
    ∃ r ∈ opcodeMap, (Fields.split c).opc = r.opc ∧ rowReject r (Fields.split c) = none := by
  constructor
  · rintro ⟨i, hi⟩
    obtain ⟨r, hrow, hrej, -⟩ := decodeFields_ok hi
    obtain ⟨hmem, hopc⟩ := rowOf_some hrow
    exact ⟨r, hmem, hopc.symm, hrej⟩
  · rintro ⟨r, hmem, hopc, hrej⟩
    exact ⟨_, decodeFields_of (hopc ▸ rowOf_opc hmem) hrej⟩

/-- The legal words of spec/opcode_table.json are the words that decode. -/
theorem legalWord_iff (c : Bus) : LegalWord c ↔ ∃ i, decode c = .ok i := by
  calc LegalWord c
      ↔ ∃ r ∈ opcodeMap, c &&& (maskOf r).join = (⟨r.opc, 0, 0, 0, 0, 0, 0⟩ : Fields).join ∧ ExtraLegal c := by
        simp only [LegalWord, table_rows, List.mem_map, exists_exists_and_eq_and, exists_and_right, ← and_assoc]
    _ ↔ ∃ r ∈ opcodeMap, (Fields.split c).opc = r.opc ∧ rowReject r (Fields.split c) = none :=
        exists_congr fun _ => and_congr_right matches_and_extraLegal_iff
    _ ↔ ∃ i, decode c = .ok i := (decode_isOk_iff c).symm

/-- Settles O3: a legal word decodes (`legalWord_iff`) and its command is performed; any other word is rejected. -/
theorem legalWordsAreTheOpcodeTable : Obligations.LegalWordsAreTheOpcodeTable := by
  refine fun c => ⟨fun hlegal => ?legal, fun hillegal s hp => ?illegal⟩
  case legal =>
    obtain ⟨i, hi⟩ := (legalWord_iff c).1 hlegal
    exact ⟨i, hi, fun s hp => engineStep_ok hp hi⟩
  case illegal =>
    cases hd : decode c with
    | ok i => exact absurd ((legalWord_iff c).2 ⟨i, hd⟩) hillegal
    | error e => exact engineTurn_of_decode_error hp hd

end Sys2Proof.Machine
end

section
/-! SUPPORT. The invariant of the whole machine (spec/10_state.md R33, R35, R39 to R42, R46, R47): its four parts, and that every
kind of step keeps it. -/

namespace Sys2Proof.Machine

open Sys2Proof.Spec

/-! ### The parts of the invariant -/

/-- ERR = 0 with an empty record, or ERR = 1 with a real code (R35, R300). -/
def RecordOk (s : State) : Prop :=
  (s.err = false → s.errcode = .noError ∧ s.errcmd = 0) ∧ (s.err = true → s.errcode ≠ .noError)

/-- The table is the one TBL_VALID and TBL_W tell of (R40). -/
def TableOk (s : State) : Prop := (s.tblValid = true ↔ s.tblW ≠ .none) ∧ s.tbl = table s.tblW

/-- Without NINIT the nonce state is clear (R41, R47). -/
def NonceOk (s : State) : Prop := s.ngReady = false → s.ngK = 0 ∧ s.ngV = 0 ∧ s.ngFirst = false

/-- DONE and LASTCMD of a command in flight (R39, R46), and the command a candidate loop belongs to (log 4). -/
def FlightOk (s : State) : Prop :=
  (∀ c, s.pending = some c → s.done = false ∧ s.lastcmd = c) ∧
  (s.ngWork ≠ none → s.ngReady = true ∧ ∃ wk, s.pending = some (cmdWord 0x61 0 (wField wk) 0 0 0))

theorem inv_iff (s : State) : Inv s ↔ RecordOk s ∧ TableOk s ∧ NonceOk s ∧ FlightOk s := by
  simp only [Spec.Inv, RecordOk, TableOk, NonceOk, FlightOk, and_assoc]

theorem flightOk_of_idle {s : State} (hp : s.pending = none) (hw : s.ngWork = none) : FlightOk s :=
  ⟨fun c hc => by simp [hp] at hc, fun h => absurd hw h⟩

/-! ### Errors and completions -/

/-- The first error makes a full record, a later one leaves it (R35). -/
theorem RecordOk.recordError {s : State} (h : RecordOk s) {c : ErrCode} (hc : c ≠ .noError) (word : Bus) :
    RecordOk (recordError c word s) := by
  cases herr : s.err with
  | true => rwa [recordError_of_err herr]
  | false =>
    rw [recordError_of_clear herr]
    exact ⟨nofun, fun _ => hc⟩

theorem ovf_ne_noError (m : Modulus) : .noError ≠ ovf m := by cases m <;> decide

/-- No command raises the code of no error (R300). -/
theorem noError_notMem_mayRaise (i : Instr) : .noError ∉ mayRaise i := by
  cases i <;> simp [mayRaise, ovf_ne_noError]

/-- What a command writes leaves the record alone. -/
theorem Wrote.recordOk {i : Instr} {s u : State} (h : Wrote i s u) (hs : RecordOk s) : RecordOk u := by
  obtain ⟨herr, hcode, hcmd⟩ := h.record
  rw [RecordOk, herr, hcode, hcmd]
  exact hs

/-- What a command writes keeps the table or builds a whole one. -/
theorem Wrote.tableOk {i : Instr} {s u : State} (h : Wrote i s u) (hs : TableOk s) : TableOk u := by
  rcases h.built with ⟨hvalid, hwidth, htbl⟩ | ⟨hvalid, htbl⟩
  · rw [TableOk, hvalid, hwidth, htbl]
    exact hs
  · exact ⟨by rw [hvalid, decide_eq_true_iff], htbl.trans (tableEntries_eq_table _)⟩

/-- What a command writes makes the nonce state ready, clears it or leaves it. -/
theorem Wrote.nonceOk {i : Instr} {s u : State} (h : Wrote i s u) (hs : NonceOk s) : NonceOk u := by
  intro hnot
  rcases h.clear with hready | hclear | ⟨hready, hk, hv, hfirst⟩
  · exact absurd hready (by simp [hnot])
  · exact hclear
  · rw [hk, hv, hfirst]
    exact hs (hready ▸ hnot)

/-- After a completion no command is in flight (R45). -/
theorem inv_complete {s : State} (hr : RecordOk s) (ht : TableOk s) (hn : NonceOk s) : Inv (complete s) :=
  (inv_iff _).2 ⟨hr, ht, hn, flightOk_of_idle rfl rfl⟩

/-- Recording an error keeps the invariant: it writes nothing but the record. -/
theorem inv_recordError {s : State} (hs : Inv s) {c : ErrCode} (hc : c ≠ .noError) (word : Bus) :
    Inv (recordError c word s) := by
  obtain ⟨hrec, htab, hnonce, hflight⟩ := (inv_iff s).1 hs
  refine (inv_iff _).2 ⟨hrec.recordError hc word, ?_, ?_, ?_⟩
  · simpa [TableOk] using htab
  · simpa [NonceOk] using hnonce
  · simpa [FlightOk] using hflight

/-- A completion with an error keeps the invariant (R301). -/
theorem inv_complete_recordError {s : State} (hs : Inv s) {c : ErrCode} (hc : c ≠ .noError) (word : Bus) :
    Inv (complete (recordError c word s)) := by
  obtain ⟨hrec, htab, hnonce, -⟩ := (inv_iff _).1 (inv_recordError hs hc word)
  exact inv_complete hrec htab hnonce

/-! ### The engine's turn -/

/-- A command whose word is in flight keeps the invariant, by its outcomes. -/
theorem exec_keeps_inv {i : Instr} {s t : State} (hs : Inv s) (hp : s.pending = some (encode i))
    (h : exec i s = .next t) : Inv t := by
  obtain ⟨hrec, htab, hnonce, hflight, -⟩ := (inv_iff s).1 hs
  rcases outcomes_of_exec h with ⟨u, hu, rfl⟩ | ⟨c, hc, rfl⟩ | ⟨-, rfl | ⟨wk, kv, rfl, hready, rfl⟩⟩
  · exact inv_complete (hu.recordOk hrec) (hu.tableOk htab) (hu.nonceOk hnonce)
  · refine inv_complete_recordError hs (fun h0 => ?_) _
    subst h0
    exact hc.elim (noError_notMem_mayRaise i) fun hill => nomatch hill.1
  · exact hs
  · exact (inv_iff _).2 ⟨hrec, htab, hnonce, hflight, fun _ => ⟨hready, wk, hp⟩⟩

theorem engineStep_keeps_inv {s t : State} (hs : Inv s) (h : engineStep s = .next t) : Inv t := by
  cases hp : s.pending with
  | none =>
    rw [engineStep_idle hp] at h
    cases h
    exact hs
  | some c =>
    rcases engineStep_cases hp with ⟨hbad, -⟩ | ⟨i, u, hd, hu, hexec, -⟩
    · rw [hbad] at h
      cases h
      exact inv_complete_recordError hs (by decide) c
    · rw [hu] at h
      cases h
      rw [← (encode_of_decode hd).2] at hp
      exact exec_keeps_inv hs hp hexec

/-! ### The host's writes and resets -/

/-- Settles O17: nothing is recorded, built, initialised or in flight. -/
theorem invariantAtReset : Obligations.InvariantAtReset :=
  (inv_iff _).2 ⟨⟨fun _ => ⟨rfl, rfl⟩, nofun⟩, ⟨by decide, rfl⟩, fun _ => ⟨rfl, rfl, rfl⟩, flightOk_of_idle rfl rfl⟩

/-- The invariant does not speak of the environment's fields. -/
theorem inv_resetBlock (s : State) : Inv (resetBlock s) := invariantAtReset

/-- A write of STATUS clears the record whole, and DONE of no command in flight (R34, R35). -/
theorem inv_writeStatus {s : State} (hs : Inv s) (v : Bus) : Inv (writeStatus v s) := by
  obtain ⟨⟨hclear, hset⟩, htab, hnonce, hpending, hwork⟩ := (inv_iff s).1 hs
  rw [writeStatus_fields]
  refine (inv_iff _).2 ⟨?_, htab, hnonce, fun c hc => ?_, hwork⟩
  · cases hbit : v.getLsbD 2
    · simpa [RecordOk] using ⟨hclear, hset⟩
    · simp [RecordOk]
  · obtain ⟨hdone, hlast⟩ := hpending c hc
    exact ⟨by simp [hdone], hlast⟩

/-- An issue clears DONE and sets LASTCMD with the word (R46). -/
theorem inv_issue {s : State} (hs : Inv s) (c : Bus) : Inv (issue c s) := by
  obtain ⟨hrec, htab, hnonce, -⟩ := (inv_iff s).1 hs
  refine (inv_iff _).2 ⟨hrec, htab, hnonce, fun d hd => ⟨rfl, ?_⟩, fun h => absurd rfl h⟩
  exact Option.some.inj hd

theorem writeReg_keeps_inv {s : State} (hs : Inv s) (r : Reg) (v : Bus) : Inv (writeReg r v s) := by
  have hwrote := writeReg_hostWrote r v s
  generalize writeReg r v s = t at hwrote
  cases hwrote with
  | same | enable | word | point => exact hs
  | reset => exact inv_resetBlock s
  | status => exact inv_writeStatus hs v
  | issue => exact inv_issue hs v
  | overrun => exact inv_recordError hs (by decide) v
  | busy _ _ off => exact inv_recordError hs (by decide) off

/-- Settles O16, by the kind of step. -/
theorem invariantKept : Obligations.InvariantKept := by
  intro s t hs h
  rcases step_cases h with ⟨-, h⟩ | ⟨rest, -, h⟩ | ⟨rest, -, rfl⟩ | ⟨a, rest, d, -, rfl⟩ | ⟨a, v, rest, r, -, -, rfl⟩
  · exact engineStep_keeps_inv hs h
  · exact engineStep_keeps_inv (s := { s with events := rest }) hs h
  · exact inv_resetBlock _
  · exact hs
  · exact writeReg_keeps_inv (s := { s with events := rest }) hs r v

end Sys2Proof.Machine
end

section
/-! SUPPORT. Host transactions (spec/20_memory.md R61 to R74): the three answers to a read and to a write, and what the writes of the
register map do while a command is in flight and while none is. -/

namespace Sys2Proof.Machine

open Sys2Proof.Spec

/-! ### The three answers (R61 to R63) -/

theorem accessShaped_of {a : BusAccess} (hsize : a.size = 4) (halign : a.off.toNat % 4 = 0) : accessShaped a = true := by
  simp [accessShaped, hsize, halign]

theorem writeShaped_of {a : BusAccess} (hsize : a.size = 4) (halign : a.off.toNat % 4 = 0) (hstrobe : a.strobe = 0xF) :
    (accessShaped a && a.strobe == 0xF) = true := by
  simp [accessShaped_of hsize halign, hstrobe]

/-- A listed offset selects a register (R64). -/
theorem exists_regAt_of_listed {off : BitVec 12} (h : Listed off) : ∃ r, regAt off = some r :=
  Option.ne_none_iff_exists'.1 fun hnone => (regAt_none_iff off).1 hnone h

theorem busRead_unmapped {a : BusAccess} (hs : accessShaped a = true) (hr : regAt a.off = none) (s : State) :
    busRead a s = .error .unmapped := by
  simp [busRead, hs, hr]

theorem busRead_reg {a : BusAccess} {r : Reg} (hs : accessShaped a = true) (hr : regAt a.off = some r) (s : State) :
    busRead a s = .data (readReg s r) := by
  simp [busRead, hs, hr]

theorem hostRead_misshaped {a : BusAccess} (hs : accessShaped a = false) (s : State) :
    hostRead a s = .fault (.busShape a.off) := by
  rw [hostRead, busRead_misshaped s hs]
  rfl

theorem hostRead_unmapped {a : BusAccess} (hs : accessShaped a = true) (hr : regAt a.off = none) (s : State) :
    hostRead a s = .fault (.busUnmapped a.off) := by
  rw [hostRead, busRead_unmapped hs hr]
  rfl

theorem hostRead_reg {a : BusAccess} {r : Reg} (hs : accessShaped a = true) (hr : regAt a.off = some r) (s : State) :
    hostRead a s = .next { s with resp := some (.data (readReg s r)) } := by
  rw [hostRead, busRead_reg hs hr]
  rfl

theorem busWrite_misshaped {a : BusAccess} (hs : (accessShaped a && a.strobe == 0xF) = false) (v : Bus) (s : State) :
    busWrite a v s = (.error .shape, s) := if_pos hs

theorem busWrite_unmapped {a : BusAccess} (hs : (accessShaped a && a.strobe == 0xF) = true) (hr : regAt a.off = none)
    (v : Bus) (s : State) : busWrite a v s = (.error .unmapped, s) := by
  rw [busWrite, if_neg (ne_false_of_eq_true hs), hr]

theorem busWrite_reg {a : BusAccess} {r : Reg} (hs : (accessShaped a && a.strobe == 0xF) = true)
    (hr : regAt a.off = some r) (v : Bus) (s : State) : busWrite a v s = (.ack, writeReg r v s) := by
  rw [busWrite, if_neg (ne_false_of_eq_true hs), hr]

theorem hostWrite_misshaped {a : BusAccess} (hs : (accessShaped a && a.strobe == 0xF) = false) (v : Bus) (s : State) :
    hostWrite a v s = .fault (.busShape a.off) := by
  rw [hostWrite, busWrite_misshaped hs]
  rfl

theorem hostWrite_unmapped {a : BusAccess} (hs : (accessShaped a && a.strobe == 0xF) = true) (hr : regAt a.off = none)
    (v : Bus) (s : State) : hostWrite a v s = .fault (.busUnmapped a.off) := by
  rw [hostWrite, busWrite_unmapped hs hr]
  rfl

theorem hostWrite_reg {a : BusAccess} {r : Reg} (hs : (accessShaped a && a.strobe == 0xF) = true)
    (hr : regAt a.off = some r) (v : Bus) (s : State) :
    hostWrite a v s = .next { writeReg r v s with resp := some .ack } := by
  rw [hostWrite, busWrite_reg hs hr]
  rfl

/-- Settles O21: the shape is checked first, then the map, which has a register exactly at the listed offsets. -/
theorem busErrors : Obligations.BusErrors := by
  intro a v s
  refine ⟨fun ⟨hsize, hlisted⟩ => ?readOkay, fun ⟨hsize, hstrobe, hlisted⟩ => ?writeOkay, fun hshape => ?readShape,
    fun hshape => ?writeShape, fun ⟨hsize, halign, hunlisted⟩ => ?readUnmapped,
    fun ⟨hsize, halign, hstrobe, hunlisted⟩ => ?writeUnmapped⟩
  case readOkay =>
    obtain ⟨r, hr⟩ := exists_regAt_of_listed hlisted
    exact ⟨_, hostRead_reg (accessShaped_of hsize hlisted.1) hr s⟩
  case writeOkay =>
    obtain ⟨r, hr⟩ := exists_regAt_of_listed hlisted
    exact ⟨_, hostWrite_reg (writeShaped_of hsize hlisted.1 hstrobe) hr v s⟩
  case readShape =>
    have hs := (shaped_iff a).2 hshape
    exact ⟨busRead_misshaped s hs, hostRead_misshaped hs s⟩
  case writeShape =>
    have hs := (writeShaped_iff a).2 hshape
    exact ⟨busWrite_misshaped hs v s, hostWrite_misshaped hs v s⟩
  case readUnmapped =>
    have hs := accessShaped_of hsize halign
    have hr := (regAt_none_iff a.off).2 hunlisted
    exact ⟨busRead_unmapped hs hr s, hostRead_unmapped hs hr s⟩
  case writeUnmapped =>
    have hs := writeShaped_of hsize halign hstrobe
    have hr := (regAt_none_iff a.off).2 hunlisted
    exact ⟨busWrite_unmapped hs hr v s, hostWrite_unmapped hs hr v s⟩

/-! ### Reads (R70) -/

/-- No register shows the last answer (log 13). -/
theorem readReg_resp (s : State) (x : Option BusResp) (r : Reg) : readReg { s with resp := x } r = readReg s r := by
  cases r <;> rfl

theorem busRead_resp (a : BusAccess) (s : State) (x : Option BusResp) :
    busRead a { s with resp := x } = busRead a s := by
  simp only [busRead, readReg_resp]

/-- A read answered OKAY is at the offset of a register (R63). -/
theorem exists_regAt_of_reads {off : BitVec 12} {s : State} {v : Bus} (h : Reads off s v) : ∃ r, regAt off = some r := by
  cases hr : regAt off with
  | some r => exact ⟨r, rfl⟩
  | none =>
    cases hs : accessShaped (fullWord off) with
    | false => exact nomatch (hostRead_misshaped hs s).symm.trans h
    | true => exact nomatch (hostRead_unmapped hs hr s).symm.trans h

/-- Settles O27: an answered read leaves only its answer, which the next read does not see. -/
theorem readsHaveNoSideEffect : Obligations.ReadsHaveNoSideEffect := by
  intro a s t h
  obtain ⟨d, rfl, hd⟩ := hostRead_next h
  refine ⟨rfl, ?_⟩
  rw [readTurn_eq, hostRead, busRead_resp, hd]
  rfl

/-! ### Writes of CMD (R37, R46, R69) -/

theorem writeReg_cmd_idle {s : State} (h : s.pending = none) (c : Bus) : writeReg .cmd c s = issue c s := by
  simp [writeReg, writeCmd, busy, h]

theorem writeReg_cmd_busy {s : State} {c : Bus} (h : s.pending = some c) (x : Bus) :
    writeReg .cmd x s = recordError .cmdOverrun x s := by
  simp [writeReg, writeCmd, busy, h]

/-- Settles O8: 0x010 selects CMD, whose write while idle is the issue step. -/
theorem issueStep : Obligations.IssueStep := by
  intro c s hidle
  have h := writes_reg c s (regAt_regOffset .cmd)
  rwa [writeReg_cmd_idle hidle] at h

/-! ### Writes of the other control and status registers (R31, R32, R341) -/

/-- A write of CTRL with bit 1 = 0 sets IE (R31). -/
theorem writeReg_ctrl_enable {v : Bus} (h : v.getLsbD 1 = false) (s : State) :
    writeReg .ctrl v s = { s with ie := v.getLsbD 0 } :=
  if_neg (ne_true_of_eq_false h)

/-- A write of CTRL with bit 1 = 1 is a soft reset (R341). -/
theorem writeReg_ctrl_reset {v : Bus} (h : v.getLsbD 1 = true) (s : State) : writeReg .ctrl v s = resetBlock s := if_pos h

/-- Settles O23: the five read-only registers ignore a write; STATUS and CTRL by what their writes do. -/
theorem controlRegisterWrites : Obligations.ControlRegisterWrites := by
  intro v s
  have writes (r : Reg) : Writes (regOffset r) v s (writeReg r v s) := writes_reg v s (regAt_regOffset r)
  refine ⟨fun off hoff => ?readOnly, ?status, fun hbit => ?ctrl⟩
  case readOnly =>
    simp only [List.mem_cons, List.not_mem_nil, or_false] at hoff
    obtain rfl | rfl | rfl | rfl | rfl := hoff
    · exact writes .id
    · exact writes .flags
    · exact writes .cmdcnt
    · exact writes .lastcmd
    · exact writes .errcmd
  case status =>
    rw [← writeStatus_fields]
    exact writes .status
  case ctrl =>
    rw [← writeReg_ctrl_enable hbit]
    exact writes .ctrl

/-- Settles O28: all three are `resetBlock`, which leaves the values of R47. -/
theorem resetLeavesResetValues : Obligations.ResetLeavesResetValues := by
  refine fun v s => ⟨⟨_, rfl, resetValues_resetBlock s⟩, fun hbit => ⟨resetBlock s, ?_, resetValues_resetBlock s⟩,
    resetValues_resetBlock State.reset⟩
  rw [← writeReg_ctrl_reset hbit]
  exact writes_reg v s (regAt_regOffset .ctrl)

/-! ### Writes of W and P words (R66, R67, R69) -/

/-- While a command is in flight a write of a W or P word is dropped (R69). -/
theorem writeData_busy {s : State} {c : Bus} (h : s.pending = some c) (off : BitVec 12) (store : State → State) :
    writeData off store s = recordError .busyViolation (off.setWidth 32) s := by
  simp [writeData, busy, h]

/-- Settles O26: every dropped write is a `recordError`, and no data register shows PENDING. -/
theorem busyDiscipline : Obligations.BusyDiscipline := by
  intro c x s hbusy
  refine ⟨fun i j => ?word, fun k d j => ?point, ?cmd, fun i j v => ?readWord, fun k d j v => ?readPoint⟩
  case word =>
    have h := writes_reg x s (regAt_wordOff i j)
    rwa [writeReg, writeData_busy hbusy] at h
  case point =>
    have h := writes_reg x s (regAt_pointOff k d j)
    rwa [writeReg, writeData_busy hbusy, ← pointOff_eq] at h
  case cmd =>
    have h := writes_reg x s (regAt_regOffset .cmd)
    rwa [writeReg_cmd_busy hbusy] at h
  case readWord =>
    rw [reads_iff (regAt_wordOff i j), reads_iff (regAt_wordOff i j)]
    rfl
  case readPoint =>
    rw [reads_iff (regAt_pointOff k d j), reads_iff (regAt_pointOff k d j)]
    rfl

theorem coordNo_injective : Function.Injective coordNo := by decide

/-- While no command is in flight a write of word j of a coordinate is `setLane` on that coordinate (R67). -/
theorem writeReg_p_idle {s : State} (h : s.pending = none) (k : PReg) (c : Coord) (j : Fin 8) (x : Bus) :
    writeReg (.p k c j) x s = writeP k (setCoord (getP s k) c (setLane (coordOf (getP s k) c) j x)) s := by
  simp only [writeReg, writeData_idle _ _ h, writeP_eq]

/-- Settles O25: the offset selects word j of the coordinate, which reads as `laneOf` and is written by `setLane`. -/
theorem pointRegisterWindow : Obligations.PointRegisterWindow := by
  intro k c j x s
  have hreg := regAt_pointOff k c j
  simp only [coordinate_eq]
  refine ⟨⟨_, reads_reg s hreg, laneOf_getLsbD _ j⟩, fun hidle => ?_⟩
  refine ⟨setCoord (getP s k) (coordNo c) (setLane (coordOf (getP s k) (coordNo c)) j x), ?lane, fun c' hc' => ?others,
    ?written⟩
  case lane =>
    rw [coordOf_setCoord_same]
    exact laneWritten_setLane _ j x
  case written =>
    rw [← writeReg_p_idle hidle]
    exact writes_reg x s hreg
  case others => exact coordOf_setCoord_ne _ _ (coordNo_injective.ne hc')

/-! ### The interrupt line (R320) -/

/-- irq does not see the answer to the write that leaves it. -/
theorem irq_of_writes {off : BitVec 12} {r : Reg} {v : Bus} {s t : State} (hr : regAt off = some r)
    (h : Writes off v s t) : irq t = irq (writeReg r v s) := by
  have hsame := (writes_reg v s hr).symm.trans h
  exact (congrArg irq (Host.Outcome.next.inj hsame)).symm

/-- Settles O29: a write that lowers irq clears IE, or DONE with ERR clear or cleared. -/
theorem interruptLine : Obligations.InterruptLine := by
  intro c v s t
  refine ⟨rfl, fun h hdone herr => ?status, fun h hie => ?ctrl, fun h hidle herr => ?issue, fun h => ?reset⟩
  case status =>
    rw [irq_of_writes (regAt_regOffset .status) h]
    simp [writeReg, writeStatus_fields, irq, hdone, herr]
  case ctrl =>
    rw [irq_of_writes (regAt_regOffset .ctrl) h]
    cases hbit : v.getLsbD 1 with
    | true => rw [writeReg_ctrl_reset hbit]; rfl
    | false => rw [writeReg_ctrl_enable hbit, irq, hie, Bool.false_and]
  case issue =>
    rw [irq_of_writes (regAt_regOffset .cmd) h, writeReg_cmd_idle hidle]
    simp [irq, herr]
  case reset =>
    cases h
    rfl

end Sys2Proof.Machine
end

section
/-! SUPPORT. Noninterference (spec/10_state.md R40, R41; spec/45_scalar_multipliers.md R241; spec/46_nonce_generator.md R264): steps
from states alike end alike, said once for every relation that the block's operations keep; then for the states that agree but for
the G table, and for those that agree but for the hidden nonce state. -/

namespace Sys2Proof.Machine

open Sys2Proof.Spec

/-! ### Steps from states alike -/

/-- A relation that commands keep (`Alike`), that the steps' own operations keep too, between states with the same word in
flight. -/
structure StepAlike (R : State → State → Prop) : Prop extends Alike R where
  pending : ∀ {s t}, R s t → s.pending = t.pending
  complete : ∀ {s t}, R s t → R (complete s) (complete t)
  err : ∀ {s t}, R s t → s.err = t.err
  record : ∀ {s t} e c word, R s t →
    R { s with err := e, errcode := c, errcmd := word } { t with err := e, errcode := c, errcmd := word }
  issue : ∀ {s t} c, R s t → R (issue c s) (issue c t)
  reset : ∀ {s t}, R s t → R (resetBlock s) (resetBlock t)
  enable : ∀ {s t} b, R s t → R { s with ie := b } { t with ie := b }
  done : ∀ {s t} b, R s t → R { s with done := b } { t with done := b }
  resp : ∀ {s t} x, R s t → R { s with resp := x } { t with resp := x }

section
variable {R : State → State → Prop} (A : StepAlike R) {s t : State} (h : R s t)
include A h

/-- Recording an error: ERR is the same on both sides, and so is what is recorded. -/
theorem recordError_alike (c : ErrCode) (word : Bus) : R (recordError c word s) (recordError c word t) := by
  have herr := A.err h
  cases he : s.err with
  | true => rwa [recordError_of_err he, recordError_of_err (herr ▸ he)]
  | false =>
    rw [recordError_of_clear he, recordError_of_clear (herr ▸ he)]
    exact A.record _ _ _ h

theorem clearDone_alike (b : Bool) : R (clearDone b s) (clearDone b t) := by
  cases b with
  | true => exact A.done false h
  | false => exact h

theorem clearErr_alike (b : Bool) : R (clearErr b s) (clearErr b t) := by
  cases b with
  | true => exact A.record _ _ _ h
  | false => exact h

/-- A write of one register. -/
theorem writeReg_alike (r : Reg) (v : Bus) : R (writeReg r v s) (writeReg r v t) := by
  have hpending := A.pending h
  have data (off : BitVec 12) {store : State → State} (hstore : R (store s) (store t)) :
      R (writeData off store s) (writeData off store t) := by
    cases hp : s.pending with
    | none => rwa [writeData_idle _ _ hp, writeData_idle _ _ (hpending ▸ hp)]
    | some c =>
      rw [writeData_busy hp, writeData_busy (hpending ▸ hp)]
      exact recordError_alike A h _ _
  cases r with
  | id | flags | cmdcnt | lastcmd | errcmd => exact h
  | ctrl =>
    cases hbit : v.getLsbD 1 with
    | true =>
      rw [writeReg_ctrl_reset hbit, writeReg_ctrl_reset hbit]
      exact A.reset h
    | false =>
      rw [writeReg_ctrl_enable hbit, writeReg_ctrl_enable hbit]
      exact A.enable _ h
  | status => exact clearErr_alike A (clearDone_alike A h _) _
  | cmd =>
    cases hp : s.pending with
    | none =>
      rw [writeReg_cmd_idle hp, writeReg_cmd_idle (hpending ▸ hp)]
      exact A.issue v h
    | some c =>
      rw [writeReg_cmd_busy hp, writeReg_cmd_busy (hpending ▸ hp)]
      exact recordError_alike A h _ v
  | w i j =>
    have hw : getW s i = getW t i := congrArg (Vector.get · i) (A.w h)
    refine data (wOffset i j) (store := fun u => setW u i (setLane (getW u i) j v)) ?_
    rw [hw]
    exact A.setW i _ h
  | p k c j =>
    have hp : getP s k = getP t k := congrArg (Vector.get · k) (A.p h)
    refine data (pOffset k c j)
      (store := fun u => setP u k (setCoord (getP u k) c (setLane (coordOf (getP u k) c) j v))) ?_
    rw [hp]
    exact A.setP k _ h

/-- A host write: the answer depends on the transaction alone. -/
theorem hostWrite_alike (a : BusAccess) (v : Bus) : EndAlike R (hostWrite a v s) (hostWrite a v t) := by
  cases hs : (accessShaped a && a.strobe == 0xF) with
  | false =>
    rw [hostWrite_misshaped hs, hostWrite_misshaped hs]
    exact rfl
  | true =>
    cases hr : regAt a.off with
    | none =>
      rw [hostWrite_unmapped hs hr, hostWrite_unmapped hs hr]
      exact rfl
    | some r =>
      rw [hostWrite_reg hs hr, hostWrite_reg hs hr]
      exact A.resp _ (writeReg_alike A h r v)

/-- A host read, when every register reads the same. -/
theorem hostRead_alike (hregs : ∀ r, readReg s r = readReg t r) (a : BusAccess) :
    EndAlike R (hostRead a s) (hostRead a t) := by
  cases hs : accessShaped a with
  | false =>
    rw [hostRead_misshaped hs, hostRead_misshaped hs]
    exact rfl
  | true =>
    cases hr : regAt a.off with
    | none =>
      rw [hostRead_unmapped hs hr, hostRead_unmapped hs hr]
      exact rfl
    | some r =>
      rw [hostRead_reg hs hr, hostRead_reg hs hr, hregs r]
      exact A.resp _ h

/-- A command that completes alike or waits ends alike. -/
theorem endAlike_of_twin {i : Instr} (htwin : Twin R i s t) : EndAlike R (exec i s) (exec i t) := by
  cases htwin with
  | commit r r' hs ht hsame =>
    rw [hs, ht]
    exact endAlike_commit A.complete hsame fun c word => recordError_alike A h c word
  | wait hs ht =>
    rw [hs, ht]
    exact h

/-- The engine's turn, when the command in flight ends alike. -/
theorem engineStep_alike (hexec : ∀ i, s.pending = some (encode i) → EndAlike R (exec i s) (exec i t)) :
    EndAlike R (engineStep s) (engineStep t) := by
  have hpending := A.pending h
  cases hp : s.pending with
  | none =>
    rw [engineStep_idle hp, engineStep_idle (hpending ▸ hp)]
    exact h
  | some c =>
    cases hd : decode c with
    | error e =>
      rw [engineStep_error hp hd, engineStep_error (hpending ▸ hp) hd]
      exact A.complete (recordError_alike A h _ c)
    | ok i =>
      rw [engineStep_ok hp hd, engineStep_ok (hpending ▸ hp) hd]
      exact hexec i (by rw [hp, (encode_of_decode hd).2])

end

/-! ### The G table (R40, R241) -/

theorem stepAlike_table : StepAlike SameButTable where
  toAlike := alike_table
  pending h := by rw [h]
  complete h := by unfold SameButTable; rw [h]; rfl
  err h := by rw [h]
  record _ _ _ h := by unfold SameButTable; rw [h]
  issue c h := by unfold SameButTable; rw [h]; rfl
  reset h := by unfold SameButTable; rw [h]; rfl
  enable b h := by unfold SameButTable; rw [h]
  done b h := by unfold SameButTable; rw [h]
  resp x h := by unfold SameButTable; rw [h]

/-- No register but STATUS shows the table. -/
theorem readReg_of_sameButTable {s t : State} (h : SameButTable s t) {r : Reg} (hr : r ≠ .status) :
    readReg s r = readReg t r := by
  rw [h]
  cases r with
  | status => exact absurd rfl hr
  | _ => rfl

/-- NGEN does not read the table, so its candidate loop is alike too. -/
theorem ngen_endAlike_of_sameButTable {s t : State} (h : SameButTable s t) (wk : WReg) :
    EndAlike SameButTable (exec (.ngen wk) s) (exec (.ngen wk) t) := by
  have hgen (k c : Word) : SameButTable { setW s wk c with ngK := k, ngV := c, ngFirst := false }
      { setW t wk c with ngK := k, ngV := c, ngFirst := false } := by
    unfold SameButTable; rw [h]; rfl
  rcases ngen_alike alike_table h wk (by rw [h]) (by rw [h]) (by rw [h]) (by rw [h]) (by rw [h]) hgen with
    htwin | ⟨kv, hs, ht⟩
  · exact endAlike_of_twin stepAlike_table h htwin
  · rw [hs, ht]
    show SameButTable _ _
    unfold SameButTable
    rw [h]

/-- Settles O19: no command, write or reset reads the table, and only STATUS shows it. -/
theorem nothingDependsOnTheTable : Obligations.NothingDependsOnTheTable := by
  intro s t h
  refine ⟨engineStep_alike stepAlike_table h fun i _ => ?command, hostWrite_alike stepAlike_table h,
    stepAlike_table.reset h, fun off v hoff hreads => ?register⟩
  case command =>
    by_cases hngen : ∃ wk, i = .ngen wk
    · obtain ⟨wk, rfl⟩ := hngen
      exact ngen_endAlike_of_sameButTable h wk
    · exact endAlike_of_twin stepAlike_table h (exec_alike alike_table h i fun wk hi => hngen ⟨wk, hi⟩)
  case register =>
    obtain ⟨r, hr⟩ := exists_regAt_of_reads hreads
    have hstatus : r ≠ .status := by
      rintro rfl
      exact hoff (regOffset_of_regAt hr).symm
    rw [reads_iff hr, ← readReg_of_sameButTable h hstatus]
    exact (reads_iff hr).1 hreads

/-! ### The nonce state (R41, R264) -/

theorem stepAlike_nonce : StepAlike SameButNonce where
  toAlike := alike_nonce
  pending h := by rw [h]
  complete h := by unfold SameButNonce; rw [h]; rfl
  err h := by rw [h]
  record _ _ _ h := by unfold SameButNonce; rw [h]
  issue c h := by unfold SameButNonce; rw [h]; rfl
  reset h := by unfold SameButNonce; rw [h]; rfl
  enable b h := by unfold SameButNonce; rw [h]
  done b h := by unfold SameButNonce; rw [h]
  resp x h := by unfold SameButNonce; rw [h]

/-- No register shows the nonce state (R264). -/
theorem readReg_of_sameButNonce {s t : State} (h : SameButNonce s t) (r : Reg) : readReg s r = readReg t r := by
  rw [h]
  cases r <;> rfl

/-- Settles O20: no register shows the nonce state, and no command but NGEN reads it. -/
theorem nonceStateIsSecret : Obligations.NonceStateIsSecret := by
  intro s t h
  refine ⟨hostRead_alike stepAlike_nonce h (readReg_of_sameButNonce h), hostWrite_alike stepAlike_nonce h,
    stepAlike_nonce.reset h, fun hnot => engineStep_alike stepAlike_nonce h fun i hp => ?_⟩
  have hngen (wk : WReg) : i ≠ .ngen wk := by
    rintro rfl
    exact hnot wk hp
  exact endAlike_of_twin stepAlike_nonce h (exec_alike alike_nonce h i hngen)

end Sys2Proof.Machine
end

section
/-! SUPPORT. The engine's turn (spec/10_state.md R45, R46; spec/30_encoding.md R109; spec/60_exceptions.md R300, R301): which command
it runs, what it writes besides that command's own effect, and the frame and the error codes of a command. -/

namespace Sys2Proof.Machine

open Sys2Proof.Spec

/-! ### The command the turn runs (R109) -/

/-- Settles O7: the pending word decodes to the command, and withFetchWord's word is the one it was given, whole. -/
theorem stepRunsDecodedCommand : Obligations.StepRunsDecodedCommand := by
  refine ⟨fun s c i hp hd => ⟨engineStep_ok hp hd, fun he => (step_nil he).trans (engineStep_ok hp hd)⟩,
    fun s i hwf => ?fetched⟩
  case fetched =>
    have hword : BitVec.ofNat 32 ((encode i).toNat % 2 ^ 32) = encode i := by
      rw [Nat.mod_eq_of_lt (encode i).isLt, BitVec.ofNat_toNat, BitVec.setWidth_eq]
    rw [State.withFetchWord, hword]
    exact engineStep_ok (s := issue (encode i) s) rfl (decode_encode hwf)

/-! ### What the turn writes besides (R45) -/

/-- `u` has the control registers and the environment of `s`, and its error record if one is set. -/
structure KeepsControl (s u : State) : Prop where
  ie : u.ie = s.ie
  cmdcnt : u.cmdcnt = s.cmdcnt
  lastcmd : u.lastcmd = s.lastcmd
  env : u.events = s.events ∧ u.hmac = s.hmac ∧ u.resp = s.resp
  record : s.err = true → u.err = true ∧ u.errcode = s.errcode ∧ u.errcmd = s.errcmd

theorem Wrote.keepsControl {i : Instr} {s u : State} (h : Wrote i s u) : KeepsControl s u := by
  obtain ⟨hie, -, hcnt, hlast, -, -⟩ := h.control
  obtain ⟨herr, hcode, hcmd⟩ := h.record
  exact ⟨hie, hcnt, hlast, h.env, fun hset => ⟨herr.trans hset, hcode, hcmd⟩⟩

theorem keepsControl_recordError (c : ErrCode) (word : Bus) (s : State) : KeepsControl s (recordError c word s) where
  ie := recordError_ie c word s
  cmdcnt := recordError_cmdcnt c word s
  lastcmd := recordError_lastcmd c word s
  env := ⟨recordError_events c word s, recordError_hmac c word s, recordError_resp c word s⟩
  record hset := by
    rw [recordError_of_err hset]
    exact ⟨hset, rfl, rfl⟩

/-- A turn with a command in flight completes it, or changes nothing but the candidate loop (logs 3 and 4). -/
theorem engineStep_completes_or_waits {s t : State} {c : Bus} (hp : s.pending = some c) (h : engineStep s = .next t) :
    (∃ u, KeepsControl s u ∧ t = complete u) ∨ t = { s with ngWork := t.ngWork } := by
  rcases engineStep_cases hp with ⟨hbad, -⟩ | ⟨i, t', -, ht', -, houtcome⟩
  · rw [hbad] at h
    cases h
    exact .inl ⟨_, keepsControl_recordError _ _ s, rfl⟩
  · rw [ht'] at h
    cases h
    rcases houtcome with ⟨u, hu, rfl⟩ | ⟨code, -, rfl⟩ | ⟨-, rfl | ⟨wk, kv, -, -, rfl⟩⟩
    · exact .inl ⟨u, hu.keepsControl, rfl⟩
    · exact .inl ⟨_, keepsControl_recordError _ _ s, rfl⟩
    · exact .inr rfl
    · exact .inr rfl

/-- CMDCNT counts modulo 2^32 (R38). -/
theorem toNat_cmdcnt_complete {s u : State} (h : KeepsControl s u) :
    (complete u).cmdcnt.toNat = (s.cmdcnt.toNat + 1) % 2 ^ 32 := by
  rw [complete_cmdcnt, h.cmdcnt]
  exact BitVec.toNat_add ..

/-- Settles O9: a completion by its bookkeeping, any other turn by what it leaves. -/
theorem completionBookkeeping : Obligations.CompletionBookkeeping := by
  intro c s t hp h
  rcases engineStep_completes_or_waits hp h with ⟨u, hu, rfl⟩ | hwaits
  · obtain ⟨hevents, hhmac, hresp⟩ := hu.env
    exact ⟨.inr ⟨rfl, rfl, rfl, toNat_cmdcnt_complete hu⟩, hu.lastcmd, hu.ie, hevents, hhmac, hresp⟩
  · refine ⟨.inl hwaits, ?_⟩
    rw [hwaits]
    exact ⟨rfl, rfl, rfl, rfl, rfl⟩

/-! ### A command's error codes and frame (R300, R22 to R29) -/

/-- Settles O12: of a command's outcomes only an error sets ERR, and a well-formed command's is one of its codes. -/
theorem errorCodesByCommand : Obligations.ErrorCodesByCommand := by
  intro i s t hwf h hclear herr
  have hnot (hkept : t.err = s.err) : False := by simp [hkept, hclear] at herr
  rcases outcomes_of_exec h with ⟨u, hu, rfl⟩ | ⟨c, hc, rfl⟩ | ⟨-, rfl | ⟨wk, kv, -, -, rfl⟩⟩
  · exact (hnot hu.record.1).elim
  · have hown : c ∈ mayRaise i := hc.resolve_right fun hill => by simp [hwf] at hill
    rw [recordError_of_clear hclear]
    exact ⟨hown, rfl⟩
  · exact (hnot rfl).elim
  · exact (hnot rfl).elim

@[simp] theorem flagIn_recordError (c : ErrCode) (word : Bus) (s : State) (f : Flag) :
    flagIn (recordError c word s) f = flagIn s f := by
  cases f <;> simp [flagIn]

/-- Settles O13: a completion wrote inside the frame, an error wrote the record, and a turn that goes on the candidate loop. -/
theorem commandFrame : Obligations.CommandFrame := by
  intro i s t h
  have hsame := wrote_refl i s
  rcases outcomes_of_exec h with ⟨u, hu, rfl⟩ | ⟨c, -, rfl⟩ | ⟨-, rfl | ⟨wk, kv, -, -, rfl⟩⟩
  · exact ⟨hu.word, hu.point, hu.flag, hu.table, hu.nonce⟩
  · exact ⟨fun r _ => getW_recordError c _ s r, fun r _ => getP_recordError c _ s r,
      fun f _ => flagIn_recordError c _ s f, fun _ => by simp, fun _ => by simp⟩
  · exact ⟨hsame.word, hsame.point, hsame.flag, hsame.table, hsame.nonce⟩
  · exact ⟨hsame.word, hsame.point, hsame.flag, hsame.table, hsame.nonce⟩

end Sys2Proof.Machine
end

section
/-! SUPPORT. Whole steps (spec/20_memory.md R71, R74; spec/60_exceptions.md R303, R308): what they keep of the error record and of the
operands of a command in flight, what sets DONE, and where the machine stops. -/

namespace Sys2Proof.Machine

open Sys2Proof.Spec

/-! ### The error record (R35, R308) -/

/-- The record of `t` is that of `s`, with ERR = 1. -/
def RecordKept (s t : State) : Prop := t.err = true ∧ t.errcode = s.errcode ∧ t.errcmd = s.errcmd

/-- ERR, ERRCODE and ERRCMD are cleared whole. -/
def RecordCleared (t : State) : Prop := t.err = false ∧ t.errcode = .noError ∧ t.errcmd = 0

theorem engineStep_recordKept {s t : State} (herr : s.err = true) (h : engineStep s = .next t) : RecordKept s t := by
  cases hp : s.pending with
  | none =>
    rw [engineStep_idle hp] at h
    cases h
    exact ⟨herr, rfl, rfl⟩
  | some c =>
    rcases engineStep_completes_or_waits hp h with ⟨u, hu, rfl⟩ | hwaits
    · exact hu.record herr
    · rw [RecordKept, hwaits]
      exact ⟨herr, rfl, rfl⟩

/-- A write of STATUS keeps the record or, by bit 2, clears it (R35). -/
theorem writeStatus_record {s : State} (herr : s.err = true) (v : Bus) :
    RecordKept s (writeStatus v s) ∨ (RecordCleared (writeStatus v s) ∧ v.getLsbD 2 = true) := by
  rw [writeStatus_fields]
  cases hbit : v.getLsbD 2 with
  | false => exact .inl ⟨by simp [herr], rfl, rfl⟩
  | true => exact .inr ⟨⟨by simp, rfl, rfl⟩, rfl⟩

/-- A host write keeps a set record, or clears it by STATUS bit 2 or by a soft reset (R308). -/
theorem writeReg_record {s : State} (herr : s.err = true) (r : Reg) (v : Bus) :
    RecordKept s (writeReg r v s) ∨ (RecordCleared (writeReg r v s) ∧
      ((r = .status ∧ v.getLsbD 2 = true) ∨ (r = .ctrl ∧ v.getLsbD 1 = true))) := by
  have hkept : RecordKept s s := ⟨herr, rfl, rfl⟩
  have hwrote := writeReg_hostWrote r v s
  generalize writeReg r v s = t at hwrote
  cases hwrote with
  | same | enable | issue | word | point => exact .inl hkept
  | overrun | busy =>
    rw [recordError_of_err herr]
    exact .inl hkept
  | status => exact (writeStatus_record herr v).imp_right fun ⟨hcleared, hbit⟩ => ⟨hcleared, .inl ⟨rfl, hbit⟩⟩
  | reset _ hbit => exact .inr ⟨⟨rfl, rfl, rfl⟩, .inr ⟨rfl, hbit⟩⟩

/-- Settles O11, by the kind of step. -/
theorem firstErrorIsKept : Obligations.FirstErrorIsKept := by
  intro s t herr h
  rcases step_cases h with ⟨-, h⟩ | ⟨rest, -, h⟩ | ⟨rest, he, rfl⟩ | ⟨a, rest, d, -, rfl⟩ | ⟨a, v, rest, r, he, hr, rfl⟩
  · exact .inl (engineStep_recordKept herr h)
  · exact .inl (engineStep_recordKept (s := { s with events := rest }) herr h)
  · exact .inr ⟨rfl, rfl, rfl, .inl (by rw [he]; rfl)⟩
  · exact .inl ⟨herr, rfl, rfl⟩
  · rcases writeReg_record (s := { s with events := rest }) herr r v with hkept | ⟨⟨hcleared, hcode, hcmd⟩, hwhy⟩
    · exact .inl hkept
    · refine .inr ⟨hcleared, hcode, hcmd, .inr ⟨a, v, by rw [he]; rfl, ?_⟩⟩
      rw [← regOffset_of_regAt hr]
      rcases hwhy with ⟨rfl, hbit⟩ | ⟨rfl, hbit⟩
      · exact .inl ⟨rfl, hbit⟩
      · exact .inr ⟨rfl, hbit⟩

/-! ### The operands of a command in flight (R71) -/

/-- All that a command in flight reads, and the command itself, are in `t` as in `s`. -/
def OperandsKept (s t : State) : Prop :=
  t.w = s.w ∧ t.p = s.p ∧ (∀ f, flagIn t f = flagIn s f) ∧ t.pending = s.pending ∧ t.lastcmd = s.lastcmd ∧
    t.cmdcnt = s.cmdcnt ∧ t.ngK = s.ngK ∧ t.ngV = s.ngV ∧ t.ngReady = s.ngReady ∧ t.ngFirst = s.ngFirst ∧
    t.ngWork = s.ngWork ∧ t.tblValid = s.tblValid ∧ t.tblW = s.tblW ∧ t.tbl = s.tbl

theorem operandsKept_refl (s : State) : OperandsKept s s :=
  ⟨rfl, rfl, fun _ => rfl, rfl, rfl, rfl, rfl, rfl, rfl, rfl, rfl, rfl, rfl, rfl⟩

theorem operandsKept_recordError (c : ErrCode) (word : Bus) (s : State) : OperandsKept s (recordError c word s) := by
  simp [OperandsKept]

/-- While a command is in flight a write that is not a soft reset leaves its operands. -/
theorem writeReg_operandsKept {s : State} (hbusy : s.pending ≠ none) {r : Reg} {v : Bus}
    (hnot : ¬ (r = .ctrl ∧ v.getLsbD 1 = true)) : OperandsKept s (writeReg r v s) := by
  have hwrote := writeReg_hostWrote r v s
  generalize writeReg r v s = t at hwrote
  cases hwrote with
  | same | enable => exact operandsKept_refl s
  | overrun | busy => exact operandsKept_recordError _ _ s
  | status =>
    rw [writeStatus_fields]
    exact operandsKept_refl s
  | reset _ hbit => exact absurd ⟨rfl, hbit⟩ hnot
  | issue _ hidle | word _ _ _ hidle | point _ _ _ _ hidle => exact absurd hidle hbusy

/-- Settles O14: a read leaves everything but its answer; a write by `writeReg_operandsKept`. -/
theorem operandsStandStillWhileBusy : Obligations.OperandsStandStillWhileBusy := by
  intro c a v s t hp h
  rw [← hp]
  show OperandsKept s t
  rcases h with h | ⟨h, hnot⟩
  · obtain ⟨d, rfl, -⟩ := hostRead_next h
    exact operandsKept_refl s
  · obtain ⟨r, hr, rfl⟩ := hostWrite_next h
    refine writeReg_operandsKept (by simp [hp]) fun ⟨hctrl, hbit⟩ => hnot ⟨?_, hbit⟩
    rw [← regOffset_of_regAt hr, hctrl]
    rfl

/-! ### What sets DONE and what ends BUSY (R74) -/

/-- An engine's turn that sets DONE completed the command in flight, and one that ends BUSY sets DONE. -/
theorem engineStep_done {s t : State} (h : engineStep s = .next t) :
    (s.done = false → t.done = true → ∃ c, s.pending = some c ∧ t.pending = none ∧ t.lastcmd = s.lastcmd ∧
      t.cmdcnt.toNat = (s.cmdcnt.toNat + 1) % 2 ^ 32) ∧
    (s.pending ≠ none → t.pending = none → t.done = true) := by
  cases hp : s.pending with
  | none =>
    rw [engineStep_idle hp] at h
    cases h
    exact ⟨fun h0 h1 => by simp [h0] at h1, fun hne => absurd rfl hne⟩
  | some c =>
    rcases engineStep_completes_or_waits hp h with ⟨u, hu, rfl⟩ | hwaits
    · exact ⟨fun _ _ => ⟨c, rfl, rfl, hu.lastcmd, toNat_cmdcnt_complete hu⟩, fun _ _ => rfl⟩
    · rw [hwaits]
      exact ⟨fun h0 h1 => by simp [h0] at h1, fun _ hnone => by simp [hp] at hnone⟩

/-- No host write sets DONE. -/
theorem done_of_writeReg {r : Reg} {v : Bus} {s : State} (h : (writeReg r v s).done = true) : s.done = true := by
  have hwrote := writeReg_hostWrote r v s
  generalize writeReg r v s = t at hwrote h
  cases hwrote with
  | same | enable | word | point => exact h
  | overrun | busy => simpa using h
  | status =>
    rw [writeStatus_fields] at h
    exact (Bool.and_eq_true_iff.1 h).1
  | reset | issue => exact nomatch h

/-- The only host write that ends BUSY is a soft reset. -/
theorem writeReg_eq_resetBlock {r : Reg} {v : Bus} {s : State} (hbusy : s.pending ≠ none)
    (h : (writeReg r v s).pending = none) : writeReg r v s = resetBlock s := by
  by_cases hreset : r = .ctrl ∧ v.getLsbD 1 = true
  · obtain ⟨rfl, hbit⟩ := hreset
    exact writeReg_ctrl_reset hbit s
  · obtain ⟨-, -, -, hpending, -⟩ := writeReg_operandsKept hbusy hreset
    exact absurd (hpending.symm.trans h) hbusy

/-- Settles O15, by the kind of step: only the engine's turn sets DONE, and only it and the resets end BUSY. -/
theorem doneProvesCompletion : Obligations.DoneProvesCompletion := by
  intro s t h
  have hnot (h0 : s.done = false) (h1 : s.done = true) : False := by simp [h0] at h1
  rcases step_cases h with ⟨-, h⟩ | ⟨rest, -, h⟩ | ⟨rest, he, rfl⟩ | ⟨a, rest, d, -, rfl⟩ | ⟨a, v, rest, r, he, -, rfl⟩
  · obtain ⟨hset, hends⟩ := engineStep_done h
    exact ⟨hset, fun hbusy hnone => .inl (hends hbusy hnone)⟩
  · obtain ⟨hset, hends⟩ := engineStep_done h
    exact ⟨hset, fun hbusy hnone => .inl (hends hbusy hnone)⟩
  · refine ⟨fun _ h1 => (nomatch h1), fun _ _ => .inr ?_⟩
    rw [he]
    exact resetValues_resetBlock _
  · exact ⟨fun h0 h1 => (hnot h0 h1).elim, fun hbusy hnone => absurd hnone hbusy⟩
  · refine ⟨fun h0 h1 => (hnot h0 (done_of_writeReg (s := { s with events := rest }) h1)).elim, fun hbusy hnone => .inr ?_⟩
    rw [writeReg_eq_resetBlock (s := { s with events := rest }) hbusy hnone, he]
    exact resetValues_resetBlock _

/-! ### Where the machine stops (R301, R303) -/

/-- The fault of a transaction that the bus answers ERROR, under the error's name (log 5). -/
def FaultOf (a : BusAccess) (f : Fault) : Prop :=
  (f = .busShape a.off ∧ (a.size ≠ 4 ∨ a.off.toNat % 4 ≠ 0 ∨ a.strobe ≠ 0xF)) ∨
    (f = .busUnmapped a.off ∧ ¬ Listed a.off)

theorem hostRead_next_or_fault (a : BusAccess) (s : State) :
    (∃ t, hostRead a s = .next t) ∨ ∃ f, hostRead a s = .fault f ∧ FaultOf a f := by
  cases hs : accessShaped a with
  | false => exact .inr ⟨_, hostRead_misshaped hs s, .inl ⟨rfl, ((shaped_iff a).1 hs).imp_right Or.inl⟩⟩
  | true =>
    cases hr : regAt a.off with
    | none => exact .inr ⟨_, hostRead_unmapped hs hr s, .inr ⟨rfl, (regAt_none_iff _).1 hr⟩⟩
    | some r => exact .inl ⟨_, hostRead_reg hs hr s⟩

theorem hostWrite_next_or_fault (a : BusAccess) (v : Bus) (s : State) :
    (∃ t, hostWrite a v s = .next t) ∨ ∃ f, hostWrite a v s = .fault f ∧ FaultOf a f := by
  cases hs : (accessShaped a && a.strobe == 0xF) with
  | false => exact .inr ⟨_, hostWrite_misshaped hs v s, .inl ⟨rfl, (writeShaped_iff a).1 hs⟩⟩
  | true =>
    cases hr : regAt a.off with
    | none => exact .inr ⟨_, hostWrite_unmapped hs hr v s, .inr ⟨rfl, (regAt_none_iff _).1 hr⟩⟩
    | some r => exact .inl ⟨_, hostWrite_reg hs hr v s⟩

/-- A step goes on, or its event is a transaction answered ERROR and it faults. -/
theorem step_next_or_fault (s : State) : (∃ t, step s = .next t) ∨ ∃ f, step s = .fault f ∧
    ∃ a, (s.events.head? = some (.read a) ∨ ∃ v, s.events.head? = some (.write a v)) ∧ FaultOf a f := by
  cases he : s.events with
  | nil =>
    rw [step_nil he]
    exact .inl (engineStep_next s)
  | cons e rest =>
    rw [step_cons he]
    cases e with
    | engine => exact .inl (engineStep_next _)
    | hardReset => exact .inl ⟨_, rfl⟩
    | read a =>
      exact (hostRead_next_or_fault a _).imp_right fun ⟨f, hf, hwhy⟩ => ⟨f, hf, a, .inl rfl, hwhy⟩
    | write a v =>
      exact (hostWrite_next_or_fault a v _).imp_right fun ⟨f, hf, hwhy⟩ => ⟨f, hf, a, .inr ⟨v, rfl⟩, hwhy⟩

/-- Settles O18: the engine's turn and a reset go on, and any step by `step_next_or_fault`. -/
theorem stopsOnlyAtBusErrors : Obligations.StopsOnlyAtBusErrors := by
  refine ⟨engineStep_next, fun s => ⟨_, rfl⟩, fun s r hrefused => ?refusal, fun s f hfault => ?fault⟩
  case refusal =>
    rcases step_next_or_fault s with ⟨t, h⟩ | ⟨f, h, -⟩
    · exact nomatch h.symm.trans hrefused
    · exact nomatch h.symm.trans hrefused
  case fault =>
    rcases step_next_or_fault s with ⟨t, h⟩ | ⟨g, h, hwhy⟩
    · exact nomatch h.symm.trans hfault
    · cases h.symm.trans hfault
      exact hwhy

end Sys2Proof.Machine
end
